-- ==== Sys2Proof/Word.lean ====
section
/-! DEFINITION. The one word type every interface of the core uses: the byte (spec/00_scope.md R11, R15). -/

namespace Sys2Proof

/-- One byte of a host command, of an event record or of FIFO storage. -/
abbrev Byte := BitVec 8

end Sys2Proof
end

