-- ==== Sys2Proof/Syntax.lean ====
section
/-! DEFINITION. The operations of spec/opcode_table.json, one constructor per row: the six host commands
(spec/30_encoding.md R111) and the sixteen port operations (R135). -/

namespace Sys2Proof

/-- The `maxBytes` operand of FIFO_READ_DRAIN and FIFO_READ: "a natural number or `INF`" (R164). -/
inductive Limit where
  | upTo (n : Nat)
  | inf
  deriving DecidableEq, Repr

/-- One operation of the core, with the operands its rule names. -/
inductive Instr where
  /-- PING, host command `0x01` (R293). -/
  | ping
  /-- UPTIME, host command `0x02` (R294). -/
  | uptime
  /-- STATUS, host command `0x03` (R296). -/
  | status
  /-- READLOG, host command `0x04` (R297). -/
  | readlog
  /-- SENDCODE, host command `0x05` and its three parameter bytes (R112, R303). -/
  | sendcode (argCmd argHouse argUnit : Byte)
  /-- INVALID, every other command byte (R115, R298); `b` is the offending byte. -/
  | invalid (b : Byte)
  /-- RESET, port-op `0x00` (R370). -/
  | reset
  /-- FIFO_INIT, port-op `0x01` (R160). -/
  | fifoInit (capacity : Nat)
  /-- FIFO_INSERT, port-op `0x02` (R161). -/
  | fifoInsert (data : List Byte)
  /-- FIFO_AVAIL, port-op `0x03` (R162). -/
  | fifoAvail
  /-- FIFO_FREE, port-op `0x04` (R163). -/
  | fifoFree
  /-- FIFO_READ_DRAIN, port-op `0x05` (R164). `counts` is the consumer `drainFn`: the counts it reports, in call
  order, and 0 on every call after them (log entry 9). -/
  | fifoReadDrain (maxBytes : Limit) (counts : List Nat)
  /-- FIFO_READ, port-op `0x06` (R165). -/
  | fifoRead (maxBytes : Limit)
  /-- FIFO_RESET, port-op `0x07` (R166). -/
  | fifoReset
  /-- LOG_APPEND, port-op `0x08` (R190). -/
  | logAppend (eventBytes : List Byte)
  /-- LOG_DRAIN, port-op `0x09` (R195). -/
  | logDrain
  /-- PE_EDGE, port-op `0x0A` (R220); `rxLow` is true when the line was sampled low (R123). -/
  | peEdge (rxLow : Bool)
  /-- PE_SEND, port-op `0x0B` (R244). -/
  | peSend (argCmd argHouse argUnit : Byte)
  /-- IND_PULSE, port-op `0x0C` (R270). -/
  | indPulse (durationTicks : Nat)
  /-- TMR_TICK, port-op `0x0D` (R271). -/
  | tmrTick
  /-- MAIN_POLL, port-op `0x0E` (R292). -/
  | mainPoll
  /-- HOST_BYTE, port-op `0x0F` (R290). -/
  | hostByte (b : Byte)
  deriving DecidableEq, Repr

/-- A step of one of the four agents (R340), by the lines of the script notation (R137): what the environment picks when
nothing else says who moves next. -/
inductive AgentStep where
  /-- MAIN has the turn. -/
  | main
  /-- An edge interrupt, with the sampled line level. -/
  | edge (rxLow : Bool)
  /-- A timer interrupt. -/
  | tick
  /-- A host byte arrives. -/
  | hostByte (b : Byte)
  /-- A pulse request; its duration is in `[0, 65535]` (R270). -/
  | pulse (durationTicks : BitVec 16)
  /-- The core restarts. -/
  | reset
  deriving DecidableEq, Repr, Inhabited

/-- The row of the opcode table an operation belongs to. -/
inductive Opcode where
  | ping | uptime | status | readlog | sendcode | invalid
  | reset | fifoInit | fifoInsert | fifoAvail | fifoFree | fifoReadDrain | fifoRead | fifoReset
  | logAppend | logDrain | peEdge | peSend | indPulse | tmrTick | mainPoll | hostByte
  deriving DecidableEq, Repr

/-- The two formats of the table: they are separate encoding spaces (R135, R136). -/
inductive OpFormat where
  | hostCmd
  | portOp
  deriving DecidableEq, Repr

/-- The row of an operation. -/
def Instr.opcode : Instr → Opcode
  | .ping => .ping
  | .uptime => .uptime
  | .status => .status
  | .readlog => .readlog
  | .sendcode _ _ _ => .sendcode
  | .invalid _ => .invalid
  | .reset => .reset
  | .fifoInit _ => .fifoInit
  | .fifoInsert _ => .fifoInsert
  | .fifoAvail => .fifoAvail
  | .fifoFree => .fifoFree
  | .fifoReadDrain _ _ => .fifoReadDrain
  | .fifoRead _ => .fifoRead
  | .fifoReset => .fifoReset
  | .logAppend _ => .logAppend
  | .logDrain => .logDrain
  | .peEdge _ => .peEdge
  | .peSend _ _ _ => .peSend
  | .indPulse _ => .indPulse
  | .tmrTick => .tmrTick
  | .mainPoll => .mainPoll
  | .hostByte _ => .hostByte

/-- The `format` column of the opcode table. -/
def Opcode.format : Opcode → OpFormat
  | .ping | .uptime | .status | .readlog | .sendcode | .invalid => .hostCmd
  | .reset | .fifoInit | .fifoInsert | .fifoAvail | .fifoFree | .fifoReadDrain | .fifoRead | .fifoReset
  | .logAppend | .logDrain | .peEdge | .peSend | .indPulse | .tmrTick | .mainPoll | .hostByte => .portOp

/-- The format an operation is encoded in. -/
def Instr.format (i : Instr) : OpFormat := i.opcode.format

/-- Why a sequence of bytes is not an operation. -/
inductive DecodeError where
  /-- The bytes end inside the operation. -/
  | truncated
  /-- A port-op selector `0x10` to `0x1F`: "none: a model refuses them" (R135). -/
  | reservedSelector (b : Byte)
  /-- A byte whose bits 7:5 are not 0, so that it holds no 5-bit selector. -/
  | notPortWord (b : Byte)
  /-- A `maxBytes` operand that is neither a number nor `INF` (operand encoding: log entry 8). -/
  | badLimitFlag (b : Byte)
  /-- An `rxLow` operand that is not one bit (operand encoding: log entry 8). -/
  | badLevel (b : Byte)
  deriving DecidableEq, Repr

end Sys2Proof
end

