-- ==== Sys2Proof/Config.lean ====
section
/-! DEFINITION. The implementation parameters of spec/00_scope.md R9, and the two free values the spec leaves open.
The parameters are the model's ARGUMENTS: a value of `Config` rides in `State.cfg`, no operation changes it (R65), and
every statement that is made for all states is made for all parameter values. -/

namespace Sys2Proof

/-- `CMD_HIGH_POLICY` (R9, R113, D16): what SendCode does with a command byte of 16 or more. -/
inductive CmdHighPolicy where
  | reject
  | truncate
  deriving DecidableEq, Repr

/-- The parameters of R9 that have no single value in the spec. The other rows of R9 (`SYNC`, the two tables,
`IND_PHASE` and the widths) have one value and are definitions of the machine. -/
structure Config where
  /-- `N`, `LOG_CAPACITY`: FIFO storage size in bytes. -/
  capacity : Nat
  /-- `RX_QUIET_EDGES`. -/
  rxQuietEdges : Nat
  /-- `TX_GAP_SLOTS`. -/
  txGapSlots : Nat
  /-- `CMD_HIGH_POLICY`. -/
  cmdHighPolicy : CmdHighPolicy
  /-- `BUS_ADDRESS`: no rule reads it (R9, D36). -/
  busAddress : Nat
  /-- `SETTLE_DELAY`: no rule reads it (R393). -/
  settleDelay : Nat
  /-- `TX_BURST_WIDTH`: no rule reads it (R393). -/
  txBurstWidth : Nat
  /-- `IND_PULSE_WIDTH`: no rule reads it (R393). -/
  indPulseWidth : Nat
  /-- `TIMER_PERIOD`: no rule reads it (R393). -/
  timerPeriod : Nat
  /-- `EDGE_PERIOD`: no rule reads it (R393). -/
  edgePeriod : Nat
  deriving DecidableEq, Repr

/-- The configuration `State.reset` carries. DESIGN CHOICE (log entry 1): `N = 512` is the document's example,
`RX_QUIET_EDGES` and `TX_GAP_SLOTS` are R9's defaults, and the OPEN rows get a value only because a plain `State`
needs one. -/
def Config.default : Config :=
  { capacity := 512, rxQuietEdges := 6, txGapSlots := 6, cmdHighPolicy := .reject, busAddress := 0,
    settleDelay := 0, txBurstWidth := 0, indPulseWidth := 0, timerPeriod := 0, edgePeriod := 0 }

/-- The contents of FIFO storage that nothing has written (R33, R370, D40: "any value per byte"). A FREE VALUE: the
first argument counts the RESET steps so far, the second is the byte index; it has no body, so nothing can be proved of
its values (log entry 3). -/
opaque Config.freeStoreByte : Nat → Nat → BitVec 8

/-- Which agent takes the next step, when the script says nothing of it (R340, R342: no fairness and no rate). A FREE
VALUE: the argument counts the choices made so far; it has no body, so a run may take any endless sequence of agent steps
(log entry 2). -/
opaque Config.freeAgentStep : Nat → AgentStep

end Sys2Proof
end

