-- ==== Sys2Proof/Machine/State.lean ====
section
/-! DEFINITION. The state of the X10Master core as plain data, one field per element of spec/10_state.md, grouped by the
sub-block that owns it, and its value after reset. Fields marked MODEL are the model's own and are no hardware state. -/

namespace Sys2Proof.Machine

/-- FIFO storage as (index, byte) pairs: indices strictly rising, a byte that nothing has written is not listed. -/
abbrev Memory := List Host.Cell

/-- The 15 values of `phase` (R56): which step MAIN takes next. -/
inductive Phase where
  | poll | ping | uptime | status | invalid
  | rlEmit | rlAdvance
  | scArg1 | scArg2 | scArg3 | scLog | scWaitIdle | scStart | scWaitDone
  | haltedByFault
  deriving DecidableEq, Repr

/-- The two model faults of R333; they are members of the sticky set `faults` (R60). -/
inductive CoreFault where
  /-- Raised by RL_ADVANCE when an overflow recovery reset the FIFO inside an open drain chunk (R198). -/
  | resetDuringRead
  /-- Raised by FIFO_READ_DRAIN when a consumer reports more than the run it was offered (R164). -/
  | drainOverconsume
  deriving DecidableEq, Repr

/-- MODEL. What a port operation returned to its caller (the `return` of R161 to R165, R190 and the result of R244). -/
inductive PortResult where
  | nothing
  | count (n : Nat)
  | bytes (bs : List Byte)
  | drained (total : Nat) (runs : List (List Byte))
  | code (c : Byte)
  deriving DecidableEq, Repr

/-- The FIFO (R33 to R37). -/
structure Fifo where
  /-- `store[0..N-1]` (R33). -/
  store : Memory
  /-- MODEL. Counts the RESET steps: it names which unspecified storage contents the free value stands for. -/
  epoch : Nat
  /-- `head` (R34). -/
  head : BitVec 16
  /-- `tail` (R35). -/
  tail : BitVec 16
  /-- `readOpen` (R37). -/
  readOpen : Bool
  /-- `spoiled` (R37). -/
  spoiled : Bool
  deriving DecidableEq, Repr

/-- The protocol engine (R43 to R50). -/
structure Engine where
  /-- `pending` (R43). -/
  pending : Bool
  /-- `txSlot` (R44). -/
  txSlot : BitVec 8
  /-- `houseReg` (R45). -/
  houseReg : BitVec 4
  /-- `unitReg` (R45). -/
  unitReg : BitVec 4
  /-- `cmdReg` (R45). -/
  cmdReg : BitVec 4
  /-- `bitCount` (R46). -/
  bitCount : BitVec 4
  /-- `edgeCount` (R47). -/
  edgeCount : BitVec 8
  /-- `acc` (R48). -/
  acc : BitVec 16
  /-- `mask` (R49). -/
  mask : BitVec 16
  /-- `rxQuiet` (R50). -/
  rxQuiet : BitVec 8
  deriving DecidableEq, Repr

/-- The status indicator and the uptime counter (R53 to R55). -/
structure Indicator where
  /-- `remaining` (R53). -/
  remaining : BitVec 16
  /-- `uptime` (R54). -/
  uptime : BitVec 32
  /-- `indOut` (R55). -/
  indOut : Bool
  deriving DecidableEq, Repr

/-- The main-domain sequencer (R56, R57). -/
structure Sequencer where
  /-- `phase` (R56). -/
  phase : Phase
  /-- `cmdByte` (R57). -/
  cmdByte : Byte
  /-- `argCmd` (R57). -/
  argCmd : Byte
  /-- `argHouse` (R57). -/
  argHouse : Byte
  /-- `argUnit` (R57). -/
  argUnit : Byte
  /-- `chunkLen` (R57). -/
  chunkLen : BitVec 8
  deriving DecidableEq, Repr

/-- The interfaces held as state (R58, R59). -/
structure Ports where
  /-- `rxq` (R58): the host bytes not yet received, oldest first. -/
  rxq : List Byte
  /-- `txq` (R58): the bytes transmitted to the host, oldest first. -/
  txq : List Byte
  /-- `lineTrace` (R59): the transmitted slots, oldest first; true is a carrier burst. -/
  lineTrace : List Bool
  /-- `indTrace` (R59): the uptime values at which a pulse was produced, oldest first. -/
  indTrace : List (BitVec 32)
  deriving DecidableEq, Repr

/-- MODEL. What the environment still has to do and what a port operation last returned (log entries 2 and 6). -/
structure Environment where
  /-- The port operations and MAIN turns still to come, as bytes: the interleaving of the four agents (R340, R341). -/
  script : List Byte
  /-- The agent steps that the free value `Config.freeAgentStep` has chosen so far. -/
  turn : Nat
  /-- The result of the last port operation that returned one. -/
  result : PortResult
  deriving DecidableEq, Repr

/-- The whole state. -/
structure State where
  /-- MODEL. The parameters of R9 and R65, which no operation changes. -/
  cfg : Config
  fifo : Fifo
  /-- `status` (R38). -/
  status : BitVec 8
  engine : Engine
  ind : Indicator
  seq : Sequencer
  ports : Ports
  /-- `faults` (R60): a set, held as a list with no repeats. -/
  faults : List CoreFault
  env : Environment
  deriving DecidableEq, Repr

/-- Why a step stops the machine. -/
inductive Fault where
  /-- Every operation answers this once `faults` is not empty: "From then on no agent has a step" (R334). Safe: the
  spec claims nothing of such a run, and the model answers nothing. -/
  | noStepAfterFault
  deriving DecidableEq, Repr

/-- Why the model does not run a request. -/
inductive Refusal where
  /-- An instruction of the opcode table with no meaning yet; raised by `exec` only. Safe. -/
  | notModelled (mnemonic : String)
  /-- The parameters are outside the ranges of R9 or R193 ("a refused configuration is not built", R333); raised by
  every operation. Safe: the spec refuses it too. -/
  | badConfiguration
  /-- FIFO_INIT with a capacity other than `N` (R160, R333). Safe: the spec refuses it too. -/
  | wrongCapacity
  /-- IND_PULSE with a duration above 65535 (R270, R333). Safe: the spec refuses it too. -/
  | pulseTooLong
  /-- The next bytes of the script are no port operation, a selector `0x10` to `0x1F` among them (R135, R333); raised
  by `step`. Safe: the spec refuses such a selector too. -/
  | badRequest (why : DecodeError)
  deriving DecidableEq, Repr

/-- R66's table: every element at its reset value, before the Startup record is appended. `store` is unspecified, so no
byte is listed. -/
def State.cleared (cfg : Config) : State :=
  { cfg := cfg
    fifo := { store := [], epoch := 0, head := 0, tail := 0, readOpen := false, spoiled := false }
    status := 0x00
    engine := { pending := false, txSlot := 0, houseReg := 0, unitReg := 0, cmdReg := 0, bitCount := 0,
                edgeCount := 0, acc := 0, mask := 0, rxQuiet := 0 }
    ind := { remaining := 0, uptime := 0, indOut := false }
    seq := { phase := .poll, cmdByte := 0, argCmd := 0, argHouse := 0, argUnit := 0, chunkLen := 0 }
    ports := { rxq := [], txq := [], lineTrace := [], indTrace := [] }
    faults := []
    env := { script := [], turn := 0, result := .nothing } }

/-- The core right after the RESET step, with given parameters: R66's values and the Startup record of R371
(`head = 1`, `store[0] = 0x01`). -/
def State.resetWith (cfg : Config) : State :=
  { State.cleared cfg with
    fifo := { store := [(0, 0x01)], epoch := 0, head := 1, tail := 0, readOpen := false, spoiled := false } }

/-- The machine right after reset (R370, R371). The parameter values are log entry 1's. -/
def State.reset : State := State.resetWith Config.default

end Sys2Proof.Machine
end

