-- ==== Sys2Proof/Machine/Ops.lean ====
section
/-! DEFINITION. The operations every family shares: FIFO storage as memory (spec/20_memory.md R80), the interface
primitives of spec/00_scope.md R12, raising a model fault (spec/60_exceptions.md R334) and the guards that say when an
agent has a step at all (R333, R334, R340). -/

namespace Sys2Proof.Machine

/-- What every meaning answers. -/
abbrev Result := Host.Outcome State Fault Refusal

/-- `N`, the storage size (R9). -/
abbrev State.size (s : State) : Nat := s.cfg.capacity

/-! ### Memory -/

/-- The canonical form: indices strictly rising. A byte that nothing has written reads as no value and is not listed,
so equal memories are equal lists. -/
abbrev Memory.wf (m : Memory) : Prop := m.Pairwise fun a b => a.1 < b.1

/-- `MemRead(i, 1)`, with no value for a byte that nothing has written. -/
def Memory.read? (m : Memory) (i : Nat) : Option Byte := (m.find? fun c => c.1 == i).map Prod.snd

/-- `MemWrite(i, 1, v)`: the canonical form is kept. -/
def Memory.write : Memory → Nat → Byte → Memory
  | [], i, v => [(i, v)]
  | c :: m, i, v =>
    if i < c.1 then (i, v) :: c :: m
    else if i = c.1 then (i, v) :: m
    else c :: Memory.write m i v

/-! ### Guards -/

/-- The parameter ranges of R9, with its bound on `N` for the FIFO alone. A configuration outside them is refused (R333). -/
def Config.fifoOk (c : Config) : Bool :=
  decide (2 ≤ c.capacity ∧ c.capacity ≤ 65535 ∧ c.rxQuietEdges ≤ c.txGapSlots ∧ 1 ≤ c.txGapSlots ∧ c.txGapSlots ≤ 200)

/-- The parameter ranges of the whole core: R9, and `N >= 5` for the LOG (R193). -/
def Config.ok (c : Config) : Bool := decide (5 ≤ c.capacity) && Config.fifoOk c

/-- An agent's step: none once a fault has been raised (R334), none in a configuration that is refused (R333). That the
model answers a fault and a refusal there is log entry 13. -/
def guarded (ok : Bool) (s : State) (r : Result) : Result :=
  if s.faults ≠ [] then .fault .noStepAfterFault else if ok then r else .refused .badConfiguration

/-- A step of an agent of the core. -/
def coreStep (s : State) (r : Result) : Result := guarded (Config.ok s.cfg) s r

/-- A FIFO operation that stands alone: "The FIFO alone admits `N >= 2`" (R193; log entry 7). -/
def fifoStep (s : State) (r : Result) : Result := guarded (Config.fifoOk s.cfg) s r

/-- A step of MAIN. Where it is not enabled MAIN holds, and the state is unchanged (R12 `hold until c`; log entry 4). -/
def mainStep (s : State) (enabled : Bool) (t : State) : Result := coreStep s (.next (if enabled then t else s))

/-! ### Faults -/

/-- Add a member to the fault set. -/
def addFault (f : CoreFault) (fs : List CoreFault) : List CoreFault := if f ∈ fs then fs else fs ++ [f]

/-- `raise Fault(name)` (R334): the fault is recorded and MAIN is halted; the caller writes nothing more,
and what it wrote earlier in the step stays (log entry 13). The core has
no trap, no saved register and no return (R330, R344, R345). -/
def raiseFault (f : CoreFault) (s : State) : State :=
  { s with faults := addFault f s.faults, seq := { s.seq with phase := .haltedByFault } }

/-! ### Interface primitives -/

/-- `Transmit(b)` for each byte in order (R12). -/
def transmit (bs : List Byte) (s : State) : State := { s with ports := { s.ports with txq := s.ports.txq ++ bs } }

/-- `Emit(b)` (R12). -/
def emitSlot (b : Bool) (s : State) : State :=
  { s with ports := { s.ports with lineTrace := s.ports.lineTrace ++ [b] } }

/-- `Pulse()` (R12, R271): the present `uptime` is appended to `indTrace`. -/
def pulse (s : State) : State :=
  { s with ports := { s.ports with indTrace := s.ports.indTrace ++ [s.ind.uptime] } }

/-- A byte has arrived from the host: append it to `rxq` (R290). -/
def arrive (b : Byte) (s : State) : State := { s with ports := { s.ports with rxq := s.ports.rxq ++ [b] } }

/-- `hasPendingData()`: `rxq` is not empty (R58). -/
def hasPendingData (s : State) : Bool := !s.ports.rxq.isEmpty

/-- `Receive()` (R12): the head of `rxq` goes to `k`. With `rxq` empty it is not enabled, and nothing changes. -/
def receive (k : Byte → State → State) (s : State) : State :=
  match s.ports.rxq with
  | b :: rest => k b { s with ports := { s.ports with rxq := rest } }
  | [] => s

/-- `phase <- p`. -/
def setPhase (p : Phase) (s : State) : State := { s with seq := { s.seq with phase := p } }

/-- The value a port operation returns to its caller (log entry 6). -/
def giveResult (r : PortResult) (s : State) : State := { s with env := { s.env with result := r } }

/-- Replace the FIFO. -/
def setFifo (f : Fifo) (s : State) : State := { s with fifo := f }

/-- Replace the protocol engine's registers. -/
def setEngine (e : Engine) (s : State) : State := { s with engine := e }

end Sys2Proof.Machine
end

