-- ==== Sys2Proof/Machine/Flags.lean ====
section
/-! DEFINITION. The flags of spec/10_state.md R63: the bits of `status` (R38 to R41) and the engine-state predicates over
`pending` and `bitCount` (R52). The core has no arithmetic flag (R20). -/

namespace Sys2Proof.Machine

/-- `status[0]`, `LOG_OVERFLOW` (R38). -/
def logOverflow (s : State) : Bool := s.status.getLsbD 0

/-- `status[1]`, `X10_ERROR`: no operation writes it (R40). -/
def x10Error (s : State) : Bool := s.status.getLsbD 1

/-- `status[0] <- 1` (R191). The other bits are not written. -/
def setLogOverflow (s : State) : State := { s with status := s.status ||| 0x01 }

/-- `status[0] <- 0` (R197). The other bits are not written. -/
def clearLogOverflow (s : State) : State := { s with status := s.status &&& 0xFE }

/-- `Sending` (R52). -/
def Engine.sending (e : Engine) : Bool := e.pending

/-- `Receiving` (R52): `pending = 0` and `bitCount` in `[1, 13]`. -/
def Engine.receiving (e : Engine) : Bool := !e.pending && decide (1 ≤ e.bitCount.toNat ∧ e.bitCount.toNat ≤ 13)

/-- `Idle` (R52, D18): `pending = 0` and `bitCount = 0`, the quiet window included. -/
def Engine.idle (e : Engine) : Bool := !e.pending && e.bitCount == 0

end Sys2Proof.Machine
end

