-- ==== Sys2Proof/WellFormed.lean ====
section
/-! DEFINITION. Which operations have an encoding: an INVALID byte is none of the five commands (spec/30_encoding.md
R111, R115), and each numeric or list operand fits its field (the operand fields of port operations: log entry 8). -/

namespace Sys2Proof

/-- A number fits a 32-bit operand field. -/
def fitsWord (n : Nat) : Bool := decide (n < 2 ^ 32)

/-- A number fits a 16-bit operand field. -/
def fitsHalf (n : Nat) : Bool := decide (n < 2 ^ 16)

/-- A `maxBytes` operand fits its field; `INF` always does. -/
def Limit.wf : Limit → Bool
  | .upTo n => fitsWord n
  | .inf => true

/-- The five bytes of R111's exact rows. -/
def isCommandByte (b : Byte) : Bool := b == 0x01 || b == 0x02 || b == 0x03 || b == 0x04 || b == 0x05

/-- An operation every part of which its encoding can hold. -/
def Instr.wf : Instr → Bool
  | .ping => true
  | .uptime => true
  | .status => true
  | .readlog => true
  | .sendcode _ _ _ => true
  | .invalid b => !isCommandByte b
  | .reset => true
  | .fifoInit capacity => fitsWord capacity
  | .fifoInsert data => fitsHalf data.length
  | .fifoAvail => true
  | .fifoFree => true
  | .fifoReadDrain maxBytes counts => maxBytes.wf && fitsHalf counts.length && counts.all fitsHalf
  | .fifoRead maxBytes => maxBytes.wf
  | .fifoReset => true
  | .logAppend eventBytes => fitsHalf eventBytes.length
  | .logDrain => true
  | .peEdge _ => true
  | .peSend _ _ _ => true
  | .indPulse durationTicks => fitsWord durationTicks
  | .tmrTick => true
  | .mainPoll => true
  | .hostByte _ => true

end Sys2Proof
end

