-- ==== Sys2Proof/Decode.lean ====
section
/-! DEFINITION. The decoder and the encoder of the two formats of spec/opcode_table.json. A host command is decoded from
the bytes of `rxq` (spec/30_encoding.md R110 to R112, R136). A port operation is decoded from a 5-bit selector (R135)
and the operand bytes this model gives it (DESIGN CHOICE, log entry 8: the spec gives port operations no operand
encoding). Both are total: what is no operation is rejected by a named `DecodeError`. -/

namespace Sys2Proof

/-- A row of the opcode table: a byte belongs to it when its masked bits are the pattern. -/
structure OpRow where
  mask : Byte
  pattern : Byte
  op : Opcode
  deriving DecidableEq, Repr

/-- The `host-cmd` rows in order of priority: the five exact rows first, INVALID last (R111, R136). -/
def hostRows : List OpRow :=
  [⟨0xFF, 0x01, .ping⟩, ⟨0xFF, 0x02, .uptime⟩, ⟨0xFF, 0x03, .status⟩, ⟨0xFF, 0x04, .readlog⟩, ⟨0xFF, 0x05, .sendcode⟩,
   ⟨0x00, 0x00, .invalid⟩]

/-- The `port-op` rows (R135). -/
def portRows : List OpRow :=
  [⟨0x1F, 0x00, .reset⟩, ⟨0x1F, 0x01, .fifoInit⟩, ⟨0x1F, 0x02, .fifoInsert⟩, ⟨0x1F, 0x03, .fifoAvail⟩,
   ⟨0x1F, 0x04, .fifoFree⟩, ⟨0x1F, 0x05, .fifoReadDrain⟩, ⟨0x1F, 0x06, .fifoRead⟩, ⟨0x1F, 0x07, .fifoReset⟩] ++
  [⟨0x1F, 0x08, .logAppend⟩, ⟨0x1F, 0x09, .logDrain⟩, ⟨0x1F, 0x0A, .peEdge⟩, ⟨0x1F, 0x0B, .peSend⟩,
   ⟨0x1F, 0x0C, .indPulse⟩, ⟨0x1F, 0x0D, .tmrTick⟩, ⟨0x1F, 0x0E, .mainPoll⟩, ⟨0x1F, 0x0F, .hostByte⟩]

/-- A byte belongs to a row. -/
def OpRow.hits (r : OpRow) (b : Byte) : Bool := (b &&& r.mask) == r.pattern

/-- The first row a byte belongs to. -/
def findRow (rows : List OpRow) (b : Byte) : Option Opcode := (rows.find? fun r => r.hits b).map OpRow.op

/-- The command a host byte selects. INVALID's row takes every byte the exact rows leave (R136). -/
def hostOpcode (b : Byte) : Opcode := (findRow hostRows b).getD .invalid

/-- The operation a port word selects: bits 4:0 are the selector and bits 7:5 must be 0. -/
def portOpcode (b : Byte) : Except DecodeError Opcode :=
  if b.toNat < 0x20 then
    match findRow portRows b with
    | some op => .ok op
    | none => .error (.reservedSelector b)
  else .error (.notPortWord b)

/-! ### Operand readers: each takes its operand off the front of the bytes -/

/-- What a reader answers: the operand and the bytes after it. -/
abbrev Parsed (α : Type) := Except DecodeError (α × List Byte)

/-- Go on with the bytes after an operand, or pass its rejection on. -/
def Parsed.andThen {α β : Type} (p : Parsed α) (k : α → List Byte → Parsed β) : Parsed β :=
  match p with
  | .ok (a, rest) => k a rest
  | .error e => .error e

/-- One byte. -/
def takeByte : List Byte → Parsed Byte
  | b :: rest => .ok (b, rest)
  | [] => .error .truncated

/-- A 16-bit number, low byte first. -/
def takeHalf (bs : List Byte) : Parsed Nat :=
  (takeByte bs).andThen fun lo rest =>
  (takeByte rest).andThen fun hi rest => .ok (lo.toNat + 256 * hi.toNat, rest)

/-- A 32-bit number, low byte first. -/
def takeWord (bs : List Byte) : Parsed Nat :=
  (takeHalf bs).andThen fun lo rest =>
  (takeHalf rest).andThen fun hi rest => .ok (lo + 65536 * hi, rest)

/-- `n` bytes. -/
def takeBytes : Nat → List Byte → Parsed (List Byte)
  | 0, bs => .ok ([], bs)
  | n + 1, bs =>
    (takeByte bs).andThen fun b rest =>
    (takeBytes n rest).andThen fun tail rest => .ok (b :: tail, rest)

/-- `n` 16-bit numbers. -/
def takeHalves : Nat → List Byte → Parsed (List Nat)
  | 0, bs => .ok ([], bs)
  | n + 1, bs =>
    (takeHalf bs).andThen fun c rest =>
    (takeHalves n rest).andThen fun tail rest => .ok (c :: tail, rest)

/-- A byte sequence: its length in 16 bits, then its bytes. -/
def takeBlock (bs : List Byte) : Parsed (List Byte) := (takeHalf bs).andThen takeBytes

/-- A `maxBytes` operand: flag 0 and a 32-bit number, or flag 1 for `INF`. -/
def takeLimit (bs : List Byte) : Parsed Limit :=
  (takeByte bs).andThen fun flag rest =>
  if flag = 0 then (takeWord rest).andThen fun n rest => .ok (.upTo n, rest)
  else if flag = 1 then .ok (.inf, rest)
  else .error (.badLimitFlag flag)

/-- A line level: one byte, 0 or 1. -/
def takeLevel (bs : List Byte) : Parsed Bool :=
  (takeByte bs).andThen fun b rest =>
  if b = 0 then .ok (false, rest) else if b = 1 then .ok (true, rest) else .error (.badLevel b)

/-- Three parameter bytes: command, house, unit (R112). -/
def takeArgs (mk : Byte → Byte → Byte → Instr) (bs : List Byte) : Parsed Instr :=
  (takeByte bs).andThen fun c rest =>
  (takeByte rest).andThen fun h rest =>
  (takeByte rest).andThen fun u rest => .ok (mk c h u, rest)

/-- The operands of the operation whose first byte is `lead`. -/
def decodeOperands (op : Opcode) (lead : Byte) (bs : List Byte) : Parsed Instr :=
  match op with
  | .ping => .ok (.ping, bs)
  | .uptime => .ok (.uptime, bs)
  | .status => .ok (.status, bs)
  | .readlog => .ok (.readlog, bs)
  | .sendcode => takeArgs .sendcode bs
  | .invalid => .ok (.invalid lead, bs)
  | .reset => .ok (.reset, bs)
  | .fifoInit => (takeWord bs).andThen fun n rest => .ok (.fifoInit n, rest)
  | .fifoInsert => (takeBlock bs).andThen fun d rest => .ok (.fifoInsert d, rest)
  | .fifoAvail => .ok (.fifoAvail, bs)
  | .fifoFree => .ok (.fifoFree, bs)
  | .fifoReadDrain =>
    (takeLimit bs).andThen fun m rest =>
    (takeHalf rest).andThen fun n rest =>
    (takeHalves n rest).andThen fun cs rest => .ok (.fifoReadDrain m cs, rest)
  | .fifoRead => (takeLimit bs).andThen fun m rest => .ok (.fifoRead m, rest)
  | .fifoReset => .ok (.fifoReset, bs)
  | .logAppend => (takeBlock bs).andThen fun d rest => .ok (.logAppend d, rest)
  | .logDrain => .ok (.logDrain, bs)
  | .peEdge => (takeLevel bs).andThen fun l rest => .ok (.peEdge l, rest)
  | .peSend => takeArgs .peSend bs
  | .indPulse => (takeWord bs).andThen fun d rest => .ok (.indPulse d, rest)
  | .tmrTick => .ok (.tmrTick, bs)
  | .mainPoll => .ok (.mainPoll, bs)
  | .hostByte => (takeByte bs).andThen fun b rest => .ok (.hostByte b, rest)

/-- A host command off the front of the bytes: its first byte fixes its length (R110). -/
def decodeHost : List Byte → Parsed Instr
  | lead :: rest => decodeOperands (hostOpcode lead) lead rest
  | [] => .error .truncated

/-- A port operation off the front of the bytes. -/
def decodePort : List Byte → Parsed Instr
  | lead :: rest =>
    match portOpcode lead with
    | .ok op => decodeOperands op lead rest
    | .error e => .error e
  | [] => .error .truncated

/-- Decode in a given format. -/
def decode (f : OpFormat) (bs : List Byte) : Parsed Instr :=
  match f with
  | .hostCmd => decodeHost bs
  | .portOp => decodePort bs

/-! ### The encoder, written from the same tables -/

/-- The first byte of each row (R111, R135); an INVALID command's byte is its operand. -/
def Instr.lead : Instr → Byte
  | .ping => 0x01
  | .uptime => 0x02
  | .status => 0x03
  | .readlog => 0x04
  | .sendcode _ _ _ => 0x05
  | .invalid b => b
  | .reset => 0x00
  | .fifoInit _ => 0x01
  | .fifoInsert _ => 0x02
  | .fifoAvail => 0x03
  | .fifoFree => 0x04
  | .fifoReadDrain _ _ => 0x05
  | .fifoRead _ => 0x06
  | .fifoReset => 0x07
  | .logAppend _ => 0x08
  | .logDrain => 0x09
  | .peEdge _ => 0x0A
  | .peSend _ _ _ => 0x0B
  | .indPulse _ => 0x0C
  | .tmrTick => 0x0D
  | .mainPoll => 0x0E
  | .hostByte _ => 0x0F

/-- A 16-bit number, low byte first. -/
def putHalf (n : Nat) : List Byte := [BitVec.ofNat 8 n, BitVec.ofNat 8 (n / 256)]

/-- A 32-bit number, low byte first. -/
def putWord (n : Nat) : List Byte := putHalf n ++ putHalf (n / 65536)

/-- A byte sequence behind its length. -/
def putBlock (bs : List Byte) : List Byte := putHalf bs.length ++ bs

/-- A `maxBytes` operand. -/
def putLimit : Limit → List Byte
  | .upTo n => 0 :: putWord n
  | .inf => [1]

/-- The operand bytes of an operation. -/
def Instr.operandBytes : Instr → List Byte
  | .ping => []
  | .uptime => []
  | .status => []
  | .readlog => []
  | .sendcode c h u => [c, h, u]
  | .invalid _ => []
  | .reset => []
  | .fifoInit n => putWord n
  | .fifoInsert d => putBlock d
  | .fifoAvail => []
  | .fifoFree => []
  | .fifoReadDrain m cs => putLimit m ++ (putHalf cs.length ++ cs.flatMap putHalf)
  | .fifoRead m => putLimit m
  | .fifoReset => []
  | .logAppend d => putBlock d
  | .logDrain => []
  | .peEdge l => [if l then 1 else 0]
  | .peSend c h u => [c, h, u]
  | .indPulse d => putWord d
  | .tmrTick => []
  | .mainPoll => []
  | .hostByte b => [b]

/-- The bytes of an operation in its own format. -/
def encode (i : Instr) : List Byte := i.lead :: i.operandBytes

/-! ### The host's view of the opcode table -/

/-- The bytes of a table word, bit 0 the least significant bit of the first byte, and zero operand bytes after them
(nine: the longest operand block of zeros). -/
def tableBytes (nbits w : Nat) : List Byte :=
  ((List.range (max 1 ((nbits + 7) / 8))).map fun k => BitVec.ofNat 8 (w / 256 ^ k)) ++ List.replicate 9 0

/-- The operation a decoder's answer holds. -/
def Parsed.instr? (p : Parsed Instr) : Option Instr :=
  match p with
  | .ok (i, _) => some i
  | .error _ => none

/-- The operation of a table word. The table's two formats share their 8-bit words and a word does not say its format
(log entry 10), so the rows are taken in the order of their masks: the exact host commands (mask `0xFF`), then the port
operations (mask `0x1F`), then INVALID (mask `0x00`, lowest priority, R136). A word of fewer than 8 bits is a selector. -/
def decodeTableWord (nbits w : Nat) : Option Instr :=
  let bs := tableBytes nbits w
  let lead := BitVec.ofNat 8 w
  if nbits < 8 then (decodePort bs).instr?
  else if isCommandByte lead then (decodeHost bs).instr?
  else
    match (decodePort bs).instr? with
    | some i => some i
    | none => (decodeHost bs).instr?

end Sys2Proof
end

