-- ==== Sys2Proof/Machine/Operands.lean ====
section
/-! DEFINITION. Operand assembly: the two lookup tables and their reverse lookups (spec/30_encoding.md R131 to R133), the
power-line frame (R125 to R130), the received fields (R127), the Uptime reply's byte order (R114) and the phase a command
byte selects (spec/44_commands.md R295). -/

namespace Sys2Proof.Machine

/-! ### Lookup tables -/

/-- `HOUSE_TABLE` (R131): `M E C K O G A I N F D L P H B J` by index. -/
def houseTable : Vector Byte 16 :=
  #v[0x4D, 0x45, 0x43, 0x4B, 0x4F, 0x47, 0x41, 0x49, 0x4E, 0x46, 0x44, 0x4C, 0x50, 0x48, 0x42, 0x4A]

/-- `UNIT_TABLE` (R132). -/
def unitTable : Vector Byte 16 := #v[13, 5, 3, 11, 15, 7, 1, 9, 14, 6, 4, 12, 16, 8, 2, 10]

/-- `HOUSE_TABLE[h]`. -/
def houseLetter (h : BitVec 4) : Byte := houseTable[h.toNat]'(h.isLt)

/-- `UNIT_TABLE[u]`. -/
def unitNumber (u : BitVec 4) : Byte := unitTable[u.toNat]'(u.isLt)

/-- The index at which a table of 16 bytes holds `x`, if one exists (R133). -/
def reverseLookup (table : BitVec 4 → Byte) (x : Byte) : Option (BitVec 4) :=
  ((List.range 16).map (BitVec.ofNat 4)).find? fun i => table i == x

/-- `HouseIndex(x)` (R133). -/
def houseIndex (x : Byte) : Option (BitVec 4) := reverseLookup houseLetter x

/-- `UnitIndex(x)` (R133). -/
def unitIndex (x : Byte) : Option (BitVec 4) := reverseLookup unitNumber x

/-- A command code is accepted: always up to 15, above that by `CMD_HIGH_POLICY` (R113). -/
def commandAccepted (cfg : Config) (c : Byte) : Bool :=
  decide (c.toNat ≤ 15) || cfg.cmdHighPolicy == .truncate

/-- The frame fields of an accepted send: house index, unit index, `argCmd[3:0]`; none when it fails (R113, R245). -/
def sendFields (cfg : Config) (c h u : Byte) : Option (BitVec 4 × BitVec 4 × BitVec 4) :=
  match houseIndex h, unitIndex u with
  | some hi, some ui => if commandAccepted cfg c then some (hi, ui, c.extractLsb' 0 4) else none
  | _, _ => none

/-! ### The power-line frame -/

/-- `SYNC = 1110`, first bit sent first (R128). -/
def syncSlots : List Bool := [true, true, true, false]

/-- The four bits of a field, most significant first (R85). -/
def fieldBits (v : BitVec 4) : List Bool := [v.getLsbD 3, v.getLsbD 2, v.getLsbD 1, v.getLsbD 0]

/-- `FrameSlots(h, k, f)` (R126): the sync bits, then each data bit and its complement. -/
def frameSlots (h k : BitVec 4) (f : Bool) : List Bool :=
  syncSlots ++ (fieldBits h ++ fieldBits k ++ [f]).flatMap fun b => [b, !b]

/-- `TX_LEN = 44 + TX_GAP_SLOTS` (R130). -/
def txLen (cfg : Config) : Nat := 44 + cfg.txGapSlots

/-- The slots of one send (R130): the unit frame, the gap, the command frame. -/
def txSlots (cfg : Config) (h u c : BitVec 4) : List Bool :=
  frameSlots h u false ++ List.replicate cfg.txGapSlots false ++ frameSlots h c true

/-- `TxBit(i)` (R130). Past the last slot, which no reachable state asks for, it is 0 (log entry 11). -/
def txBit (cfg : Config) (e : Engine) (i : Nat) : Bool :=
  (txSlots cfg e.houseReg e.unitReg e.cmdReg).getD i false

/-- The accumulator at a start: `SYNC` in bits 12:9 (R128, R224). -/
def startAcc : BitVec 16 := 0x1C00

/-- The insertion position at a start: S2 at bit 11 (R224). -/
def startMask : BitVec 16 := 0x0800

/-- The received house index, `acc[8:5]` (R127). -/
def accHouse (acc : BitVec 16) : BitVec 4 := acc.extractLsb' 5 4

/-- The received key, `acc[4:1]` (R127). -/
def accKey (acc : BitVec 16) : BitVec 4 := acc.extractLsb' 1 4

/-- The received flag, `acc[0]` (R127): set for a command frame (R129). -/
def accFlag (acc : BitVec 16) : Bool := acc.getLsbD 0

/-! ### Event records and replies -/

/-- The STARTUP record (R116, R371). -/
def startupRecord : List Byte := [0x01]

/-- The INVALID_COMMAND record (R116). -/
def invalidRecord (b : Byte) : List Byte := [0x02, b]

/-- The PING record (R116). -/
def pingRecord : List Byte := [0x03]

/-- The UPTIME record (R116). -/
def uptimeRecord : List Byte := [0x04]

/-- The X10_RECV record (R116, R118). -/
def recvRecord (c h u : BitVec 4) : List Byte := [0x05, c.setWidth 8, houseLetter h, unitNumber u]

/-- The X10_SEND record (R116, R119): the parameter bytes as received. -/
def sendRecord (c h u : Byte) : List Byte := [0x06, c, h, u]

/-- The Ping reply `P,O,N,G` (R114). -/
def pongBytes : List Byte := [0x50, 0x4F, 0x4E, 0x47]

/-- The Uptime reply: four bytes, least significant first (R84, R114). -/
def uptimeBytes (v : BitVec 32) : List Byte :=
  [v.extractLsb' 0 8, v.extractLsb' 8 8, v.extractLsb' 16 8, v.extractLsb' 24 8]

/-! ### Dispatch -/

/-- The phase in which MAIN performs the first step of an operation; none for the operations of the other agents
(R291, R292, R195, R244). -/
def firstPhase : Opcode → Option Phase
  | .ping => some .ping
  | .uptime => some .uptime
  | .status => some .status
  | .readlog => some .rlEmit
  | .sendcode => some .scArg1
  | .invalid => some .invalid
  | .mainPoll => some .poll
  | .logDrain => some .rlEmit
  | .peSend => some .scWaitIdle
  | .reset | .fifoInit | .fifoInsert | .fifoAvail | .fifoFree | .fifoReadDrain | .fifoRead | .fifoReset
  | .logAppend | .peEdge | .indPulse | .tmrTick | .hostByte => none

/-- `Decode(b)` (R295): the phase a command byte selects, by the table the decoder uses. -/
def commandPhase (b : Byte) : Phase := (firstPhase (hostOpcode b)).getD .invalid

end Sys2Proof.Machine
end

