-- ==== Sys2Proof/Machine/Fifo.lean ====
section
/-! DEFINITION. The FIFO's operations (spec/40_fifo.md R160 to R168) and the meanings of the FIFO rows of the opcode table.
`n` is the storage size `N` throughout. -/

namespace Sys2Proof.Machine

/-- `(i + k) mod N`, in an index register (R20, R34). -/
def indexAdd (n : Nat) (i : BitVec 16) (k : Nat) : BitVec 16 := BitVec.ofNat 16 ((i.toNat + k) % n)

/-- `count() = (head - tail) mod N` (R36). -/
def Fifo.count (n : Nat) (f : Fifo) : Nat := (f.head.toNat + (n - f.tail.toNat % n)) % n

/-- `freeTotal() = N - 1 - count()` (R36). -/
def Fifo.freeTotal (n : Nat) (f : Fifo) : Nat := n - 1 - f.count n

/-- `store[i]`: a byte that nothing has written since RESET holds any value (R33). -/
def Fifo.byteAt (f : Fifo) (i : Nat) : Byte := (f.store.read? i).getD (Config.freeStoreByte f.epoch i)

/-- The `len` bytes from index `tail` on, wrapping at `N`. -/
def Fifo.run (n : Nat) (f : Fifo) (len : Nat) : List Byte :=
  (List.range len).map fun j => f.byteAt ((f.tail.toNat + j) % n)

/-- The buffered bytes in FIFO order (R36). -/
def Fifo.contents (n : Nat) (f : Fifo) : List Byte := f.run n (f.count n)

/-- `store[(i + k) mod N] <- data[k]` for each `k` (R161). -/
def writeRun (n : Nat) : Memory → Nat → List Byte → Memory
  | m, _, [] => m
  | m, i, b :: bs => writeRun n (m.write (i % n) b) (i + 1) bs

/-- How many bytes of a sequence FIFO_INSERT writes: `w = min(len, freeTotal())` (R161). -/
def Fifo.writtenCount (n : Nat) (data : List Byte) (f : Fifo) : Nat := min data.length (f.freeTotal n)

/-- FIFO_INSERT (R161). -/
def Fifo.insert (n : Nat) (data : List Byte) (f : Fifo) : Fifo :=
  let w := f.writtenCount n data
  { f with store := writeRun n f.store f.head.toNat (data.take w), head := indexAdd n f.head w }

/-- FIFO_AVAIL (R162): the count contiguous to the physical end. -/
def Fifo.avail (n : Nat) (f : Fifo) : Nat :=
  if f.tail.toNat ≤ f.head.toNat then f.head.toNat - f.tail.toNat else n - f.tail.toNat

/-- FIFO_FREE (R163): the free space contiguous to the physical end. -/
def Fifo.free (n : Nat) (f : Fifo) : Nat :=
  if f.tail.toNat ≤ f.head.toNat then
    if f.tail = 0 then n - 1 - f.head.toNat else n - f.head.toNat
  else f.tail.toNat - f.head.toNat - 1

/-- `tail <- (tail + c) mod N` (R164, R198). -/
def Fifo.advance (n : Nat) (c : Nat) (f : Fifo) : Fifo := { f with tail := indexAdd n f.tail c }

/-- FIFO_INIT for the configured capacity (R160). -/
def Fifo.init (f : Fifo) : Fifo := { f with head := 0, tail := 0 }

/-- FIFO_RESET (R166). -/
def Fifo.clear (f : Fifo) : Fifo := { f with head := 0, tail := 0, spoiled := f.spoiled || f.readOpen }

/-! ### The drain loop -/

/-- `maxBytes - total`, as a cap on a run; `INF` caps nothing (R164). -/
def Limit.cap (m : Limit) (total run : Nat) : Nat :=
  match m with
  | .upTo n => min run (n - total)
  | .inf => run

/-- What a FIFO_READ_DRAIN call has done so far. -/
structure Drain where
  fifo : Fifo
  total : Nat
  /-- The runs offered to the consumer, in order. -/
  runs : List (List Byte)
  /-- The bytes consumed, in order. -/
  taken : List Byte
  overconsumed : Bool
  deriving DecidableEq, Repr

/-- FIFO_READ_DRAIN's loop (R164). `consume k run` is the count the consumer reports on its `k`-th call for a run of
`run` bytes. Each pass that goes on takes at least one byte, so `N` passes are enough from a legal state. -/
def drainLoop (n : Nat) (max : Limit) (consume : Nat → Nat → Nat) : Nat → Nat → Drain → Drain
  | 0, _, d => d
  | passes + 1, call, d =>
    let run := Limit.cap max d.total (d.fifo.avail n)
    if run = 0 then d
    else
      let offered := d.fifo.run n run
      let c := consume call run
      if run < c then { d with runs := d.runs ++ [offered], overconsumed := true }
      else if c = 0 then { d with runs := d.runs ++ [offered] }
      else
        drainLoop n max consume passes (call + 1)
          { d with fifo := d.fifo.advance n c, total := d.total + c, runs := d.runs ++ [offered],
                   taken := d.taken ++ offered.take c }

/-- FIFO_READ_DRAIN with a given consumer (R164). -/
def Fifo.readDrain (n : Nat) (max : Limit) (consume : Nat → Nat → Nat) (f : Fifo) : Drain :=
  drainLoop n max consume n 0 { fifo := f, total := 0, runs := [], taken := [], overconsumed := false }

/-- The consumer of a FIFO_READ_DRAIN operand: it reports the listed counts in call order, then 0 (log entry 9). -/
def listedConsumer (counts : List Nat) (call _run : Nat) : Nat := counts.getD call 0

/-- FIFO_READ's `copyFn` (R165): it takes each run whole. -/
def copyConsumer (_call run : Nat) : Nat := run

/-! ### Meanings -/

/-- FIFO_INIT (R160): a capacity other than `N` is refused. -/
def execFifoInit (capacity : Nat) (s : State) : Result :=
  fifoStep s (if capacity = s.size then .next (setFifo s.fifo.init s) else .refused .wrongCapacity)

/-- FIFO_INSERT (R161). -/
def execFifoInsert (data : List Byte) (s : State) : Result :=
  fifoStep s (.next (giveResult (.count (s.fifo.writtenCount s.size data))
    (setFifo (s.fifo.insert s.size data) s)))

/-- FIFO_AVAIL (R162). -/
def execFifoAvail (s : State) : Result := fifoStep s (.next (giveResult (.count (s.fifo.avail s.size)) s))

/-- FIFO_FREE (R163). -/
def execFifoFree (s : State) : Result := fifoStep s (.next (giveResult (.count (s.fifo.free s.size)) s))

/-- FIFO_READ_DRAIN (R164): an over-consuming consumer raises `DRAIN_OVERCONSUME`, and the call returns nothing. -/
def execFifoReadDrain (maxBytes : Limit) (counts : List Nat) (s : State) : Result :=
  let d := s.fifo.readDrain s.size maxBytes (listedConsumer counts)
  fifoStep s (.next (
    if d.overconsumed then raiseFault .drainOverconsume (setFifo d.fifo s)
    else giveResult (.drained d.total d.runs) (setFifo d.fifo s)))

/-- FIFO_READ (R165). -/
def execFifoRead (maxBytes : Limit) (s : State) : Result :=
  let d := s.fifo.readDrain s.size maxBytes copyConsumer
  fifoStep s (.next (giveResult (.bytes d.taken) (setFifo d.fifo s)))

/-- FIFO_RESET (R166). -/
def execFifoReset (s : State) : Result := fifoStep s (.next (setFifo s.fifo.clear s))

end Sys2Proof.Machine
end

