-- ==== Sys2Proof/Machine/EventLog.lean ====
section
/-! DEFINITION. The event log (spec/41_event_log.md R190 to R199): LOG_APPEND with its overflow recovery, the two steps of
LOG_DRAIN, and READLOG, through which the host reaches it (spec/44_commands.md R297). -/

namespace Sys2Proof.Machine

/-- OverflowRecovery (R191). -/
def overflowRecovery (s : State) : State := setFifo s.fifo.clear (setLogOverflow s)

/-- LOG_APPEND (R190), one atomic step of the calling agent (R94). -/
def logAppend (eventBytes : List Byte) (s : State) : State :=
  let w := s.fifo.writtenCount s.size eventBytes
  let t := setFifo (s.fifo.insert s.size eventBytes) s
  if w < eventBytes.length then overflowRecovery t else t

/-- The length of the next chunk: `min(run, 255)` (R196). -/
def chunkLength (s : State) : Nat := min (s.fifo.avail s.size) 255

/-- RL_EMIT with data available (R196): send the chunk, leave `tail` where it is. -/
def emitChunk (s : State) : State :=
  let len := chunkLength s
  let t := transmit (BitVec.ofNat 8 len :: s.fifo.run s.size len) s
  { t with fifo := { t.fifo with readOpen := true },
           seq := { t.seq with chunkLen := BitVec.ofNat 8 len, phase := .rlAdvance } }

/-- RL_EMIT with the FIFO empty (R197): send the terminator and clear `LOG_OVERFLOW`. -/
def emitTerminator (s : State) : State := setPhase .poll (clearLogOverflow (transmit [0x00] s))

/-- RL_ADVANCE (R198): advance `tail` past the chunk, or raise `RESET_DURING_READ`. -/
def advanceChunk (s : State) : State :=
  let t := setFifo { s.fifo with readOpen := false } s
  if s.fifo.spoiled then raiseFault .resetDuringRead t
  else setPhase .rlEmit (setFifo (t.fifo.advance s.size s.seq.chunkLen.toNat) t)

/-- MAIN is in one of the drain's two phases. -/
def drainEnabled (s : State) : Bool := s.seq.phase == .rlEmit || s.seq.phase == .rlAdvance

/-- The drain step MAIN's phase gives (R195). -/
def drainStep (s : State) : State :=
  if s.seq.phase = .rlAdvance then advanceChunk s
  else if s.fifo.avail s.size = 0 then emitTerminator s
  else emitChunk s

/-! ### Meanings -/

/-- LOG_APPEND (R190): the written count is returned, also when the append overflows. -/
def execLogAppend (eventBytes : List Byte) (s : State) : Result :=
  coreStep s (.next (giveResult (.count (s.fifo.writtenCount s.size eventBytes)) (logAppend eventBytes s)))

/-- LOG_DRAIN (R195): one RL_EMIT or RL_ADVANCE step of MAIN. -/
def execLogDrain (s : State) : Result := mainStep s (drainEnabled s) (drainStep s)

/-- READLOG (R297): MAIN performs LOG_DRAIN, one step at a time. -/
def execReadlog (s : State) : Result := mainStep s (drainEnabled s) (drainStep s)

end Sys2Proof.Machine
end

