-- ==== Sys2Proof/Machine/Engine.lean ====
section
/-! DEFINITION. The protocol engine (spec/42_protocol_engine.md): the edge step with its branches (R220 to R229), the send
operation's three MAIN steps (R244 to R248, with the replies of spec/44_commands.md R306 and R308), and PE_SEND. -/

namespace Sys2Proof.Machine

/-! ### The edge step -/

/-- TxStep (R222). -/
def txStep (s : State) : State :=
  let t := emitSlot (txBit s.cfg s.engine s.engine.txSlot.toNat) s
  if s.engine.txSlot.toNat = txLen s.cfg - 1 then setEngine { s.engine with pending := false, txSlot := 0 } t
  else setEngine { s.engine with txSlot := s.engine.txSlot + 1 } t

/-- An edge of the quiet window (R223). -/
def quietStep (s : State) : State := setEngine { s.engine with rxQuiet := s.engine.rxQuiet - 1 } s

/-- StartDetect (R224). -/
def startDetect (rxLow : Bool) (s : State) : State :=
  if rxLow then setEngine { s.engine with acc := startAcc, mask := startMask, bitCount := 1, edgeCount := 1 } s else s

/-- Sample (R225), with the edge counted. -/
def sampleStep (rxLow : Bool) (s : State) : State :=
  setEngine { s.engine with edgeCount := s.engine.edgeCount + 1,
                            acc := if rxLow then s.engine.acc ||| s.engine.mask else s.engine.acc,
                            mask := s.engine.mask >>> 1,
                            bitCount := s.engine.bitCount + 1 } s

/-- Skip (R226): the edge is counted and nothing else changes. -/
def skipStep (s : State) : State := setEngine { s.engine with edgeCount := s.engine.edgeCount + 1 } s

/-- CommandFrame (R228): one X10_RECV record, then the three registers are cleared. -/
def commandFrame (s : State) : State :=
  let t := logAppend (recvRecord (accKey s.engine.acc) (accHouse s.engine.acc) s.engine.unitReg) s
  setEngine { t.engine with houseReg := 0, unitReg := 0, cmdReg := 0 } t

/-- UnitFrame (R229). -/
def unitFrame (s : State) : State :=
  setEngine { s.engine with houseReg := accHouse s.engine.acc, unitReg := accKey s.engine.acc } s

/-- Complete (R227). -/
def completeStep (s : State) : State :=
  let t := if accFlag s.engine.acc then commandFrame s else unitFrame s
  setEngine { t.engine with bitCount := 0, edgeCount := 0, rxQuiet := BitVec.ofNat 8 s.cfg.rxQuietEdges } t

/-- An edge inside a frame, with `bitCount` in `[1, 12]` (R220): sample or skip. -/
def frameEdge (rxLow : Bool) (s : State) : State :=
  if s.engine.bitCount.toNat ≤ 4 ∨ (s.engine.edgeCount + 1).toNat % 2 = 1 then sampleStep rxLow s else skipStep s

/-- PE_EDGE's step (R220): exactly one branch runs. -/
def edgeStep (rxLow : Bool) (s : State) : State :=
  if s.engine.pending then txStep s
  else if s.engine.rxQuiet ≠ 0 then quietStep s
  else if s.engine.bitCount = 0 then startDetect rxLow s
  else if s.engine.bitCount = 13 then completeStep s
  else frameEdge rxLow s

/-! ### The send operation -/

/-- The send-start step (R245) and the reply that ends a failed send (R306). -/
def sendStart (s : State) : State :=
  let e := { s.engine with houseReg := 0, unitReg := 0, cmdReg := 0 }
  match sendFields s.cfg s.seq.argCmd s.seq.argHouse s.seq.argUnit with
  | some (h, u, c) =>
    setPhase .scWaitDone (setEngine { e with houseReg := h, unitReg := u, cmdReg := c, txSlot := 0, pending := true } s)
  | none => setPhase .poll (giveResult (.code 0x01) (transmit [0x01] (setEngine e s)))

/-- The wait-done step once `pending = 0` (R248) and the reply of a completed send (R308). -/
def sendDone (s : State) : State := setPhase .poll (giveResult (.code 0x00) (transmit [0x00] s))

/-- MAIN has a step of the send: `Idle` lifts the first hold (R246), `pending = 0` the last (R248). -/
def sendEnabled (s : State) : Bool :=
  match s.seq.phase with
  | .scWaitIdle => s.engine.idle
  | .scStart => true
  | .scWaitDone => !s.engine.pending
  | .poll | .ping | .uptime | .status | .invalid | .rlEmit | .rlAdvance
  | .scArg1 | .scArg2 | .scArg3 | .scLog | .haltedByFault => false

/-- The send step MAIN's phase gives (R244). -/
def sendStep (s : State) : State :=
  match s.seq.phase with
  | .scWaitIdle => setPhase .scStart s
  | .scStart => sendStart s
  | .scWaitDone => sendDone s
  | .poll | .ping | .uptime | .status | .invalid | .rlEmit | .rlAdvance
  | .scArg1 | .scArg2 | .scArg3 | .scLog | .haltedByFault => s

/-- The parameter registers take the operands the operation carries (log entry 5). -/
def latchArgs (c h u : Byte) (s : State) : State :=
  { s with seq := { s.seq with argCmd := c, argHouse := h, argUnit := u } }

/-! ### Meanings -/

/-- PE_EDGE (R220), the edge interrupt handler: one atomic EDGE step. -/
def execPeEdge (rxLow : Bool) (s : State) : Result := coreStep s (.next (edgeStep rxLow s))

/-- PE_SEND (R244): one step of MAIN's wait-idle, start and wait-done, with the reply of the phase (log entry 15). -/
def execPeSend (argCmd argHouse argUnit : Byte) (s : State) : Result :=
  mainStep s (sendEnabled s) (sendStep (latchArgs argCmd argHouse argUnit s))

end Sys2Proof.Machine
end

