-- ==== Sys2Proof/Machine/Commands.lean ====
section
/-! DEFINITION. The host command interface and the main sequencer (spec/44_commands.md): HOST_BYTE, MAIN_POLL, the one-step
commands and SENDCODE. Each meaning is one MAIN step, taken in the phase its rule names; in another phase, or while its
condition does not hold, MAIN has no such step (log entry 4). -/

namespace Sys2Proof.Machine

/-- MAIN_POLL's step (R292): read the command byte and go to the phase it selects. -/
def pollStep (s : State) : State :=
  receive (fun b t => { t with seq := { t.seq with cmdByte := b, phase := commandPhase b } }) s

/-- PING's step (R293). -/
def pingStep (s : State) : State := setPhase .poll (transmit pongBytes (logAppend pingRecord s))

/-- UPTIME's step (R294). -/
def uptimeStep (s : State) : State :=
  setPhase .poll (transmit (uptimeBytes s.ind.uptime) (logAppend uptimeRecord s))

/-- STATUS's step (R296): nothing is logged and `status` is not changed. -/
def statusStep (s : State) : State := setPhase .poll (transmit [s.status] s)

/-- INVALID's step (R298): the reply is sent before the record is appended (R335). -/
def invalidStep (s : State) : State := setPhase .poll (logAppend (invalidRecord s.seq.cmdByte) (transmit [0xFF] s))

/-- SC_LOG (R302). -/
def sendLogStep (s : State) : State :=
  setPhase .scWaitIdle (logAppend (sendRecord s.seq.argCmd s.seq.argHouse s.seq.argUnit) s)

/-- MAIN has a step of SENDCODE: the parameter reads wait for `rxq` (R299 to R301). -/
def sendcodeEnabled (s : State) : Bool :=
  match s.seq.phase with
  | .scArg1 | .scArg2 | .scArg3 => hasPendingData s
  | .scLog => true
  | .scWaitIdle | .scStart | .scWaitDone => sendEnabled s
  | .poll | .ping | .uptime | .status | .invalid | .rlEmit | .rlAdvance | .haltedByFault => false

/-- The SENDCODE step MAIN's phase gives (R303). -/
def sendcodeStep (s : State) : State :=
  match s.seq.phase with
  | .scArg1 => receive (fun b t => { t with seq := { t.seq with argCmd := b, phase := .scArg2 } }) s
  | .scArg2 => receive (fun b t => { t with seq := { t.seq with argHouse := b, phase := .scArg3 } }) s
  | .scArg3 => receive (fun b t => { t with seq := { t.seq with argUnit := b, phase := .scLog } }) s
  | .scLog => sendLogStep s
  | .scWaitIdle | .scStart | .scWaitDone => sendStep s
  | .poll | .ping | .uptime | .status | .invalid | .rlEmit | .rlAdvance | .haltedByFault => s

/-! ### Meanings -/

/-- HOST_BYTE (R290): one atomic HOST step. -/
def execHostByte (b : Byte) (s : State) : Result := coreStep s (.next (arrive b s))

/-- MAIN_POLL (R292): it holds while `rxq` is empty. -/
def execMainPoll (s : State) : Result := mainStep s (s.seq.phase == .poll && hasPendingData s) (pollStep s)

/-- PING (R293). -/
def execPing (s : State) : Result := mainStep s (s.seq.phase == .ping) (pingStep s)

/-- UPTIME (R294). -/
def execUptime (s : State) : Result := mainStep s (s.seq.phase == .uptime) (uptimeStep s)

/-- STATUS (R296). -/
def execStatus (s : State) : Result := mainStep s (s.seq.phase == .status) (statusStep s)

/-- INVALID (R298): the offending byte is the operand, held in `cmdByte` (log entry 5). -/
def execInvalid (b : Byte) (s : State) : Result :=
  mainStep s (s.seq.phase == .invalid) (invalidStep { s with seq := { s.seq with cmdByte := b } })

/-- SENDCODE (R303): one step of the handler. Its operands are the parameter registers, latched so far by SC_ARG1 to
SC_ARG3. -/
def execSendcode (argCmd argHouse argUnit : Byte) (s : State) : Result :=
  mainStep s (sendcodeEnabled s) (sendcodeStep (latchArgs argCmd argHouse argUnit s))

end Sys2Proof.Machine
end

