-- ==== Sys2Proof/Machine/Indicator.lean ====
section
/-! DEFINITION. The status indicator and the uptime counter (spec/43_status_indicator.md R270 to R278). -/

namespace Sys2Proof.Machine

/-- A tick is an 8th tick when the incremented `uptime` is a multiple of `IND_PHASE = 8` (R272). -/
def eighthTick (uptime : BitVec 32) : Bool := uptime.extractLsb' 0 3 == 0

/-- TMR_TICK's step (R271). The test of `remaining` uses the value before the decrement. -/
def tickStep (s : State) : State :=
  let u := s.ind.uptime + 1
  if s.ind.remaining = 0 then { s with ind := { s.ind with uptime := u, indOut := false } }
  else
    let t := { s with ind := { remaining := s.ind.remaining - 1, uptime := u, indOut := false } }
    if eighthTick u then pulse t else t

/-- IND_PULSE (R270): the request overwrites `remaining`; a duration above 65535 is refused. -/
def execIndPulse (durationTicks : Nat) (s : State) : Result :=
  coreStep s (
    if 65535 < durationTicks then .refused .pulseTooLong
    else .next { s with ind := { s.ind with remaining := BitVec.ofNat 16 durationTicks } })

/-- TMR_TICK (R271, R278): the timer interrupt handler, one atomic TIMER step. -/
def execTmrTick (s : State) : Result := coreStep s (.next (tickStep s))

end Sys2Proof.Machine
end

