-- ==== Sys2Proof/Machine/Reset.lean ====
section
/-! DEFINITION. RESET and the boot order (spec/70_reset_and_hazards.md R370 to R374). -/

namespace Sys2Proof.Machine

/-- R370's first step: every element at R66's value. The parameters and what the environment has still to do are not
state of the core; the storage becomes a fresh unspecified one (R33), which `epoch` names (log entry 12). -/
def clearState (s : State) : State :=
  let t := State.cleared s.cfg
  { t with fifo := { t.fifo with epoch := s.fifo.epoch + 1 }, env := { s.env with result := .nothing } }

/-- RESET's steps in the order of R370 and R372: clear, FIFO_INIT(N), the Startup record. -/
def bootStep (s : State) : State :=
  let t := clearState s
  logAppend startupRecord (setFifo t.fifo.init t)

/-- RESET (R370): one atomic HOST step, enabled in every state in which no fault has been raised. -/
def execReset (s : State) : Result := coreStep s (.next (bootStep s))

end Sys2Proof.Machine
end

