-- ==== Sys2Proof/Machine/Fetch.lean ====
section
/-! DEFINITION. Which operation the machine performs next. The core fetches nothing (spec/10_state.md R32): MAIN's next step
is the one its `phase` gives (R56), and the steps of the other agents come from outside (spec/60_exceptions.md R340, R341).
The environment's choices stand in `env.script`, and after it in a free value (log entry 2). -/

namespace Sys2Proof.Machine

/-- The script byte that gives MAIN a turn. Its bits 7:5 are not 0, so it is no port word. -/
def mainTurn : Byte := 0x20

/-- The operation MAIN performs next: `phase` and the latched command registers hold it (R56, R57, R291). -/
def mainInstr (s : State) : Instr :=
  match s.seq.phase with
  | .poll => .mainPoll
  | .ping => .ping
  | .uptime => .uptime
  | .status => .status
  | .invalid => .invalid s.seq.cmdByte
  | .rlEmit | .rlAdvance => .readlog
  | .scArg1 | .scArg2 | .scArg3 | .scLog | .scWaitIdle | .scStart | .scWaitDone =>
    .sendcode s.seq.argCmd s.seq.argHouse s.seq.argUnit
  | .haltedByFault => .mainPoll

/-- The script without its first entry. -/
def setScript (bs : List Byte) (s : State) : State := { s with env := { s.env with script := bs } }

/-- The operation of an agent's step (R340). -/
def agentInstr (s : State) : AgentStep → Instr
  | .main => mainInstr s
  | .edge rxLow => .peEdge rxLow
  | .tick => .tmrTick
  | .hostByte b => .hostByte b
  | .pulse d => .indPulse d.toNat
  | .reset => .reset

/-- One more free choice of an agent step has been made. -/
def nextTurn (s : State) : State := { s with env := { s.env with turn := s.env.turn + 1 } }

/-- The next operation and the state that performs it: MAIN's, when the script gives MAIN the turn; else the port
operation at the front of the script. With the script empty it is a step of an agent that nothing determines: no agent
is forced to move and none is kept from it (R342). -/
def fetch (s : State) : Except DecodeError (Instr × State) :=
  match s.env.script with
  | [] => .ok (agentInstr s (Config.freeAgentStep s.env.turn), nextTurn s)
  | b :: rest =>
    if b = mainTurn then .ok (mainInstr s, setScript rest s)
    else
      match decodePort (b :: rest) with
      | .ok (i, rest') => .ok (i, setScript rest' s)
      | .error e => .error e

/-- MAIN stands before the first step of an operation: its phase, and where the operation has operands the command
registers and the parameter bytes still to be received. -/
def enterMain (i : Instr) (p : Phase) (s : State) : State :=
  match i with
  | .invalid b => { s with seq := { s.seq with phase := p, cmdByte := b } }
  | .sendcode c h u =>
    { latchArgs c h u s with
      seq := { (latchArgs c h u s).seq with phase := p }
      ports := { s.ports with rxq := [c, h, u] ++ s.ports.rxq } }
  | _ => setPhase p s

/-- `i` is what the machine performs next: a port operation stands at the front of the script, a host command is the one
MAIN is in and MAIN has the turn. -/
def placeInstr (i : Instr) (s : State) : State :=
  let t := match firstPhase i.opcode with
    | some p => enterMain i p s
    | none => s
  match i.format with
  | .portOp => setScript (encode i ++ s.env.script) t
  | .hostCmd => setScript (mainTurn :: s.env.script) t

end Sys2Proof.Machine
end

