-- ==== Sys2Proof/Machine/Dispatch.lean ====
section
/-! DEFINITION. One arm per constructor of Instr: its meaning. -/

namespace Sys2Proof.Machine

/-- The meaning of an operation. -/
def exec (i : Instr) (s : State) : Host.Outcome State Fault Refusal :=
  match i with
  | .ping => Sys2Proof.Machine.execPing s
  | .uptime => Sys2Proof.Machine.execUptime s
  | .status => Sys2Proof.Machine.execStatus s
  | .readlog => Sys2Proof.Machine.execReadlog s
  | .sendcode c h u => Sys2Proof.Machine.execSendcode c h u s
  | .invalid b => Sys2Proof.Machine.execInvalid b s
  | .reset => Sys2Proof.Machine.execReset s
  | .fifoInit n => Sys2Proof.Machine.execFifoInit n s
  | .fifoInsert d => Sys2Proof.Machine.execFifoInsert d s
  | .fifoAvail => Sys2Proof.Machine.execFifoAvail s
  | .fifoFree => Sys2Proof.Machine.execFifoFree s
  | .fifoReadDrain m cs => Sys2Proof.Machine.execFifoReadDrain m cs s
  | .fifoRead m => Sys2Proof.Machine.execFifoRead m s
  | .fifoReset => Sys2Proof.Machine.execFifoReset s
  | .logAppend d => Sys2Proof.Machine.execLogAppend d s
  | .logDrain => Sys2Proof.Machine.execLogDrain s
  | .peEdge l => Sys2Proof.Machine.execPeEdge l s
  | .peSend c h u => Sys2Proof.Machine.execPeSend c h u s
  | .indPulse d => Sys2Proof.Machine.execIndPulse d s
  | .tmrTick => Sys2Proof.Machine.execTmrTick s
  | .mainPoll => Sys2Proof.Machine.execMainPoll s
  | .hostByte b => Sys2Proof.Machine.execHostByte b s

end Sys2Proof.Machine
end

