-- ==== Sys2Proof/Machine/Step.lean ====
section
/-! DEFINITION. One step of the core, and how the host places one instruction before it. -/

namespace Sys2Proof.Machine

/-- One step: the next operation is fetched and run. No agent has a step once a fault has been raised (R334), and a
request that is no operation is refused (R333). -/
def step (s : State) : Host.Outcome State Fault Refusal :=
  if s.faults ≠ [] then .fault .noStepAfterFault
  else
    match fetch s with
    | .ok (i, t) => exec i t
    | .error e => .refused (.badRequest e)

/-- The state in which the very next step runs the operation of a table word (log entry 10). A word that is no operation
stands on the script, where `step` refuses it. -/
def State.withFetchWord (s : State) (nbits w : Nat) : State :=
  match decodeTableWord nbits w with
  | some i => placeInstr i s
  | none => setScript (tableBytes nbits w ++ s.env.script) s

end Sys2Proof.Machine
end

