-- ==== Sys2Proof/Safety.lean ====
section
/-! DEFINITION. What counts as a good state of the core, in the terms the statements use: the legal ranges of
spec/10_state.md, the states in which an agent has a step (spec/60_exceptions.md R333, R334, R340), the effect of one append
(spec/41_event_log.md R190, R191) and the values after reset (spec/10_state.md R66). -/

namespace Sys2Proof.Machine

/-- Every agent may have a step: no fault has been raised and the configuration is one the spec admits (R333, R334). -/
def Ready (s : State) : Prop := s.faults = [] ∧ Config.ok s.cfg = true

/-- A FIFO operation that stands alone may run: "The FIFO alone admits `N >= 2`" (R193), and the other ranges of R9 hold
(R333). -/
def FifoReady (s : State) : Prop := s.faults = [] ∧ Config.fifoOk s.cfg = true

/-- The indices are in `[0, N)` (R34, R35). -/
def FifoLegal (s : State) : Prop := s.fifo.head.toNat < s.size ∧ s.fifo.tail.toNat < s.size

/-- The buffered bytes, oldest first (R36). -/
def State.logBytes (s : State) : List Byte := s.fifo.contents s.size

/-- An index is not one of the `w` bytes from `head` on. -/
def outsideWrite (s : State) (w a : Nat) : Prop := ∀ j < w, a ≠ (s.fifo.head.toNat + j) % s.size

/-- What one append of `record` does to the LOG (R190, R191): a record that fits is added behind the buffered bytes; one
that does not fit empties the FIFO, sets `LOG_OVERFLOW`, and spoils a drain chunk that is open. Storage outside the
bytes written keeps its value in both cases. -/
def Appended (record : List Byte) (s t : State) : Prop :=
  let w := s.fifo.writtenCount s.size record
  t.fifo.readOpen = s.fifo.readOpen ∧ t.fifo.epoch = s.fifo.epoch ∧
  (∀ a, outsideWrite s w a → t.fifo.byteAt a = s.fifo.byteAt a) ∧
  (∀ j (hj : j < record.length), j < w → t.fifo.byteAt ((s.fifo.head.toNat + j) % s.size) = record[j]) ∧
  if record.length ≤ s.fifo.freeTotal s.size then
    t.logBytes = s.logBytes ++ record ∧ t.fifo.tail = s.fifo.tail ∧ t.fifo.spoiled = s.fifo.spoiled ∧
    t.fifo.head.toNat = (s.fifo.head.toNat + record.length) % s.size ∧ t.status = s.status
  else
    t.fifo.head = 0 ∧ t.fifo.tail = 0 ∧ t.logBytes = [] ∧
    t.fifo.spoiled = (s.fifo.spoiled || s.fifo.readOpen) ∧ t.status = s.status ||| 0x01

/-- Nothing but the FIFO, `status`, the sequencer and the ports differs: the frame of MAIN's one-step commands. -/
def KeepsEngineAndInd (s t : State) : Prop :=
  t.cfg = s.cfg ∧ t.engine = s.engine ∧ t.ind = s.ind ∧ t.faults = s.faults ∧ t.env = s.env

/-! ### The invariant -/

/-- The relation of `bitCount` (`k`) and `edgeCount` (`e`) that R230's table gives. -/
def edgesAgree (k e : Nat) : Prop :=
  (k = 0 ∧ e = 0) ∨ (1 ≤ k ∧ k ≤ 4 ∧ e = k) ∨ (5 ≤ k ∧ k ≤ 12 ∧ (e = 2 * k - 5 ∨ e = 2 * k - 4)) ∨ (k = 13 ∧ e = 21)

/-- The FIFO's legal states (R33 to R36): indices in range and storage in canonical form, inside the address space. -/
structure FifoInv (n : Nat) (f : Fifo) : Prop where
  head_lt : f.head.toNat < n
  tail_lt : f.tail.toNat < n
  store_wf : f.store.wf
  store_in : ∀ c ∈ f.store, c.1 < n

/-- The engine's legal states (R44, R46 to R50). -/
structure EngineInv (cfg : Config) (e : Engine) : Prop where
  txSlot_lt : e.txSlot.toNat < txLen cfg
  edges : edgesAgree e.bitCount.toNat e.edgeCount.toNat
  acc_top : e.acc.toNat < 2 ^ 13
  mask_at : e.mask = if e.bitCount = 0 then 0 else startMask >>> (e.bitCount.toNat - 1)
  quiet_le : e.rxQuiet.toNat ≤ cfg.rxQuietEdges

/-- The sequencer agrees with the drain (R37), with the engine (R43, R51) and with the faults (R60, R310). -/
structure PhaseInv (s : State) : Prop where
  halted : s.faults ≠ [] ↔ s.seq.phase = .haltedByFault
  chunk_open : s.seq.phase = .rlAdvance → s.fifo.readOpen = true
  open_phase : s.fifo.readOpen = true → s.seq.phase = .rlAdvance ∨ s.seq.phase = .haltedByFault
  spoiled_open : s.fifo.spoiled = true → s.fifo.readOpen = true ∨ s.seq.phase = .haltedByFault
  sending : s.engine.pending = true → s.seq.phase = .scWaitDone ∨ s.seq.phase = .haltedByFault

/-- The invariant of the whole core. -/
structure CoreInv (s : State) : Prop where
  cfg_ok : Config.ok s.cfg = true
  fifo : FifoInv s.size s.fifo
  /-- `X10_ERROR` and bits 7:2 read 0 (R40, R41). -/
  status_reserved : s.status &&& 0xFE = 0
  engine : EngineInv s.cfg s.engine
  /-- The indicator is off between ticks (R55). -/
  ind_off : s.ind.indOut = false
  phase : PhaseInv s
  faults_nodup : s.faults.Nodup

/-- Every buffered byte has been written (R33), and the chunk that is open and not spoiled is still buffered (R196). -/
def Written (s : State) : Prop :=
  (∀ j < s.fifo.count s.size, s.fifo.store.read? ((s.fifo.tail.toNat + j) % s.size) ≠ none) ∧
  (s.fifo.readOpen = true → s.fifo.spoiled = false → s.seq.chunkLen.toNat ≤ s.fifo.count s.size)

/-- Every element at its reset value (R66), with the Startup record of R371 in the LOG. -/
structure ResetValues (s : State) : Prop where
  head : s.fifo.head = 1
  tail : s.fifo.tail = 0
  startup : s.fifo.byteAt 0 = 0x01
  readOpen : s.fifo.readOpen = false
  spoiled : s.fifo.spoiled = false
  status : s.status = 0x00
  engine : s.engine = { pending := false, txSlot := 0, houseReg := 0, unitReg := 0, cmdReg := 0, bitCount := 0,
                        edgeCount := 0, acc := 0, mask := 0, rxQuiet := 0 }
  ind : s.ind = { remaining := 0, uptime := 0, indOut := false }
  seq : s.seq = { phase := .poll, cmdByte := 0, argCmd := 0, argHouse := 0, argUnit := 0, chunkLen := 0 }
  ports : s.ports = { rxq := [], txq := [], lineTrace := [], indTrace := [] }
  faults : s.faults = []

/-! ### Runs -/

/-- The end of a run: "no agent has a step that changes state without the environment's help" (R375). -/
def RunEnded (s : State) : Prop :=
  s.faults = [] ∧ s.seq.phase = .poll ∧ s.ports.rxq = [] ∧ s.engine.pending = false

/-- The steps of a list of operations, one after another, up to the first fault or refusal. -/
def execAll : List Instr → State → Result
  | [], s => .next s
  | i :: is, s =>
    match exec i s with
    | .next t => execAll is t
    | .fault r => .fault r
    | .refused r => .refused r

/-- The FIFO's operations as operations on a queue of bytes (R160 to R167). -/
inductive QueueOp where
  | init
  | insert (data : List Byte)
  | drain (maxBytes : Limit) (counts : List Nat)
  | read (maxBytes : Limit)
  | reset
  deriving DecidableEq, Repr

/-- The FIFO operation of a queue operation, on a storage of `n` bytes. -/
def QueueOp.instr (n : Nat) : QueueOp → Instr
  | .init => .fifoInit n
  | .insert data => .fifoInsert data
  | .drain maxBytes counts => .fifoReadDrain maxBytes counts
  | .read maxBytes => .fifoRead maxBytes
  | .reset => .fifoReset

/-- What an operation may do to a queue that holds at most `room` bytes, and what it returns: from the bytes and the last
result `q` to `q'`. A drain offers runs whose lengths the queue does not show; of each it takes the reported count, and
what it takes is the oldest bytes, in order. -/
def QueueOp.takes (room : Nat) (op : QueueOp) (q q' : List Byte × PortResult) : Prop :=
  match op with
  | .init => q' = ([], q.2)
  | .insert data =>
    q' = (q.1 ++ data.take (room - q.1.length), .count (min data.length (room - q.1.length)))
  | .drain maxBytes counts =>
    ∃ (total : Nat) (runs : List (List Byte)), total ≤ q.1.length ∧ Limit.cap maxBytes 0 total = total ∧
      (List.zipWith List.take counts runs).flatten = q.1.take total ∧ q' = (q.1.drop total, .drained total runs)
  | .read maxBytes =>
    let k := Limit.cap maxBytes 0 q.1.length
    q' = (q.1.drop k, .bytes (q.1.take k))
  | .reset => q' = ([], q.2)

/-- A sequence of queue operations, one after another. -/
def queueRun (room : Nat) : List QueueOp → List Byte × PortResult → List Byte × PortResult → Prop
  | [], q, q' => q' = q
  | op :: ops, q, q' => ∃ m, op.takes room q m ∧ queueRun room ops m q'

/-- `maxBytes - c` (R164): what is left of a limit after `c` bytes. -/
def Limit.less (m : Limit) (c : Nat) : Limit :=
  match m with
  | .upTo n => .upTo (n - c)
  | .inf => .inf

/-- The FIFO's own operations: "The FIFO alone admits `N >= 2`" (R193). -/
def fifoOnly : Instr → Bool
  | .fifoInit _ | .fifoInsert _ | .fifoAvail | .fifoFree | .fifoReadDrain _ _ | .fifoRead _ | .fifoReset => true
  | .ping | .uptime | .status | .readlog | .sendcode _ _ _ | .invalid _ | .reset | .logAppend _ | .logDrain
  | .peEdge _ | .peSend _ _ _ | .indPulse _ | .tmrTick | .mainPoll | .hostByte _ => false

/-- The operations that move `tail` or the indices outside the LOG's own steps. No agent of the core performs them while a
chunk is open (R80, R192, R195). -/
def movesTail : Instr → Bool
  | .fifoInit _ | .fifoReadDrain _ _ | .fifoRead _ => true
  | .ping | .uptime | .status | .readlog | .sendcode _ _ _ | .invalid _ | .reset | .fifoInsert _ | .fifoAvail
  | .fifoFree | .fifoReset | .logAppend _ | .logDrain | .peEdge _ | .peSend _ _ _ | .indPulse _ | .tmrTick
  | .mainPoll | .hostByte _ => false

/-- The same state with another unspecified storage (R33): only what unwritten bytes read as may differ. -/
def State.withEpoch (e : Nat) (s : State) : State := { s with fifo := { s.fifo with epoch := e } }

end Sys2Proof.Machine
end

