-- ==== Sys2Proof/Certificates/Slice0/Obligations.lean ====
section
/-! DEFINITION. The statements about the core, made from the numbered rules of spec/. `Ready` and `FifoReady` say that no
fault has been raised and the configuration is admitted; they are the conditions under which the spec gives an agent a
step (spec/60_exceptions.md R333, R334, R340). A premise on `phase` is the phase in which the rule takes its step. -/

open Sys2Proof Sys2Proof.Machine

/-! ### Encodings -/

/-- Decoding an encoded well-formed operation gives it back with the bytes after it, for every operand value. The operand
bytes of port operations are the model's choice (log entry 8). -/
def Obligations.DecodeEncodeRoundTrip : Prop :=
  ∀ (i : Instr) (rest : List Byte), i.wf = true → decode i.format (encode i ++ rest) = .ok (i, rest)

/-- Words written out from R111, R112 and R135 decode to the operations they stand for. The operand byte after a port
selector, in the words of PE_EDGE and HOST_BYTE, is the model's choice (log entry 8). -/
def Obligations.SpecWordsDecode : Prop :=
  decodeHost [0x01] = .ok (.ping, []) ∧ decodeHost [0x02] = .ok (.uptime, []) ∧ decodeHost [0x03] = .ok (.status, []) ∧
  decodeHost [0x04, 0x01] = .ok (.readlog, [0x01]) ∧
  decodeHost [0x05, 0x02, 0x4D, 0x01] = .ok (.sendcode 0x02 0x4D 0x01, []) ∧
  decodeHost [0x99] = .ok (.invalid 0x99, []) ∧
  decodePort [0x00] = .ok (.reset, []) ∧ decodePort [0x0A, 0x01] = .ok (.peEdge true, []) ∧
  decodePort [0x0D] = .ok (.tmrTick, []) ∧ decodePort [0x0F, 0x41] = .ok (.hostByte 0x41, [])

/-- R111, R112, R295, R136: the first byte of a host command selects the command and its length, and MAIN's phase. -/
def Obligations.CommandByteTable : Prop :=
  ∀ (b : Byte) (rest : List Byte),
    (b = 0x01 → decodeHost (b :: rest) = .ok (.ping, rest) ∧ commandPhase b = .ping) ∧
    (b = 0x02 → decodeHost (b :: rest) = .ok (.uptime, rest) ∧ commandPhase b = .uptime) ∧
    (b = 0x03 → decodeHost (b :: rest) = .ok (.status, rest) ∧ commandPhase b = .status) ∧
    (b = 0x04 → decodeHost (b :: rest) = .ok (.readlog, rest) ∧ commandPhase b = .rlEmit) ∧
    (b = 0x05 → commandPhase b = .scArg1 ∧
      ∀ c h u, decodeHost (b :: c :: h :: u :: rest) = .ok (.sendcode c h u, rest)) ∧
    (b ≠ 0x01 → b ≠ 0x02 → b ≠ 0x03 → b ≠ 0x04 → b ≠ 0x05 →
      decodeHost (b :: rest) = .ok (.invalid b, rest) ∧ commandPhase b = .invalid)

/-- R135: the sixteen selectors, and the refusal of the others, by the decoder and by a step. That selectors come from
a script is the model's choice (log entry 2). -/
def Obligations.PortSelectorTable : Prop :=
  ([0x00, 0x01, 0x02, 0x03, 0x04, 0x05, 0x06, 0x07].map portOpcode =
    [.ok .reset, .ok .fifoInit, .ok .fifoInsert, .ok .fifoAvail, .ok .fifoFree, .ok .fifoReadDrain, .ok .fifoRead,
     .ok .fifoReset]) ∧
  ([0x08, 0x09, 0x0A, 0x0B, 0x0C, 0x0D, 0x0E, 0x0F].map portOpcode =
    [.ok .logAppend, .ok .logDrain, .ok .peEdge, .ok .peSend, .ok .indPulse, .ok .tmrTick, .ok .mainPoll,
     .ok .hostByte]) ∧
  ∀ (b : Byte) (rest : List Byte) (s : State), 0x10 ≤ b.toNat → b.toNat < 0x20 →
    decodePort (b :: rest) = .error (.reservedSelector b) ∧
    (s.faults = [] → s.env.script = b :: rest → step s = .refused (.badRequest (.reservedSelector b)))

/-- R131 to R133: the two lookup tables by index, their values, and the exactness of the reverse lookups. -/
def Obligations.LookupTables : Prop :=
  (List.range 16).map (fun i => houseLetter (BitVec.ofNat 4 i)) =
    [0x4D, 0x45, 0x43, 0x4B, 0x4F, 0x47, 0x41, 0x49] ++ [0x4E, 0x46, 0x44, 0x4C, 0x50, 0x48, 0x42, 0x4A] ∧
  (List.range 16).map (fun i => unitNumber (BitVec.ofNat 4 i)) =
    [13, 5, 3, 11, 15, 7, 1, 9] ++ [14, 6, 4, 12, 16, 8, 2, 10] ∧
  ∀ (x : Byte) (i : BitVec 4),
    (houseIndex x = some i ↔ houseLetter i = x) ∧ (unitIndex x = some i ↔ unitNumber i = x) ∧
    (houseIndex x = none ↔ x.toNat < 0x41 ∨ 0x50 < x.toNat) ∧
    (unitIndex x = none ↔ x.toNat < 1 ∨ 16 < x.toNat)

/-- R126, R128, R130: a frame's 22 slots bit by bit, and a send's slots in order. -/
def Obligations.FrameSlotLayout : Prop :=
  ∀ (h k : BitVec 4) (f : Bool),
    frameSlots h k f =
      [true, true, true, false] ++
      [h.getLsbD 3, !h.getLsbD 3, h.getLsbD 2, !h.getLsbD 2, h.getLsbD 1, !h.getLsbD 1, h.getLsbD 0, !h.getLsbD 0] ++
      [k.getLsbD 3, !k.getLsbD 3, k.getLsbD 2, !k.getLsbD 2, k.getLsbD 1, !k.getLsbD 1, k.getLsbD 0, !k.getLsbD 0] ++
      [f, !f] ∧
    (frameSlots h k f).length = 22 ∧
    ∀ (cfg : Config) (c : BitVec 4),
      (txSlots cfg h k c).length = 44 + cfg.txGapSlots ∧
      (∀ i < 22, (txSlots cfg h k c)[i]? = (frameSlots h k false)[i]?) ∧
      (∀ i < cfg.txGapSlots, (txSlots cfg h k c)[22 + i]? = some false) ∧
      (∀ i < 22, (txSlots cfg h k c)[22 + cfg.txGapSlots + i]? = (frameSlots h c true)[i]?)

/-! ### The step -/

/-- When the front of the script decodes to a port operation, a step is `exec` of it with the script moved past its
bytes. The script is the model's (log entry 2). -/
def Obligations.StepRunsScriptedOperation : Prop :=
  ∀ (s : State) (i : Instr) (rest : List Byte), s.faults = [] → decodePort s.env.script = .ok (i, rest) →
    step s = exec i (setScript rest s)

/-- When MAIN has the turn, a step is `exec` of the operation its phase gives (R291); with the script empty it is `exec` of
a free agent step, MAIN's or another's, so no order of agent steps is forced (R342). That a script gives MAIN its turns,
and the free value after it, are the model's choice (log entry 2). -/
def Obligations.StepRunsMainPhase : Prop :=
  ∀ s : State, s.faults = [] →
    (∀ rest, s.env.script = 0x20 :: rest → step s = exec (mainInstr s) (setScript rest s)) ∧
    (s.env.script = [] → step s = exec (agentInstr s (Config.freeAgentStep s.env.turn))
      { s with env := { s.env with turn := s.env.turn + 1 } }) ∧
    (agentInstr s .main = mainInstr s ∧ (∀ rxLow, agentInstr s (.edge rxLow) = .peEdge rxLow) ∧
      agentInstr s .tick = .tmrTick ∧ (∀ b, agentInstr s (.hostByte b) = .hostByte b) ∧
      (∀ d, agentInstr s (.pulse d) = .indPulse d.toNat) ∧ agentInstr s .reset = .reset) ∧
    (s.seq.phase = .poll → mainInstr s = .mainPoll) ∧ (s.seq.phase = .ping → mainInstr s = .ping) ∧
    (s.seq.phase = .uptime → mainInstr s = .uptime) ∧ (s.seq.phase = .status → mainInstr s = .status) ∧
    (s.seq.phase = .invalid → mainInstr s = .invalid s.seq.cmdByte) ∧
    (s.seq.phase = .rlEmit ∨ s.seq.phase = .rlAdvance → mainInstr s = .readlog) ∧
    (s.seq.phase ∈ [.scArg1, .scArg2, .scArg3, .scLog, .scWaitIdle, .scStart, .scWaitDone] →
      mainInstr s = .sendcode s.seq.argCmd s.seq.argHouse s.seq.argUnit)

/-! ### The FIFO -/

/-- R160: FIFO_INIT with the configured capacity clears both indices and nothing else; another capacity is refused. -/
def Obligations.FifoInitClearsIndices : Prop :=
  ∀ (capacity : Nat) (s : State), FifoReady s →
    (capacity = s.size →
      exec (.fifoInit capacity) s = .next { s with fifo := { s.fifo with head := 0, tail := 0 } }) ∧
    (capacity ≠ s.size → exec (.fifoInit capacity) s = .refused .wrongCapacity)

/-- R161: FIFO_INSERT writes the leading bytes that fit from `head` on, returns their number, and leaves every other
byte, `tail` and all else. That the returned value stands in `result` is the model's choice (log entry 6). -/
def Obligations.FifoInsertWritesLeadingBytes : Prop :=
  ∀ (data : List Byte) (s : State), FifoReady s → FifoLegal s →
    ∃ (w : Nat) (f : Fifo),
      w = min data.length (s.size - 1 - s.fifo.count s.size) ∧
      exec (.fifoInsert data) s = .next { s with fifo := f, env := { s.env with result := .count w } } ∧
      f.head.toNat = (s.fifo.head.toNat + w) % s.size ∧
      (∀ j (hj : j < data.length), j < w → f.byteAt ((s.fifo.head.toNat + j) % s.size) = data[j]) ∧
      (∀ a, outsideWrite s w a → f.byteAt a = s.fifo.byteAt a) ∧
      f.tail = s.fifo.tail ∧ f.readOpen = s.fifo.readOpen ∧ f.spoiled = s.fifo.spoiled ∧ f.epoch = s.fifo.epoch ∧
      f.contents s.size = s.logBytes ++ data.take w ∧ (w = 0 → f = s.fifo)

/-- R162: FIFO_AVAIL returns the count contiguous to the physical end, 0 only when the FIFO is empty, and less than
the true count when the data wraps with `head > 0`. Nothing else changes. That the returned value stands in `result`
is the model's choice (log entry 6). -/
def Obligations.FifoAvailIsContiguous : Prop :=
  ∀ s : State, FifoReady s → FifoLegal s →
    ∃ n : Nat, exec .fifoAvail s = .next { s with env := { s.env with result := .count n } } ∧
      (s.fifo.tail.toNat ≤ s.fifo.head.toNat → n = s.fifo.head.toNat - s.fifo.tail.toNat) ∧
      (s.fifo.head.toNat < s.fifo.tail.toNat → n = s.size - s.fifo.tail.toNat) ∧
      (n = 0 ↔ s.fifo.head = s.fifo.tail) ∧
      (s.fifo.head.toNat < s.fifo.tail.toNat → 0 < s.fifo.head.toNat → n < s.logBytes.length)

/-- R163: FIFO_FREE returns the free space contiguous to the physical end; it never exceeds `freeTotal()`, equals it
when the free space does not wrap, and is 0 for a full FIFO. That the returned value stands in `result` is the model's
choice (log entry 6). -/
def Obligations.FifoFreeIsContiguous : Prop :=
  ∀ s : State, FifoReady s → FifoLegal s →
    ∃ n : Nat, exec .fifoFree s = .next { s with env := { s.env with result := .count n } } ∧
      (s.fifo.tail.toNat ≤ s.fifo.head.toNat → s.fifo.tail.toNat = 0 → n = s.size - 1 - s.fifo.head.toNat) ∧
      (s.fifo.tail.toNat ≤ s.fifo.head.toNat → s.fifo.tail.toNat ≠ 0 → n = s.size - s.fifo.head.toNat) ∧
      (s.fifo.head.toNat < s.fifo.tail.toNat → n = s.fifo.tail.toNat - s.fifo.head.toNat - 1) ∧
      n ≤ s.fifo.freeTotal s.size ∧
      (s.fifo.head.toNat < s.fifo.tail.toNat ∨ s.fifo.tail.toNat ≤ 1 → n = s.fifo.freeTotal s.size) ∧
      (s.logBytes.length = s.size - 1 → n = 0)

/-- R164: one pass of FIFO_READ_DRAIN. The run offered is the contiguous run capped at `maxBytes`; an empty run ends
the call; a consumer that reports more than the run raises `DRAIN_OVERCONSUME`; a report of 0 ends the call; any other
report `c` advances `tail` by `c` and the call goes on with `maxBytes - c` and the consumer's next report. That a
consumer is the list of its reports (log entry 9), and that the returned value stands in `result` (log entry 6), are the
model's choices; that a step which raises a fault answers a next state, and keeps the tail advances of its earlier
passes, is log entry 13. -/
def Obligations.FifoReadDrainPass : Prop :=
  ∀ (max : Limit) (counts : List Nat) (s : State), FifoReady s → FifoLegal s →
    let run := Limit.cap max 0 (s.fifo.avail s.size)
    let offered := s.fifo.run s.size run
    let c := counts.getD 0 0
    (run = 0 → exec (.fifoReadDrain max counts) s =
      .next { s with env := { s.env with result := .drained 0 [] } }) ∧
    (run ≠ 0 → run < c → exec (.fifoReadDrain max counts) s =
      .next { s with faults := [.drainOverconsume], seq := { s.seq with phase := .haltedByFault } }) ∧
    (run ≠ 0 → c = 0 → exec (.fifoReadDrain max counts) s =
      .next { s with env := { s.env with result := .drained 0 [offered] } }) ∧
    (run ≠ 0 → 0 < c → c ≤ run →
      ∃ t, exec (.fifoReadDrain (Limit.less max c) counts.tail)
          { s with fifo := { s.fifo with tail := BitVec.ofNat 16 ((s.fifo.tail.toNat + c) % s.size) } } = .next t ∧
        ((t.faults = [.drainOverconsume] ∧ exec (.fifoReadDrain max counts) s = .next t) ∨
         (t.faults = [] ∧ ∃ total runs, t.env.result = .drained total runs ∧
            exec (.fifoReadDrain max counts) s =
              .next { t with env := { t.env with result := .drained (c + total) (offered :: runs) } })))

/-- R164, R167: a FIFO_READ_DRAIN has taken the oldest bytes, no more than `maxBytes` and no more than were buffered;
only `tail` and the result change, or `tail`, `faults` and `phase` when its consumer over-consumes. That the returned
value stands in `result` (log entry 6) and that a consumer is the list of its reports (log entry 9) are the model's
choices; that a step which raises a fault answers a next state, with `tail` where its earlier passes left it, is log
entry 13. -/
def Obligations.FifoReadDrainTakesOldest : Prop :=
  ∀ (max : Limit) (counts : List Nat) (s : State), FifoReady s → FifoLegal s →
    ∃ (tail : BitVec 16) (total : Nat), total ≤ s.logBytes.length ∧ Limit.cap max 0 total = total ∧
      tail.toNat = (s.fifo.tail.toNat + total) % s.size ∧
      ({ s.fifo with tail := tail } : Fifo).contents s.size = s.logBytes.drop total ∧
      ((∃ runs, exec (.fifoReadDrain max counts) s =
          .next { s with fifo := { s.fifo with tail := tail }, env := { s.env with result := .drained total runs } }) ∨
       exec (.fifoReadDrain max counts) s =
          .next { s with fifo := { s.fifo with tail := tail }, faults := [.drainOverconsume],
                         seq := { s.seq with phase := .haltedByFault } })

/-- R165: FIFO_READ returns exactly `min(maxBytes, count())` bytes in FIFO order and advances `tail` by that many.
That the returned value stands in `result` is the model's choice (log entry 6). -/
def Obligations.FifoReadReturnsOldest : Prop :=
  ∀ (max : Limit) (s : State), FifoReady s → FifoLegal s →
    let k := Limit.cap max 0 s.logBytes.length
    ∃ tail : BitVec 16, tail.toNat = (s.fifo.tail.toNat + k) % s.size ∧
      exec (.fifoRead max) s =
        .next { s with fifo := { s.fifo with tail := tail }, env := { s.env with result := .bytes (s.logBytes.take k) } } ∧
      ({ s.fifo with tail := tail } : Fifo).contents s.size = s.logBytes.drop k

/-- R166: FIFO_RESET clears both indices, spoils an open chunk, leaves storage and all else, and is idempotent. -/
def Obligations.FifoResetEmpties : Prop :=
  ∀ s : State, FifoReady s →
    ∃ t, exec .fifoReset s = .next t ∧
      t = { s with fifo := { s.fifo with head := 0, tail := 0,
                                         spoiled := if s.fifo.readOpen then true else s.fifo.spoiled } } ∧
      t.logBytes = [] ∧ t.fifo.avail t.size = 0 ∧ exec .fifoReset t = .next t

/-- R167: under every sequence of FIFO operations (FIFO_INIT, FIFO_INSERT, FIFO_READ_DRAIN, FIFO_READ, FIFO_RESET) the FIFO
is a queue of at most `N - 1` bytes: each operation returns what the queue returns, and the bytes buffered are the
queue's. A sequence ends early only at a FIFO_READ_DRAIN whose consumer reports more than it was offered. That the
returned value stands in `result` (log entry 6), that a consumer is the list of its reports (log entry 9), and that the
step that raises the fault answers a next state (log entry 13), are the model's choices. -/
def Obligations.FifoRefinesQueue : Prop :=
  ∀ (ops : List QueueOp) (s : State), FifoReady s → FifoLegal s →
    (∃ t, execAll (ops.map (QueueOp.instr s.size)) s = .next t ∧ t.faults = [] ∧ FifoLegal t ∧
      queueRun (s.size - 1) ops (s.logBytes, s.env.result) (t.logBytes, t.env.result) ∧
      t.logBytes.length ≤ s.size - 1) ∨
    (∃ before max counts after u, ops = before ++ .drain max counts :: after ∧
      execAll ((before ++ [.drain max counts]).map (QueueOp.instr s.size)) s = .next u ∧
      u.faults = [.drainOverconsume])

/-! ### The event log -/

/-- R190, R191: LOG_APPEND adds a record that fits; one that does not empties the LOG and sets `LOG_OVERFLOW`. It
returns the count FIFO_INSERT wrote, and nothing outside the FIFO and `status` changes. That the returned value stands
in `result` is the model's choice (log entry 6). -/
def Obligations.LogAppendOrOverflow : Prop :=
  ∀ (record : List Byte) (s : State), Ready s → FifoLegal s →
    ∃ t, exec (.logAppend record) s = .next t ∧ Appended record s t ∧
      t = { s with fifo := t.fifo, status := t.status,
                   env := { s.env with result := .count (min record.length (s.size - 1 - s.logBytes.length)) } }

/-- R194: from an empty LOG, records of total length up to `N - 1` are all kept, and the first record that takes the
total above `N - 1` overflows, leaves the LOG empty and is itself lost. -/
def Obligations.LogOverflowsAboveCapacity : Prop :=
  ∀ (records : List (List Byte)) (last : List Byte) (s : State), Ready s → FifoLegal s → s.fifo.head = s.fifo.tail →
    records.flatten.length ≤ s.size - 1 → s.size - 1 < records.flatten.length + last.length →
    ∃ t u, execAll (records.map Instr.logAppend) s = .next t ∧ t.logBytes = records.flatten ∧ t.status = s.status ∧
      exec (.logAppend last) t = .next u ∧ u.logBytes = [] ∧ u.fifo.head = 0 ∧ u.fifo.tail = 0 ∧
      u.status = s.status ||| 0x01

/-- R196: RL_EMIT with data available sends one chunk of the oldest bytes, at most 255 and at most `N - 1`, that does not
cross the physical end; `tail` stays. READLOG and LOG_DRAIN take the same step. -/
def Obligations.DrainEmitsChunk : Prop :=
  ∀ (i : Instr) (s : State), i = .readlog ∨ i = .logDrain → Ready s → FifoLegal s → s.seq.phase = .rlEmit →
    s.fifo.head ≠ s.fifo.tail →
    ∃ len : BitVec 8,
      len.toNat = min (s.fifo.avail s.size) 255 ∧ 1 ≤ len.toNat ∧ len.toNat ≤ s.size - 1 ∧
      s.fifo.tail.toNat + len.toNat ≤ s.size ∧
      exec i s = .next { s with
        ports := { s.ports with txq := s.ports.txq ++ len :: s.logBytes.take len.toNat }
        seq := { s.seq with chunkLen := len, phase := .rlAdvance }
        fifo := { s.fifo with readOpen := true } }

/-- R197: RL_EMIT with the FIFO empty sends the terminator, clears `LOG_OVERFLOW` only, and returns MAIN to POLL. -/
def Obligations.DrainTerminatorClearsOverflow : Prop :=
  ∀ (i : Instr) (s : State), i = .readlog ∨ i = .logDrain → Ready s → FifoLegal s → s.seq.phase = .rlEmit →
    s.fifo.head = s.fifo.tail →
    ∃ t, exec i s = .next t ∧
      t = { s with ports := { s.ports with txq := s.ports.txq ++ [0x00] }, status := t.status,
                   seq := { s.seq with phase := .poll } } ∧
      t.status.getLsbD 0 = false ∧ ∀ k, 0 < k → t.status.getLsbD k = s.status.getLsbD k

/-- R198: RL_ADVANCE closes the chunk and advances `tail` past it, or raises `RESET_DURING_READ` when a reset landed in
the open chunk (R334: the fault is recorded, MAIN halts, and nothing more is written). That the raising step answers a
next state, in which `readOpen` is already 0, is log entry 13. -/
def Obligations.DrainAdvanceOrFault : Prop :=
  ∀ (i : Instr) (s : State), i = .readlog ∨ i = .logDrain → Ready s → s.seq.phase = .rlAdvance →
    (s.fifo.spoiled = false → exec i s = .next { s with
      fifo := { s.fifo with readOpen := false,
                            tail := BitVec.ofNat 16 ((s.fifo.tail.toNat + s.seq.chunkLen.toNat) % s.size) }
      seq := { s.seq with phase := .rlEmit } }) ∧
    (s.fifo.spoiled = true → exec i s = .next { s with
      fifo := { s.fifo with readOpen := false }
      faults := [.resetDuringRead]
      seq := { s.seq with phase := .haltedByFault } })

/-- R195, R120, R121: a drain that no other agent interrupts ends: it sends length-prefixed chunks whose payloads are
exactly the buffered bytes in order, then one zero byte; the LOG is then empty and `LOG_OVERFLOW` clear.
R199: appends between its steps are drained too, and while one comes for every chunk the drain goes on, however many
come; one byte a record is enough for that. -/
def Obligations.DrainStreamsWholeLog : Prop :=
  (∀ s : State, Ready s → FifoLegal s → s.seq.phase = .rlEmit → s.fifo.spoiled = false →
    ∃ (chunks : List (List Byte)) (t : State),
      execAll (List.replicate (2 * chunks.length + 1) .readlog) s = .next t ∧
      chunks.flatten = s.logBytes ∧ (∀ c ∈ chunks, 1 ≤ c.length ∧ c.length ≤ min (s.size - 1) 255) ∧
      t.ports.txq = s.ports.txq ++ chunks.flatMap (fun c => BitVec.ofNat 8 c.length :: c) ++ [0x00] ∧
      t.seq.phase = .poll ∧ t.logBytes = [] ∧ t.status.getLsbD 0 = false ∧ t.faults = [] ∧
      t.engine = s.engine ∧ t.ind = s.ind) ∧
  ∀ (bs : List Byte) (s : State), Ready s → FifoLegal s → s.seq.phase = .rlEmit → s.fifo.spoiled = false →
    s.logBytes ≠ [] → s.logBytes.length < s.size - 1 →
    ∃ (chunks : List (List Byte)) (t : State),
      execAll (bs.flatMap fun b => [.readlog, .logAppend [b], .readlog]) s = .next t ∧
      chunks.length = bs.length ∧ chunks.flatten ++ t.logBytes = s.logBytes ++ bs ∧
      t.ports.txq = s.ports.txq ++ chunks.flatMap (fun c => BitVec.ofNat 8 c.length :: c) ∧
      t.seq.phase = .rlEmit ∧ t.logBytes ≠ [] ∧ t.faults = []

/-! ### The protocol engine -/

/-- R222, R231: an edge while `Sending` emits the next slot, clears `pending` with the last one, and leaves the receive
state and the three frame registers, whatever `rxLow` is. -/
def Obligations.EdgeTransmitsSlot : Prop :=
  ∀ (rxLow : Bool) (s : State), Ready s → s.engine.pending = true → s.engine.txSlot.toNat < 44 + s.cfg.txGapSlots →
    ∃ b, (txSlots s.cfg s.engine.houseReg s.engine.unitReg s.engine.cmdReg)[s.engine.txSlot.toNat]? = some b ∧
      exec (.peEdge rxLow) s = .next { s with
        ports := { s.ports with lineTrace := s.ports.lineTrace ++ [b] }
        engine := if s.engine.txSlot.toNat = 44 + s.cfg.txGapSlots - 1
          then { s.engine with pending := false, txSlot := 0 }
          else { s.engine with txSlot := s.engine.txSlot + 1 } }

/-- R223, R224: an edge of the quiet window only counts it down; an edge in `Idle` outside it starts a frame when the
line is low and changes nothing when it is high. -/
def Obligations.EdgeQuietOrStart : Prop :=
  ∀ (rxLow : Bool) (s : State), Ready s → s.engine.pending = false →
    (s.engine.rxQuiet ≠ 0 →
      exec (.peEdge rxLow) s = .next { s with engine := { s.engine with rxQuiet := s.engine.rxQuiet - 1 } }) ∧
    (s.engine.rxQuiet = 0 → s.engine.bitCount = 0 →
      exec (.peEdge false) s = .next s ∧
      exec (.peEdge true) s = .next { s with
        engine := { s.engine with acc := 0x1C00, mask := 0x0800, bitCount := 1, edgeCount := 1 } })

/-- R225, R226: an edge inside a frame counts it; with `bitCount <= 4` or an odd new `edgeCount` the sample taken at
`bitCount = k` lands in `acc[12 - k]`, and otherwise nothing else changes. -/
def Obligations.EdgeSamplesOrSkips : Prop :=
  ∀ (rxLow : Bool) (s : State), Ready s → EngineInv s.cfg s.engine → s.engine.pending = false →
    s.engine.rxQuiet = 0 → 1 ≤ s.engine.bitCount.toNat → s.engine.bitCount.toNat ≤ 12 →
    (s.engine.bitCount.toNat ≤ 4 ∨ (s.engine.edgeCount.toNat + 1) % 2 = 1 →
      exec (.peEdge rxLow) s = .next { s with engine := { s.engine with
        edgeCount := s.engine.edgeCount + 1
        acc := if rxLow then s.engine.acc ||| (1#16 <<< (12 - s.engine.bitCount.toNat)) else s.engine.acc
        mask := s.engine.mask >>> 1
        bitCount := s.engine.bitCount + 1 } }) ∧
    (4 < s.engine.bitCount.toNat → (s.engine.edgeCount.toNat + 1) % 2 = 0 →
      exec (.peEdge rxLow) s = .next { s with engine := { s.engine with edgeCount := s.engine.edgeCount + 1 } })

/-- R227, R229: the edge that completes a unit frame stores the house and the pending unit, appends nothing, and starts the
quiet window. -/
def Obligations.EdgeCompletesUnitFrame : Prop :=
  ∀ (rxLow : Bool) (s : State), Ready s → s.engine.pending = false → s.engine.rxQuiet = 0 → s.engine.bitCount = 13 →
    s.engine.acc.getLsbD 0 = false →
    exec (.peEdge rxLow) s = .next { s with engine := { s.engine with
      houseReg := BitVec.ofNat 4 (s.engine.acc.toNat / 32), unitReg := BitVec.ofNat 4 (s.engine.acc.toNat / 2)
      bitCount := 0, edgeCount := 0, rxQuiet := BitVec.ofNat 8 s.cfg.rxQuietEdges } }

/-- R227, R228: the edge that completes a command frame appends one X10_RECV record with the received command, the
frame's house letter and the pending unit's number, clears the three registers and starts the quiet window. -/
def Obligations.EdgeCompletesCommandFrame : Prop :=
  ∀ (rxLow : Bool) (s : State), Ready s → FifoLegal s → s.engine.pending = false → s.engine.rxQuiet = 0 →
    s.engine.bitCount = 13 → s.engine.acc.getLsbD 0 = true →
    ∃ t, exec (.peEdge rxLow) s = .next t ∧
      Appended [0x05, BitVec.ofNat 8 (s.engine.acc.toNat / 2 % 16),
        houseLetter (BitVec.ofNat 4 (s.engine.acc.toNat / 32)), unitNumber s.engine.unitReg] s t ∧
      t = { s with fifo := t.fifo, status := t.status, engine := { s.engine with
        houseReg := 0, unitReg := 0, cmdReg := 0, bitCount := 0, edgeCount := 0
        rxQuiet := BitVec.ofNat 8 s.cfg.rxQuietEdges } }

/-- R221: from the send-start on, `TX_LEN` edges, with any levels, transmit exactly the send's slots and end the
transmission; the receive state and all else are left. -/
def Obligations.SendTransmitsAllSlots : Prop :=
  ∀ (levels : List Bool) (s : State), Ready s → s.engine.pending = true → s.engine.txSlot = 0 →
    levels.length = 44 + s.cfg.txGapSlots →
    execAll (levels.map Instr.peEdge) s = .next { s with
      ports := { s.ports with lineTrace :=
        s.ports.lineTrace ++ txSlots s.cfg s.engine.houseReg s.engine.unitReg s.engine.cmdReg }
      engine := { s.engine with pending := false } }

/-- R230: the 22 slots of a frame, fed to an `Idle` engine outside the quiet window, are decoded: a unit frame's fields
are stored, a command frame appends its record; the engine is `Idle` again, with the quiet window begun. -/
def Obligations.ReceivedFrameIsDecoded : Prop :=
  ∀ (h k : BitVec 4) (f : Bool) (s : State), Ready s → FifoLegal s → s.engine.pending = false →
    s.engine.rxQuiet = 0 → s.engine.bitCount = 0 →
    ∃ t, execAll ((frameSlots h k f).map Instr.peEdge) s = .next t ∧
      t = { s with fifo := t.fifo, status := t.status, engine := t.engine } ∧
      t.engine.pending = false ∧ t.engine.txSlot = s.engine.txSlot ∧ t.engine.bitCount = 0 ∧ t.engine.edgeCount = 0 ∧
      t.engine.rxQuiet.toNat = s.cfg.rxQuietEdges ∧
      (f = false → t.engine.houseReg = h ∧ t.engine.unitReg = k ∧ t.engine.cmdReg = s.engine.cmdReg ∧
        t.fifo = s.fifo ∧ t.status = s.status) ∧
      (f = true → Appended [0x05, k.setWidth 8, houseLetter h, unitNumber s.engine.unitReg] s t ∧
        t.engine.houseReg = 0 ∧ t.engine.unitReg = 0 ∧ t.engine.cmdReg = 0)

/-- R234 with R130: what the encoder transmits, the decoder receives. The slots of a send, fed to an `Idle` engine
outside the quiet window, append exactly one record: the command, the house letter and the unit number sent. -/
def Obligations.TransmissionIsReceived : Prop :=
  ∀ (h u c : BitVec 4) (s : State), Ready s → FifoLegal s → s.engine.pending = false →
    s.engine.rxQuiet = 0 → s.engine.bitCount = 0 →
    ∃ t, execAll ((txSlots s.cfg h u c).map Instr.peEdge) s = .next t ∧
      Appended [0x05, c.setWidth 8, houseLetter h, unitNumber u] s t ∧
      t = { s with fifo := t.fifo, status := t.status, engine := t.engine }

/-- R246, R305: in `SC_WAIT_IDLE` MAIN goes on exactly when the engine is `Idle`, the quiet window included. That a
hold is a step without effect is the model's choice (log entry 4). That the operands are latched into the parameter
registers is the model's choice (log entry 5). -/
def Obligations.SendWaitsForIdle : Prop :=
  ∀ (i : Instr) (c h u : Byte) (s : State), i = .peSend c h u ∨ i = .sendcode c h u → Ready s →
    s.seq.phase = .scWaitIdle →
    (s.engine.pending = false → s.engine.bitCount = 0 → exec i s = .next { s with
      seq := { s.seq with phase := .scStart, argCmd := c, argHouse := h, argUnit := u } }) ∧
    (s.engine.pending = true ∨ s.engine.bitCount ≠ 0 → exec i s = .next s)

/-- R245, R306: a send whose house and unit have a table entry, and whose command is at most 15 or truncated by
policy, loads the frame registers and starts transmission. That the operands are latched into the parameter registers
is the model's choice (log entry 5). -/
def Obligations.SendStartLoadsFrame : Prop :=
  ∀ (i : Instr) (c h u : Byte) (hi ui : BitVec 4) (s : State), i = .peSend c h u ∨ i = .sendcode c h u → Ready s →
    s.seq.phase = .scStart → houseLetter hi = h → unitNumber ui = u →
    (c.toNat ≤ 15 ∨ s.cfg.cmdHighPolicy = .truncate) →
    exec i s = .next { s with
      engine := { s.engine with houseReg := hi, unitReg := ui, cmdReg := BitVec.ofNat 4 c.toNat, txSlot := 0,
                                pending := true }
      seq := { s.seq with phase := .scWaitDone, argCmd := c, argHouse := h, argUnit := u } }

/-- R245, R306, R307: every other send fails: the three registers are cleared, the reply is `0x01`, and `pending` is
not set. That PE_SEND's result also stands in `result` is the model's choice (log entry 6). That the operands are
latched into the parameter registers is the model's choice (log entry 5).
That PE_SEND sends the reply byte and returns MAIN to POLL, as SENDCODE does, is log entry 15. -/
def Obligations.SendStartFailureReplies : Prop :=
  ∀ (i : Instr) (c h u : Byte) (s : State), i = .peSend c h u ∨ i = .sendcode c h u → Ready s →
    s.seq.phase = .scStart →
    ((∀ hi, houseLetter hi ≠ h) ∨ (∀ ui, unitNumber ui ≠ u) ∨ (15 < c.toNat ∧ s.cfg.cmdHighPolicy = .reject)) →
    exec i s = .next { s with
      engine := { s.engine with houseReg := 0, unitReg := 0, cmdReg := 0 }
      ports := { s.ports with txq := s.ports.txq ++ [0x01] }
      env := { s.env with result := .code 0x01 }
      seq := { s.seq with phase := .poll, argCmd := c, argHouse := h, argUnit := u } }

/-- R248, R308: in `SC_WAIT_DONE` MAIN replies `0x00` exactly when `pending = 0`, and holds until then. That the
returned value stands in `result` is the model's choice (log entry 6). That the operands are latched into the
parameter registers is the model's choice (log entry 5). That a hold is a step without effect is the model's choice
(log entry 4).
That PE_SEND sends the reply byte and returns MAIN to POLL, as SENDCODE does, is log entry 15. -/
def Obligations.SendDoneReplies : Prop :=
  ∀ (i : Instr) (c h u : Byte) (s : State), i = .peSend c h u ∨ i = .sendcode c h u → Ready s →
    s.seq.phase = .scWaitDone →
    (s.engine.pending = false → exec i s = .next { s with
      ports := { s.ports with txq := s.ports.txq ++ [0x00] }
      env := { s.env with result := .code 0x00 }
      seq := { s.seq with phase := .poll, argCmd := c, argHouse := h, argUnit := u } }) ∧
    (s.engine.pending = true → exec i s = .next s)

/-! ### The indicator -/

/-- R270: a pulse request overwrites `remaining` and nothing else; a duration above 65535 is refused. -/
def Obligations.PulseRequestOverwrites : Prop :=
  ∀ (d : Nat) (s : State), Ready s →
    (d ≤ 65535 → ∃ r : BitVec 16, r.toNat = d ∧
      exec (.indPulse d) s = .next { s with ind := { s.ind with remaining := r } }) ∧
    (65535 < d → exec (.indPulse d) s = .refused .pulseTooLong)

/-- R271, R272, R276: a tick increments `uptime` modulo `2^32`, counts `remaining` down, turns the indicator off, and
pulses when `remaining` was above 0 and the new `uptime` is a multiple of 8. -/
def Obligations.TickCountsAndPulses : Prop :=
  ∀ s : State, Ready s →
    ∃ (v : BitVec 32) (r : BitVec 16),
      v.toNat = (s.ind.uptime.toNat + 1) % 2 ^ 32 ∧ r.toNat = s.ind.remaining.toNat - 1 ∧
      exec .tmrTick s = .next { s with
        ind := { remaining := r, uptime := v, indOut := false }
        ports := { s.ports with indTrace :=
          if 0 < s.ind.remaining.toNat ∧ v.toNat % 8 = 0 then s.ports.indTrace ++ [v] else s.ports.indTrace } }

/-- R273: after a request for `d` ticks at `uptime = u0`, `n` ticks pulse exactly at the values `u0 + j` with `1 <= j <= d`
and `(u0 + j) mod 8 = 0`, and `remaining` has counted down to 0 after `d` of them. -/
def Obligations.PulseTrainOfRequest : Prop :=
  ∀ (d n : Nat) (s : State), Ready s → d ≤ 65535 →
    ∃ t, execAll (.indPulse d :: List.replicate n .tmrTick) s = .next t ∧
      t.ind.remaining.toNat = d - n ∧ t.ind.uptime.toNat = (s.ind.uptime.toNat + n) % 2 ^ 32 ∧
      t.ports.indTrace.map BitVec.toNat = s.ports.indTrace.map BitVec.toNat ++
        ((List.range n).filter fun j => j + 1 ≤ d ∧ (s.ind.uptime.toNat + (j + 1)) % 8 = 0).map
          fun j => (s.ind.uptime.toNat + (j + 1)) % 2 ^ 32

/-! ### Host commands -/

/-- R290: a host byte is appended to `rxq` and nothing else changes. -/
def Obligations.HostByteArrives : Prop :=
  ∀ (b : Byte) (s : State), Ready s →
    exec (.hostByte b) s = .next { s with ports := { s.ports with rxq := s.ports.rxq ++ [b] } }

/-- R292, R295: in POLL, MAIN_POLL takes the oldest host byte into `cmdByte` and goes to the phase it selects; it
holds while `rxq` is empty. That a hold is a step without effect is the model's choice (log entry 4). -/
def Obligations.MainPollReadsCommand : Prop :=
  ∀ s : State, Ready s → s.seq.phase = .poll →
    (∀ b rest, s.ports.rxq = b :: rest → exec .mainPoll s = .next { s with
      ports := { s.ports with rxq := rest }
      seq := { s.seq with cmdByte := b, phase :=
        if b = 0x01 then .ping else if b = 0x02 then .uptime else if b = 0x03 then .status
        else if b = 0x04 then .rlEmit else if b = 0x05 then .scArg1 else .invalid } }) ∧
    (s.ports.rxq = [] → exec .mainPoll s = .next s)

/-- R293: PING appends `[0x03]` and replies `P,O,N,G`, whatever the engine's state. -/
def Obligations.PingReplies : Prop :=
  ∀ s : State, Ready s → FifoLegal s → s.seq.phase = .ping →
    ∃ t, exec .ping s = .next t ∧ Appended [0x03] s t ∧ KeepsEngineAndInd s t ∧
      t.seq = { s.seq with phase := .poll } ∧
      t.ports = { s.ports with txq := s.ports.txq ++ [0x50, 0x4F, 0x4E, 0x47] }

/-- R294, R84: UPTIME appends `[0x04]` and replies the four bytes of `uptime`, least significant first. -/
def Obligations.UptimeReplies : Prop :=
  ∀ s : State, Ready s → FifoLegal s → s.seq.phase = .uptime →
    ∃ (t : State) (b0 b1 b2 b3 : Byte), exec .uptime s = .next t ∧ Appended [0x04] s t ∧ KeepsEngineAndInd s t ∧
      b0.toNat + 256 * b1.toNat + 65536 * b2.toNat + 16777216 * b3.toNat = s.ind.uptime.toNat ∧
      t.seq = { s.seq with phase := .poll } ∧
      t.ports = { s.ports with txq := s.ports.txq ++ [b0, b1, b2, b3] }

/-- R296: STATUS replies `status`, which is `0x00` or `0x01` in a good state; no record is appended and `status` is not
changed. -/
def Obligations.StatusReplies : Prop :=
  ∀ s : State, Ready s → s.seq.phase = .status →
    exec .status s = .next { s with
      ports := { s.ports with txq := s.ports.txq ++ [s.status] }
      seq := { s.seq with phase := .poll } } ∧
    (CoreInv s → s.status = 0x00 ∨ s.status = 0x01)

/-- R298: INVALID replies `0xFF` and appends `[0x02, offendingByte]`. That the operand is latched into `cmdByte` is
the model's choice (log entry 5). -/
def Obligations.InvalidReplies : Prop :=
  ∀ (b : Byte) (s : State), Ready s → FifoLegal s → s.seq.phase = .invalid →
    ∃ t, exec (.invalid b) s = .next t ∧ Appended [0x02, b] s t ∧ KeepsEngineAndInd s t ∧
      t.seq = { s.seq with phase := .poll, cmdByte := b } ∧
      t.ports = { s.ports with txq := s.ports.txq ++ [0xFF] }

/-- R299 to R301: SENDCODE reads its three parameter bytes one step at a time, in the order command, house, unit, and
holds while `rxq` is empty. That the operands are latched into the parameter registers is the model's choice (log
entry 5). That a hold is a step without effect is the model's choice (log entry 4). -/
def Obligations.SendcodeReadsParameters : Prop :=
  ∀ (c h u : Byte) (s : State), Ready s →
    (∀ b rest, s.ports.rxq = b :: rest →
      (s.seq.phase = .scArg1 → exec (.sendcode c h u) s = .next { s with
        ports := { s.ports with rxq := rest }
        seq := { s.seq with phase := .scArg2, argCmd := b, argHouse := h, argUnit := u } }) ∧
      (s.seq.phase = .scArg2 → exec (.sendcode c h u) s = .next { s with
        ports := { s.ports with rxq := rest }
        seq := { s.seq with phase := .scArg3, argCmd := c, argHouse := b, argUnit := u } }) ∧
      (s.seq.phase = .scArg3 → exec (.sendcode c h u) s = .next { s with
        ports := { s.ports with rxq := rest }
        seq := { s.seq with phase := .scLog, argCmd := c, argHouse := h, argUnit := b } })) ∧
    (s.ports.rxq = [] → s.seq.phase = .scArg1 ∨ s.seq.phase = .scArg2 ∨ s.seq.phase = .scArg3 →
      exec (.sendcode c h u) s = .next s)

/-- R302, R119: SC_LOG appends `[0x06, command, house, unit]` with the parameters as received, before any validation.
That the operands are latched into the parameter registers is the model's choice (log entry 5). -/
def Obligations.SendcodeLogsRequest : Prop :=
  ∀ (c h u : Byte) (s : State), Ready s → FifoLegal s → s.seq.phase = .scLog →
    ∃ t, exec (.sendcode c h u) s = .next t ∧ Appended [0x06, c, h, u] s t ∧ KeepsEngineAndInd s t ∧
      t.seq = { s.seq with phase := .scWaitIdle, argCmd := c, argHouse := h, argUnit := u } ∧ t.ports = s.ports

/-! ### Reset -/

/-- R370, R371, R66: RESET runs in every state without a fault and leaves every element at its reset value, with the
Startup record in the LOG. The parameters and the environment's script stay (log entries 1 and 2), and storage is a fresh
unspecified one (log entry 3). The states after reset have those values too. -/
def Obligations.ResetReachesResetValues : Prop :=
  (∀ s : State, Ready s →
    ∃ t, exec .reset s = .next t ∧ ResetValues t ∧ t.cfg = s.cfg ∧ t.env.script = s.env.script ∧ t.env.turn = s.env.turn) ∧
  ∀ cfg : Config, ResetValues (State.resetWith cfg) ∧ (State.resetWith cfg).cfg = cfg

/-! ### Invariants of the whole core -/

/-- The invariant holds after reset, for every admitted configuration. -/
def Obligations.ResetStateIsGood : Prop :=
  ∀ cfg : Config, Config.ok cfg = true → CoreInv (State.resetWith cfg) ∧ Written (State.resetWith cfg)

/-- Every step of the core keeps the invariant: indices and counters in their legal ranges, storage canonical, reserved
status bits 0, the receiver's bit timing as R230 gives it, and the phase in agreement with the engine and the faults. -/
def Obligations.StepKeepsInvariant : Prop :=
  ∀ s t : State, CoreInv s → step s = .next t → CoreInv t

/-- R33: every buffered byte has been written, and every operation keeps it so, but for FIFO_INIT, FIFO_READ_DRAIN and
FIFO_READ under an open drain chunk. These move `tail` under the chunk when they stand alone, which no agent of the core
does; that they run there at all is the model's choice (log entry 7). -/
def Obligations.StepKeepsBufferedBytesWritten : Prop :=
  ∀ (i : Instr) (s t : State), CoreInv s → Written s → (s.fifo.readOpen = true → movesTail i = false) →
    exec i s = .next t → Written t

/-- R33: the unspecified contents of storage cannot be observed. Two states that differ only in what unwritten bytes read as
take the same step, to states that differ only in that. -/
def Obligations.UnwrittenStorageUnobservable : Prop :=
  ∀ (e : Nat) (i : Instr) (s : State), CoreInv s → Written s →
    (∀ t, exec i s = .next t → ∃ e', exec i (State.withEpoch e s) = .next (State.withEpoch e' t)) ∧
    (∀ r, exec i s = .fault r → exec i (State.withEpoch e s) = .fault r) ∧
    (∀ r, exec i s = .refused r → exec i (State.withEpoch e s) = .refused r)

/-! ### Rules over all operations -/

/-- R334: once a fault has been raised no agent has a step, RESET included. That "no step" is answered as the fault
`noStepAfterFault` is the model's form of it (log entry 13). -/
def Obligations.NoStepAfterFault : Prop :=
  ∀ s : State, s.faults ≠ [] → step s = .fault .noStepAfterFault ∧ ∀ i, exec i s = .fault .noStepAfterFault

/-- R333, R9, R193: what is refused, and nothing else is. A configuration outside the ranges of R9 is refused by every
operation; with `N` in `[2, 4]` only the FIFO's own operations run. In an admitted configuration every operation has a
next state, but for FIFO_INIT with another capacity and IND_PULSE with a duration above 65535. That a MAIN step which
is not enabled has a next state (log entry 4), that a step which raises a fault has one (log entry 13), and that the
FIFO's operations run standing alone (log entry 7), are the model's choices. -/
def Obligations.OnlySpecifiedRefusals : Prop :=
  ∀ (i : Instr) (s : State), s.faults = [] →
    (¬ (2 ≤ s.size ∧ s.size ≤ 65535 ∧ s.cfg.rxQuietEdges ≤ s.cfg.txGapSlots ∧ 1 ≤ s.cfg.txGapSlots ∧
        s.cfg.txGapSlots ≤ 200) → exec i s = .refused .badConfiguration) ∧
    (fifoOnly i = false → s.size < 5 → exec i s = .refused .badConfiguration) ∧
    (Ready s ∨ (fifoOnly i = true ∧ FifoReady s) →
      (∃ t, exec i s = .next t) ∨
      (∃ n, i = .fifoInit n ∧ n ≠ s.size ∧ exec i s = .refused .wrongCapacity) ∨
      (∃ d, i = .indPulse d ∧ 65535 < d ∧ exec i s = .refused .pulseTooLong))

/-- R65, R276, R54: no operation changes a parameter, and none other than TMR_TICK and RESET writes `uptime`. -/
def Obligations.ParametersAndUptimeWriters : Prop :=
  ∀ (i : Instr) (s t : State), exec i s = .next t →
    t.cfg = s.cfg ∧ (i ≠ .tmrTick → i ≠ .reset → t.ind.uptime = s.ind.uptime)

/-- R39 to R41: apart from RESET, only the end of a drain clears `LOG_OVERFLOW`, and no operation writes the other bits of
`status`. -/
def Obligations.OverflowStickyReservedFixed : Prop :=
  ∀ (i : Instr) (s t : State), exec i s = .next t → i ≠ .reset →
    (∀ k, 0 < k → t.status.getLsbD k = s.status.getLsbD k) ∧
    (s.status.getLsbD 0 = true → t.status.getLsbD 0 = true ∨
      ((i = .readlog ∨ i = .logDrain) ∧ s.seq.phase = .rlEmit ∧ s.fifo.avail s.size = 0))

/-- R51: MAIN writes the engine only in its send-start step, and no other agent but EDGE and RESET writes it. -/
def Obligations.EngineWritersAreEdgeAndSendStart : Prop :=
  ∀ (i : Instr) (s t : State), exec i s = .next t → t.engine ≠ s.engine →
    (∃ l, i = .peEdge l) ∨ i = .reset ∨
    (s.seq.phase = .scStart ∧ ∃ c h u, i = .peSend c h u ∨ i = .sendcode c h u)

/-- R344, R277: the interrupt handlers leave MAIN's phase, its registers and the host queues; the timer's touches only
`uptime`, `remaining`, `indOut` and `indTrace`; the edge's leaves the indicator. -/
def Obligations.InterruptsLeaveMain : Prop :=
  ∀ (rxLow : Bool) (s t : State),
    (exec (.peEdge rxLow) s = .next t → t.seq = s.seq ∧ t.ports.rxq = s.ports.rxq ∧ t.ports.txq = s.ports.txq ∧
      t.ports.indTrace = s.ports.indTrace ∧ t.ind = s.ind ∧ t.env = s.env ∧ t.faults = s.faults) ∧
    (exec .tmrTick s = .next t →
      t = { s with ind := t.ind, ports := { s.ports with indTrace := t.ports.indTrace } })

/-- R343: an edge and a tick that arrive together may be taken in either order. -/
def Obligations.EdgeAndTickCommute : Prop :=
  ∀ (rxLow : Bool) (s : State), Ready s →
    ∃ t, execAll [.peEdge rxLow, .tmrTick] s = .next t ∧ execAll [.tmrTick, .peEdge rxLow] s = .next t

/-- R247, R386: while a transmission is in progress MAIN does not pass its wait-done hold without the EDGE steps that
end it: operations that are neither PE_EDGE nor RESET leave MAIN in the hold, with nothing transmitted to the host.
That a hold is a step without effect is the model's choice (log entry 4). -/
def Obligations.SendHangsWithoutEdges : Prop :=
  ∀ (is : List Instr) (s t : State), s.seq.phase = .scWaitDone → s.engine.pending = true →
    (∀ i ∈ is, i ≠ .reset ∧ ∀ l, i ≠ .peEdge l) → execAll is s = .next t → t.faults = [] →
    t.seq.phase = .scWaitDone ∧ t.engine = s.engine ∧ t.ports.txq = s.ports.txq ∧
    t.ports.lineTrace = s.ports.lineTrace

/-- Outside the phases of an operation MAIN has no step of it, and nothing changes; and when a run has ended (R375) MAIN's
turn changes nothing. That a step which is not enabled leaves the state is the model's choice (log entry 4). -/
def Obligations.MainStepsOnlyInTheirPhase : Prop :=
  (∀ (i : Instr) (s : State), Ready s →
    (i = .mainPoll ∧ s.seq.phase ≠ .poll ∨ i = .ping ∧ s.seq.phase ≠ .ping ∨ i = .uptime ∧ s.seq.phase ≠ .uptime ∨
     i = .status ∧ s.seq.phase ≠ .status ∨ (∃ b, i = .invalid b) ∧ s.seq.phase ≠ .invalid ∨
     (i = .readlog ∨ i = .logDrain) ∧ s.seq.phase ≠ .rlEmit ∧ s.seq.phase ≠ .rlAdvance ∨
     (∃ c h u, i = .peSend c h u) ∧ s.seq.phase ∉ [.scWaitIdle, .scStart, .scWaitDone] ∨
     (∃ c h u, i = .sendcode c h u) ∧
       s.seq.phase ∉ [.scArg1, .scArg2, .scArg3, .scLog, .scWaitIdle, .scStart, .scWaitDone]) →
    exec i s = .next s) ∧
  ∀ s : State, Ready s → RunEnded s → exec (mainInstr s) s = .next s
end

