-- ==== Sys2Proof/Laws/Codec.lean ====
section
/-! SUPPORT. Each operand reader takes back what its writer put, so that a round trip is proved operand by operand. -/

namespace Sys2Proof

@[simp] theorem Parsed.andThen_ok {α β : Type} (a : α) (rest : List Byte) (k : α → List Byte → Parsed β) :
    Parsed.andThen (.ok (a, rest)) k = k a rest := rfl

@[simp] theorem takeByte_cons (b : Byte) (rest : List Byte) : takeByte (b :: rest) = .ok (b, rest) := rfl

theorem takeHalf_putHalf {n : Nat} (h : n < 65536) (rest : List Byte) : takeHalf (putHalf n ++ rest) = .ok (n, rest) := by
  simp only [putHalf, takeHalf, List.cons_append, List.nil_append, takeByte_cons, Parsed.andThen_ok, BitVec.toNat_ofNat]
  congr 2; omega

theorem takeWord_putWord {n : Nat} (h : n < 4294967296) (rest : List Byte) :
    takeWord (putWord n ++ rest) = .ok (n, rest) := by
  have lo : putHalf n = putHalf (n % 65536) := by
    simp only [putHalf, List.cons.injEq, and_true, ← BitVec.toNat_inj, BitVec.toNat_ofNat]; omega
  simp only [putWord, takeWord, List.append_assoc, lo, takeHalf_putHalf (show n % 65536 < 65536 by omega),
    takeHalf_putHalf (show n / 65536 < 65536 by omega), Parsed.andThen_ok]
  congr 2; omega

theorem takeBytes_append (bs rest : List Byte) : takeBytes bs.length (bs ++ rest) = .ok (bs, rest) := by
  induction bs with
  | nil => rfl
  | cons b bs ih => simp [takeBytes, ih]

theorem takeHalves_putHalves (cs : List Nat) (rest : List Byte) (h : ∀ c ∈ cs, c < 65536) :
    takeHalves cs.length (cs.flatMap putHalf ++ rest) = .ok (cs, rest) := by
  induction cs with
  | nil => rfl
  | cons c cs ih =>
    have hc := h c List.mem_cons_self
    simp [takeHalves, List.append_assoc, takeHalf_putHalf hc, ih fun d hd => h d (List.mem_cons_of_mem _ hd)]

theorem takeBlock_putBlock {bs : List Byte} (h : bs.length < 65536) (rest : List Byte) :
    takeBlock (putBlock bs ++ rest) = .ok (bs, rest) := by
  simp [takeBlock, putBlock, List.append_assoc, takeHalf_putHalf h, takeBytes_append]

theorem takeLimit_putLimit {m : Limit} (h : m.wf = true) (rest : List Byte) :
    takeLimit (putLimit m ++ rest) = .ok (m, rest) := by
  cases m with
  | upTo n =>
    have hn : n < 4294967296 := by simpa [Limit.wf, fitsWord] using h
    simp [takeLimit, putLimit, takeWord_putWord hn]
  | inf => rfl

end Sys2Proof
end

