-- ==== Sys2Proof/Laws/Fifo.lean ====
section
/-! SUPPORT. The FIFO as a queue: index arithmetic, what an insert writes and what it leaves, and the contents after each
operation (spec/40_fifo.md R161 to R167). `n` is the storage size, at most 65535, so that an index register holds every
index (D4). -/

namespace Sys2Proof.Machine

/-! ### Index arithmetic -/

theorem indexAdd_toNat {n : Nat} (i : BitVec 16) (k : Nat) (hn : n ≤ 65535) (h0 : 0 < n) :
    (indexAdd n i k).toNat = (i.toNat + k) % n := by
  have := Nat.mod_lt (i.toNat + k) h0
  simp only [indexAdd, BitVec.toNat_ofNat]
  exact Nat.mod_eq_of_lt (by omega)

/-- A sum of an index and an offset wraps at most once. -/
theorem wrap_eq {n a k : Nat} (ha : a < n) (hk : k ≤ n) : (a + k) % n = if a + k < n then a + k else a + k - n := by
  split
  · exact Nat.mod_eq_of_lt ‹_›
  · rw [Nat.mod_eq_sub_mod (by omega), Nat.mod_eq_of_lt (by omega)]

/-- Different offsets below `n` reach different indices. -/
theorem wrap_ne {n a i j : Nat} (ha : a < n) (hi : i < n) (hj : j < n) (h : i ≠ j) : (a + i) % n ≠ (a + j) % n := by
  rw [wrap_eq ha hi.le, wrap_eq ha hj.le]; split <;> split <;> omega

/-- `count()` in the two layouts of the buffered data. -/
theorem Fifo.count_eq {n : Nat} {f : Fifo} (hh : f.head.toNat < n) (ht : f.tail.toNat < n) :
    f.count n = if f.tail.toNat ≤ f.head.toNat then f.head.toNat - f.tail.toNat
      else f.head.toNat + n - f.tail.toNat := by
  rw [Fifo.count, Nat.mod_eq_of_lt ht, wrap_eq hh (by omega)]
  split <;> split <;> omega

/-- `count() <= N - 1` always (R36). -/
theorem Fifo.count_lt {n : Nat} (f : Fifo) (h0 : 0 < n) : f.count n < n := Nat.mod_lt _ h0

/-- `head` is `count()` bytes past `tail`. -/
theorem Fifo.head_eq {n : Nat} {f : Fifo} (hh : f.head.toNat < n) (ht : f.tail.toNat < n) :
    f.head.toNat = (f.tail.toNat + f.count n) % n := by
  rw [Fifo.count_eq hh ht, wrap_eq ht (by split <;> omega)]
  split <;> split <;> omega

/-- The contiguous run never exceeds the true count (R162). -/
theorem Fifo.avail_le_count {n : Nat} {f : Fifo} (hh : f.head.toNat < n) (ht : f.tail.toNat < n) :
    f.avail n ≤ f.count n := by
  rw [Fifo.count_eq hh ht, Fifo.avail]; split <;> omega

/-- A run never crosses the physical end (R164). -/
theorem Fifo.tail_add_avail_le {n : Nat} {f : Fifo} (_hh : f.head.toNat < n) (ht : f.tail.toNat < n) :
    f.tail.toNat + f.avail n ≤ n := by
  rw [Fifo.avail]; split <;> omega

/-- FIFO_AVAIL is 0 exactly when the FIFO is empty (R162). -/
theorem Fifo.avail_eq_zero {n : Nat} {f : Fifo} (ht : f.tail.toNat < n) :
    f.avail n = 0 ↔ f.head = f.tail := by
  rw [Fifo.avail, ← BitVec.toNat_inj]; split <;> omega

theorem Fifo.count_eq_zero {n : Nat} {f : Fifo} (hh : f.head.toNat < n) (ht : f.tail.toNat < n) :
    f.count n = 0 ↔ f.head = f.tail := by
  rw [Fifo.count_eq hh ht, ← BitVec.toNat_inj]; split <;> omega

/-! ### Writing a run -/

theorem writeRun_other {n a : Nat} (m : Memory) (i : Nat) (bs : List Byte)
    (h : ∀ j < bs.length, a ≠ (i + j) % n) : (writeRun n m i bs).read? a = m.read? a := by
  induction bs generalizing m i with
  | nil => rfl
  | cons b bs ih =>
    rw [writeRun, ih]
    · exact Memory.read?_write_other _ _ _ _ (h 0 (by simp))
    · intro j hj
      have := h (j + 1) (by simpa using hj)
      rwa [← Nat.add_assoc, Nat.add_right_comm] at this

theorem writeRun_at {n i : Nat} (m : Memory) (bs : List Byte) (hi : i < n) (hl : bs.length ≤ n) {j : Nat}
    (hj : j < bs.length) : (writeRun n m i bs).read? ((i + j) % n) = some bs[j] := by
  suffices H : ∀ (bs : List Byte) (k : Nat) (m : Memory), k + bs.length ≤ n → ∀ j (hj : j < bs.length),
      (writeRun n m (i + k) bs).read? ((i + k + j) % n) = some bs[j] by
    simpa using H bs 0 m (by omega) j hj
  clear hl hj j m bs
  intro bs
  induction bs with
  | nil => intro k m _ j hj; simp at hj
  | cons b bs ih =>
    intro k m hk j hj
    simp only [List.length_cons] at hk hj
    rw [writeRun]
    cases j with
    | zero =>
      rw [writeRun_other, Nat.add_zero, Memory.read?_write_same]; simp
      intro j hj'
      rw [show i + k + 1 + j = i + (k + 1 + j) by omega, show i + k + 0 = i + k by omega]
      exact wrap_ne hi (by omega) (by omega) (by omega)
    | succ j =>
      have := ih (k + 1) (m.write ((i + k) % n) b) (by omega) j (by omega)
      simpa [Nat.add_assoc, Nat.add_comm, Nat.add_left_comm] using this

theorem writeRun_wf {n : Nat} {m : Memory} (i : Nat) (bs : List Byte) (h : m.wf) : (writeRun n m i bs).wf := by
  induction bs generalizing m i with
  | nil => exact h
  | cons b bs ih => exact ih _ (Memory.write_wf _ _ h)

theorem writeRun_in {n : Nat} {m : Memory} (i : Nat) (bs : List Byte) (h0 : 0 < n) (h : ∀ c ∈ m, c.1 < n) :
    ∀ c ∈ writeRun n m i bs, c.1 < n := by
  induction bs generalizing m i with
  | nil => exact h
  | cons b bs ih => exact ih _ (Memory.write_in b (Nat.mod_lt _ h0) h)

/-! ### FIFO_INSERT -/

theorem Fifo.writtenCount_le (n : Nat) (data : List Byte) (f : Fifo) :
    f.writtenCount n data ≤ data.length ∧ f.writtenCount n data ≤ n - 1 - f.count n :=
  ⟨Nat.min_le_left _ _, Nat.min_le_right _ _⟩

@[simp] theorem Fifo.insert_tail (n : Nat) (data : List Byte) (f : Fifo) : (f.insert n data).tail = f.tail := rfl
@[simp] theorem Fifo.insert_readOpen (n : Nat) (data : List Byte) (f : Fifo) :
    (f.insert n data).readOpen = f.readOpen := rfl
@[simp] theorem Fifo.insert_spoiled (n : Nat) (data : List Byte) (f : Fifo) :
    (f.insert n data).spoiled = f.spoiled := rfl
@[simp] theorem Fifo.insert_epoch (n : Nat) (data : List Byte) (f : Fifo) : (f.insert n data).epoch = f.epoch := rfl

theorem Fifo.insert_head {n : Nat} (data : List Byte) (f : Fifo) (hn : n ≤ 65535) (h0 : 0 < n) :
    (f.insert n data).head.toNat = (f.head.toNat + f.writtenCount n data) % n := indexAdd_toNat _ _ hn h0

/-- The bytes FIFO_INSERT writes stand from `head` on (R161). -/
theorem Fifo.read?_insert_new {n : Nat} (data : List Byte) (f : Fifo) (hh : f.head.toNat < n) {j : Nat}
    (hj : j < f.writtenCount n data) (hl : j < data.length) :
    (f.insert n data).store.read? ((f.head.toNat + j) % n) = some data[j] := by
  have := f.writtenCount_le n data
  have hlen : (data.take (f.writtenCount n data)).length = f.writtenCount n data := by simp; omega
  have := writeRun_at f.store (data.take (f.writtenCount n data)) hh (by omega) (j := j) (by omega)
  simpa [Fifo.insert] using this

/-- Every other byte keeps its value. -/
theorem Fifo.read?_insert_old {n : Nat} (data : List Byte) (f : Fifo) {a : Nat}
    (h : ∀ j < f.writtenCount n data, a ≠ (f.head.toNat + j) % n) :
    (f.insert n data).store.read? a = f.store.read? a := by
  refine writeRun_other _ _ _ fun j hj => h j ?_
  simp only [List.length_take] at hj; omega

theorem Fifo.byteAt_insert_old {n : Nat} (data : List Byte) (f : Fifo) {a : Nat}
    (h : ∀ j < f.writtenCount n data, a ≠ (f.head.toNat + j) % n) : (f.insert n data).byteAt a = f.byteAt a := by
  simp only [Fifo.byteAt, Fifo.read?_insert_old data f h, Fifo.insert_epoch]

theorem Fifo.byteAt_insert_new {n : Nat} (data : List Byte) (f : Fifo) (hh : f.head.toNat < n) {j : Nat}
    (hj : j < f.writtenCount n data) (hl : j < data.length) :
    (f.insert n data).byteAt ((f.head.toNat + j) % n) = data[j] := by
  simp only [Fifo.byteAt, Fifo.read?_insert_new data f hh hj hl, Option.getD_some]

/-- FIFO_INSERT lengthens the buffered data by what it writes. -/
theorem Fifo.count_insert {n : Nat} (data : List Byte) {f : Fifo} (hn : n ≤ 65535) (hh : f.head.toNat < n)
    (ht : f.tail.toNat < n) : (f.insert n data).count n = f.count n + f.writtenCount n data := by
  have hw := f.writtenCount_le n data
  have hc := f.count_lt (n := n) (by omega)
  have e := Fifo.insert_head data f hn (by omega)
  have hh' : (f.insert n data).head.toNat < n := by rw [e]; exact Nat.mod_lt _ (by omega)
  have k := Fifo.count_eq hh ht
  rw [Fifo.count_eq hh' (by simpa using ht), e, wrap_eq hh (by omega), Fifo.insert_tail]
  split at k <;> split <;> split <;> omega

/-- FIFO_INSERT appends what it writes to the queue of buffered bytes (R161, R167). -/
theorem Fifo.contents_insert {n : Nat} (data : List Byte) {f : Fifo} (hn : n ≤ 65535) (hh : f.head.toNat < n)
    (ht : f.tail.toNat < n) :
    (f.insert n data).contents n = f.contents n ++ data.take (f.writtenCount n data) := by
  have hw := f.writtenCount_le n data
  have hc := f.count_lt (n := n) (by omega)
  refine List.ext_getElem ?_ fun j h1 h2 => ?_
  · simp [Fifo.contents, Fifo.run, Fifo.count_insert data hn hh ht]; omega
  · simp only [Fifo.contents, Fifo.run, List.length_map, List.length_range, Fifo.count_insert data hn hh ht] at h1
    simp only [Fifo.contents, Fifo.run, List.getElem_map, List.getElem_range, Fifo.insert_tail]
    by_cases hj : j < f.count n
    · rw [List.getElem_append_left (by simpa using hj)]
      simp only [List.getElem_map, List.getElem_range]
      refine Fifo.byteAt_insert_old data f fun k hk => ?_
      rw [Fifo.head_eq hh ht, Nat.mod_add_mod, Nat.add_assoc]
      exact wrap_ne ht (by omega) (by omega) (by omega)
    · rw [List.getElem_append_right (by simpa using hj)]
      simp only [List.length_map, List.length_range, List.getElem_take]
      have := Fifo.byteAt_insert_new data f hh (j := j - f.count n) (by omega) (by omega)
      rw [← this, Fifo.head_eq hh ht, Nat.mod_add_mod]
      congr 2; omega

/-! ### Advancing `tail` -/

@[simp] theorem Fifo.advance_head (n c : Nat) (f : Fifo) : (f.advance n c).head = f.head := rfl
@[simp] theorem Fifo.advance_store (n c : Nat) (f : Fifo) : (f.advance n c).store = f.store := rfl
@[simp] theorem Fifo.advance_epoch (n c : Nat) (f : Fifo) : (f.advance n c).epoch = f.epoch := rfl
@[simp] theorem Fifo.advance_readOpen (n c : Nat) (f : Fifo) : (f.advance n c).readOpen = f.readOpen := rfl
@[simp] theorem Fifo.advance_spoiled (n c : Nat) (f : Fifo) : (f.advance n c).spoiled = f.spoiled := rfl

theorem Fifo.advance_tail {n : Nat} (c : Nat) (f : Fifo) (hn : n ≤ 65535) (h0 : 0 < n) :
    (f.advance n c).tail.toNat = (f.tail.toNat + c) % n := indexAdd_toNat _ _ hn h0

@[simp] theorem Fifo.advance_byteAt (n c a : Nat) (f : Fifo) : (f.advance n c).byteAt a = f.byteAt a := rfl

theorem Fifo.count_advance {n c : Nat} {f : Fifo} (hn : n ≤ 65535) (hh : f.head.toNat < n) (ht : f.tail.toNat < n)
    (hc : c ≤ f.count n) : (f.advance n c).count n = f.count n - c := by
  have hl := f.count_lt (n := n) (by omega)
  have e := Fifo.advance_tail c f hn (by omega)
  have ht' : (f.advance n c).tail.toNat < n := by rw [e]; exact Nat.mod_lt _ (by omega)
  have k := Fifo.count_eq hh ht
  rw [Fifo.count_eq (by simpa using hh) ht', e, wrap_eq ht (by omega), Fifo.advance_head]
  split at k <;> split <;> split <;> omega

/-- Advancing `tail` drops the oldest bytes (R164, R198). -/
theorem Fifo.contents_advance {n c : Nat} {f : Fifo} (hn : n ≤ 65535) (hh : f.head.toNat < n) (ht : f.tail.toNat < n)
    (hc : c ≤ f.count n) : (f.advance n c).contents n = (f.contents n).drop c := by
  refine List.ext_getElem ?_ fun j h1 h2 => ?_
  · simp [Fifo.contents, Fifo.run, Fifo.count_advance hn hh ht hc]
  · simp only [Fifo.contents, Fifo.run, List.getElem_map, List.getElem_range, List.getElem_drop,
      Fifo.advance_byteAt, Fifo.advance_tail c f hn (by omega : 0 < n), Nat.mod_add_mod, Nat.add_assoc]

/-- A run no longer than the buffered data is its oldest part. -/
theorem Fifo.run_eq_take {n len : Nat} (f : Fifo) (h : len ≤ f.count n) : f.run n len = (f.contents n).take len := by
  simp only [Fifo.contents, Fifo.run, ← List.map_take, List.take_range, Nat.min_eq_left h]

@[simp] theorem Fifo.run_length (n len : Nat) (f : Fifo) : (f.run n len).length = len := by simp [Fifo.run]

@[simp] theorem Fifo.contents_length (n : Nat) (f : Fifo) : (f.contents n).length = f.count n := by
  simp [Fifo.contents]

/-! ### FIFO_RESET -/

@[simp] theorem Fifo.clear_head (f : Fifo) : f.clear.head = 0 := rfl
@[simp] theorem Fifo.clear_tail (f : Fifo) : f.clear.tail = 0 := rfl
@[simp] theorem Fifo.clear_store (f : Fifo) : f.clear.store = f.store := rfl
@[simp] theorem Fifo.clear_epoch (f : Fifo) : f.clear.epoch = f.epoch := rfl
@[simp] theorem Fifo.clear_readOpen (f : Fifo) : f.clear.readOpen = f.readOpen := rfl
@[simp] theorem Fifo.clear_spoiled (f : Fifo) : f.clear.spoiled = (f.spoiled || f.readOpen) := rfl
@[simp] theorem Fifo.clear_byteAt (f : Fifo) (a : Nat) : f.clear.byteAt a = f.byteAt a := rfl

@[simp] theorem Fifo.clear_count (n : Nat) (f : Fifo) : f.clear.count n = 0 := by simp [Fifo.count]

end Sys2Proof.Machine
end

