-- ==== Sys2Proof/Laws/Drain.lean ====
section
/-! SUPPORT. FIFO_READ_DRAIN's loop, said once (spec/40_fifo.md R164): it takes the oldest bytes, its passes are enough, and
one pass at a time it is the loop on what is left. -/

namespace Sys2Proof.Machine

theorem Limit.cap_le (m : Limit) (total run : Nat) : Limit.cap m total run ≤ run := by
  cases m <;> simp [Limit.cap]

/-- A cap after `c` bytes is the cap of what is left of the limit. -/
theorem Limit.cap_add (m : Limit) (c total run : Nat) :
    Limit.cap m (c + total) run = Limit.cap (Limit.less m c) total run := by
  cases m <;> simp [Limit.cap, Limit.less, Nat.sub_sub]

theorem indexAdd_indexAdd {n : Nat} (i : BitVec 16) (a b : Nat) (hn : n ≤ 65535) (h0 : 0 < n) :
    indexAdd n (indexAdd n i a) b = indexAdd n i (a + b) := by
  apply BitVec.eq_of_toNat_eq
  rw [indexAdd_toNat _ _ hn h0, indexAdd_toNat _ _ hn h0, indexAdd_toNat _ _ hn h0, Nat.mod_add_mod, Nat.add_assoc]

theorem Fifo.advance_advance {n : Nat} (a b : Nat) (f : Fifo) (hn : n ≤ 65535) (h0 : 0 < n) :
    (f.advance n a).advance n b = f.advance n (a + b) := by
  simp [Fifo.advance, indexAdd_indexAdd _ _ _ hn h0]

theorem Fifo.advance_zero {n : Nat} (f : Fifo) (hn : n ≤ 65535) (ht : f.tail.toNat < n) : f.advance n 0 = f := by
  have : indexAdd n f.tail 0 = f.tail := by
    apply BitVec.eq_of_toNat_eq
    rw [indexAdd_toNat _ _ hn (by omega), Nat.add_zero, Nat.mod_eq_of_lt ht]
  simp [Fifo.advance, this]

theorem Fifo.advance_tail_lt {n : Nat} (c : Nat) (f : Fifo) (hn : n ≤ 65535) (h0 : 0 < n) :
    (f.advance n c).tail.toNat < n := by rw [Fifo.advance_tail c f hn h0]; exact Nat.mod_lt _ h0

/-- The run a pass offers is part of the buffered data. -/
theorem Fifo.offered_le {n : Nat} {f : Fifo} (m : Limit) (total : Nat) (hh : f.head.toNat < n) (ht : f.tail.toNat < n) :
    Limit.cap m total (f.avail n) ≤ f.count n := le_trans (Limit.cap_le ..) (Fifo.avail_le_count hh ht)

/-- The state of a call after a pass that takes `c` bytes of a run. -/
def Drain.take (n run c : Nat) (d : Drain) : Drain :=
  { d with fifo := d.fifo.advance n c, total := d.total + c, runs := d.runs ++ [d.fifo.run n run],
           taken := d.taken ++ (d.fifo.run n run).take c }

/-- One pass of the loop. -/
theorem drainLoop_succ (n : Nat) (max : Limit) (consume : Nat → Nat → Nat) (passes call : Nat) (d : Drain) :
    drainLoop n max consume (passes + 1) call d =
      if Limit.cap max d.total (d.fifo.avail n) = 0 then d
      else if Limit.cap max d.total (d.fifo.avail n) < consume call (Limit.cap max d.total (d.fifo.avail n)) then
        { d with runs := d.runs ++ [d.fifo.run n (Limit.cap max d.total (d.fifo.avail n))], overconsumed := true }
      else if consume call (Limit.cap max d.total (d.fifo.avail n)) = 0 then
        { d with runs := d.runs ++ [d.fifo.run n (Limit.cap max d.total (d.fifo.avail n))] }
      else drainLoop n max consume passes (call + 1)
        (d.take n (Limit.cap max d.total (d.fifo.avail n)) (consume call (Limit.cap max d.total (d.fifo.avail n)))) := rfl

/-- Everything the loop can do: it takes the `k` oldest bytes, within the limit, and changes only `tail`. -/
theorem drainLoop_takes {n : Nat} (max : Limit) (consume : Nat → Nat → Nat) (hn : n ≤ 65535) (passes call : Nat)
    (d : Drain) (hh : d.fifo.head.toNat < n) (ht : d.fifo.tail.toNat < n) :
    ∃ k, k ≤ d.fifo.count n ∧ Limit.cap max d.total k = k ∧
      (drainLoop n max consume passes call d).total = d.total + k ∧
      (drainLoop n max consume passes call d).fifo = d.fifo.advance n k ∧
      (drainLoop n max consume passes call d).taken = d.taken ++ (d.fifo.contents n).take k := by
  have stop : ∀ m : Limit, Limit.cap m d.total 0 = 0 := fun m => Nat.le_zero.mp (Limit.cap_le ..)
  induction passes generalizing call d with
  | zero => exact ⟨0, by omega, stop max, rfl, (Fifo.advance_zero _ hn ht).symm, by simp [drainLoop]⟩
  | succ passes ih =>
    rw [drainLoop_succ]
    have hrun := Fifo.offered_le max d.total hh ht
    generalize hr : Limit.cap max d.total (d.fifo.avail n) = run at *
    generalize consume call run = c
    split
    · exact ⟨0, by omega, stop max, rfl, (Fifo.advance_zero _ hn ht).symm, by simp⟩
    split
    · exact ⟨0, by omega, stop max, rfl, (Fifo.advance_zero _ hn ht).symm, by simp⟩
    split
    · exact ⟨0, by omega, stop max, rfl, (Fifo.advance_zero _ hn ht).symm, by simp⟩
    · have hc : c ≤ d.fifo.count n := by omega
      obtain ⟨k, h1, h2, h3, h4, h5⟩ := ih (call + 1) (d.take n run c) hh (Fifo.advance_tail_lt c d.fifo hn (by omega))
        fun m => Nat.le_zero.mp (Limit.cap_le ..)
      have hcount : (d.take n run c).fifo.count n = d.fifo.count n - c := Fifo.count_advance hn hh ht hc
      refine ⟨c + k, by omega, ?_, by rw [h3]; simp [Drain.take]; omega, ?_, ?_⟩
      · have hcr : c ≤ run := by omega
        have hra := Limit.cap_le max d.total (d.fifo.avail n)
        cases max with
        | inf => rfl
        | upTo m => simp only [Limit.cap, Drain.take] at *; omega
      · rw [h4]; exact Fifo.advance_advance c k d.fifo hn (by omega)
      · rw [h5]
        have e : (d.take n run c).fifo.contents n = (d.fifo.contents n).drop c := Fifo.contents_advance hn hh ht hc
        rw [e, List.take_add, ← List.append_assoc]
        congr 1
        simp only [Drain.take]
        rw [Fifo.run_eq_take _ hrun, List.take_take, Nat.min_eq_left (by omega)]

/-- Passes beyond the buffered count change nothing: `N` of them are enough (R164). -/
theorem drainLoop_passes {n : Nat} (max : Limit) (consume : Nat → Nat → Nat) (hn : n ≤ 65535) (p q call : Nat)
    (d : Drain) (hh : d.fifo.head.toNat < n) (ht : d.fifo.tail.toNat < n) (hp : d.fifo.count n < p)
    (hq : d.fifo.count n < q) : drainLoop n max consume p call d = drainLoop n max consume q call d := by
  induction p generalizing q call d with
  | zero => omega
  | succ p ih =>
    cases q with
    | zero => omega
    | succ q =>
      rw [drainLoop_succ, drainLoop_succ]
      have hrun := Fifo.offered_le max d.total hh ht
      generalize Limit.cap max d.total (d.fifo.avail n) = run at *
      generalize consume call run = c
      split; · rfl
      split; · rfl
      split; · rfl
      have hc : c ≤ d.fifo.count n := by omega
      have hcount : (d.take n run c).fifo.count n = d.fifo.count n - c := Fifo.count_advance hn hh ht hc
      exact ih _ _ _ hh (Fifo.advance_tail_lt c d.fifo hn (by omega)) (by omega) (by omega)

/-- What a call had done before is carried along: the loop goes on with what is left of the limit and with the
consumer's later reports. -/
theorem drainLoop_shift {n : Nat} (max : Limit) (consume : Nat → Nat → Nat) (c : Nat) (pre : List (List Byte))
    (got : List Byte) (passes call : Nat) (d : Drain) :
    drainLoop n max consume passes (call + 1)
        { d with total := c + d.total, runs := pre ++ d.runs, taken := got ++ d.taken } =
      let r := drainLoop n (Limit.less max c) (fun k run => consume (k + 1) run) passes call d
      { r with total := c + r.total, runs := pre ++ r.runs, taken := got ++ r.taken } := by
  induction passes generalizing call d with
  | zero => rfl
  | succ passes ih =>
    simp only [drainLoop_succ, Limit.cap_add]
    generalize Limit.cap (Limit.less max c) d.total (d.fifo.avail n) = run
    generalize consume (call + 1) run = k
    split; · rfl
    split; · simp [List.append_assoc]
    split; · simp [List.append_assoc]
    rw [← ih]
    simp [Drain.take, List.append_assoc, Nat.add_assoc]

/-- Everything FIFO_READ_DRAIN can do from a legal state, whatever its consumer reports (R164, R167). -/
theorem Fifo.readDrain_takes {n : Nat} (max : Limit) (consume : Nat → Nat → Nat) (f : Fifo) (hn : n ≤ 65535)
    (hh : f.head.toNat < n) (ht : f.tail.toNat < n) :
    ∃ k, k ≤ f.count n ∧ Limit.cap max 0 k = k ∧ (f.readDrain n max consume).total = k ∧
      (f.readDrain n max consume).fifo = f.advance n k ∧
      (f.readDrain n max consume).taken = (f.contents n).take k := by
  obtain ⟨k, a, b, c, d, e⟩ := drainLoop_takes max consume hn n 0 ⟨f, 0, [], [], false⟩ hh ht
  exact ⟨k, a, b, by rw [Fifo.readDrain, c]; simp, d, by rw [Fifo.readDrain, e]; rfl⟩

/-- What a call with a listed consumer takes is, of each run it offers, the count reported for it. -/
theorem drainLoop_listed {n : Nat} (max : Limit) (counts : List Nat) (passes call : Nat) (d : Drain)
    (h : (drainLoop n max (listedConsumer counts) passes call d).overconsumed = false) :
    ∃ runs, (drainLoop n max (listedConsumer counts) passes call d).runs = d.runs ++ runs ∧
      (drainLoop n max (listedConsumer counts) passes call d).taken =
        d.taken ++ (List.zipWith List.take (counts.drop call) runs).flatten := by
  induction passes generalizing call d with
  | zero => exact ⟨[], by simp [drainLoop]⟩
  | succ p ih =>
    rw [drainLoop_succ] at h ⊢
    generalize Limit.cap max d.total (d.fifo.avail n) = run at h ⊢
    generalize hc : listedConsumer counts call run = c at h ⊢
    split at h
    · rw [if_pos ‹_›]; exact ⟨[], by simp⟩
    rw [if_neg ‹_›]
    split at h
    · cases h
    rw [if_neg ‹_›]
    by_cases hl : call < counts.length
    · have hc : counts[call] = c := by simpa [listedConsumer, hl] using hc
      rw [List.drop_eq_getElem_cons hl, hc]
      split at h
      · rename_i h0
        rw [if_pos h0]; exact ⟨[d.fifo.run n run], by simp [h0]⟩
      · rw [if_neg ‹_›]
        obtain ⟨rs, e1, e2⟩ := ih (call + 1) _ h
        exact ⟨d.fifo.run n run :: rs, by rw [e1]; simp [Drain.take], by rw [e2]; simp [Drain.take]⟩
    · have hc : c = 0 := by simpa [listedConsumer, hl, eq_comm] using hc
      rw [if_pos hc]
      exact ⟨[d.fifo.run n run], by simp [List.drop_eq_nil_of_le (not_lt.mp hl)]⟩

/-- FIFO_READ_DRAIN as an operation on the buffered bytes: the oldest `total` go, as the reported counts of its runs. -/
theorem Fifo.readDrain_listed {n : Nat} (max : Limit) (counts : List Nat) (f : Fifo) (hn : n ≤ 65535)
    (hh : f.head.toNat < n) (ht : f.tail.toNat < n)
    (h : (f.readDrain n max (listedConsumer counts)).overconsumed = false) :
    let d := f.readDrain n max (listedConsumer counts)
    d.total ≤ f.count n ∧ Limit.cap max 0 d.total = d.total ∧ d.fifo = f.advance n d.total ∧
      (List.zipWith List.take counts d.runs).flatten = (f.contents n).take d.total := by
  obtain ⟨k, h1, h2, h3, h4, h5⟩ := Fifo.readDrain_takes max (listedConsumer counts) f hn hh ht
  obtain ⟨rs, e1, e2⟩ := drainLoop_listed max counts n 0 ⟨f, 0, [], [], false⟩ h
  have e2' : (f.readDrain n max (listedConsumer counts)).taken = (List.zipWith List.take counts rs).flatten := e2
  have e1' : (f.readDrain n max (listedConsumer counts)).runs = rs := e1
  exact ⟨h3 ▸ h1, h3 ▸ h2, h3 ▸ h4, by rw [e1', h3, ← e2', h5]⟩

/-- A consumer that takes each run whole takes all that the limit allows. -/
theorem drainLoop_copies {n : Nat} (max : Limit) (hn : n ≤ 65535) (passes call : Nat) (d : Drain)
    (hh : d.fifo.head.toNat < n) (ht : d.fifo.tail.toNat < n) (hp : d.fifo.count n < passes) :
    (drainLoop n max copyConsumer passes call d).total = d.total + Limit.cap max d.total (d.fifo.count n) := by
  induction passes generalizing call d with
  | zero => omega
  | succ p ih =>
    have hrun := Fifo.offered_le max d.total hh ht
    have hav := Fifo.avail_eq_zero (f := d.fifo) ht
    have hc0 := Fifo.count_eq_zero hh ht
    simp only [drainLoop_succ, copyConsumer, Nat.lt_irrefl, if_false]
    by_cases h0 : Limit.cap max d.total (d.fifo.avail n) = 0
    · simp only [h0, if_true]
      by_cases ha : d.fifo.avail n = 0
      · have := Limit.cap_le max d.total 0
        rw [hc0.mpr (hav.mp ha)]; omega
      · cases max <;> simp only [Limit.cap] at * <;> omega
    · have hcount := Fifo.count_advance hn hh ht hrun
      simp only [h0, if_false]
      rw [ih _ (Drain.take ..) hh (Fifo.advance_tail_lt _ d.fifo hn (by omega))] <;>
        simp only [Drain.take, hcount]
      · cases max <;> simp only [Limit.cap] at * <;> omega
      · omega

/-- FIFO_READ takes exactly `min(maxBytes, count())` bytes (R165). -/
theorem Fifo.readDrain_copy {n : Nat} (max : Limit) (f : Fifo) (hn : n ≤ 65535) (hh : f.head.toNat < n)
    (ht : f.tail.toNat < n) :
    (f.readDrain n max copyConsumer).total = Limit.cap max 0 (f.count n) ∧
    (f.readDrain n max copyConsumer).fifo = f.advance n (Limit.cap max 0 (f.count n)) ∧
    (f.readDrain n max copyConsumer).taken = (f.contents n).take (Limit.cap max 0 (f.count n)) := by
  obtain ⟨k, _, _, h3, h4, h5⟩ := Fifo.readDrain_takes max copyConsumer f hn hh ht
  have hk := drainLoop_copies max hn n 0 ⟨f, 0, [], [], false⟩ hh ht (Fifo.count_lt f (by omega))
  rw [← Fifo.readDrain, h3] at hk
  simp only [Nat.zero_add] at hk
  exact ⟨h3.trans hk, hk ▸ h4, hk ▸ h5⟩

end Sys2Proof.Machine
end

