-- ==== Sys2Proof/Laws/Guards.lean ====
section
/-! SUPPORT. When an agent has a step: what the guards answer, said once. -/

namespace Sys2Proof.Machine

/-- A guard answers the guarded result once a fault is excluded and the configuration is admitted. -/
theorem guarded_of_ready {ok : Bool} {s : State} {r : Result} (hf : s.faults = []) (hok : ok = true) :
    guarded ok s r = r := by simp [guarded, hf, hok]

theorem coreStep_of_ready {s : State} (r : Result) (h : Ready s) : coreStep s r = r := guarded_of_ready h.1 h.2

theorem fifoStep_of_ready {s : State} (r : Result) (h : FifoReady s) : fifoStep s r = r := guarded_of_ready h.1 h.2

theorem mainStep_of_ready {s : State} (en : Bool) (t : State) (h : Ready s) :
    mainStep s en t = .next (if en then t else s) := coreStep_of_ready _ h

/-- No agent has a step once a fault has been raised. -/
theorem guarded_of_faulted {ok : Bool} {s : State} (r : Result) (h : s.faults ≠ []) :
    guarded ok s r = .fault .noStepAfterFault := by simp [guarded, h]

/-- What lets a guarded step answer a next state. -/
theorem guarded_next {ok : Bool} {s t : State} {r : Result} (h : guarded ok s r = .next t) :
    s.faults = [] ∧ ok = true ∧ r = .next t := by
  unfold guarded at h
  split at h
  · cases h
  · split at h
    · exact ⟨by simpa using ‹¬ s.faults ≠ []›, ‹_›, h⟩
    · cases h

theorem coreStep_next {s t : State} {r : Result} (h : coreStep s r = .next t) : Ready s ∧ r = .next t :=
  have ⟨a, b, c⟩ := guarded_next h
  ⟨⟨a, b⟩, c⟩

theorem fifoStep_next {s t : State} {r : Result} (h : fifoStep s r = .next t) : FifoReady s ∧ r = .next t :=
  have ⟨a, b, c⟩ := guarded_next h
  ⟨⟨a, b⟩, c⟩

/-- Everything a MAIN step can do: its effect where it is enabled, nothing where MAIN holds. -/
theorem mainStep_next {s t t' : State} {en : Bool} (h : mainStep s en t = .next t') :
    Ready s ∧ t' = if en then t else s := by
  obtain ⟨hr, h⟩ := coreStep_next h
  exact ⟨hr, (Host.Outcome.next.inj h).symm⟩

/-- What lets a guarded step be refused. -/
theorem guarded_refused {ok : Bool} {s : State} {r : Result} {q : Refusal} (h : guarded ok s r = .refused q) :
    (ok = false ∧ q = .badConfiguration) ∨ r = .refused q := by
  unfold guarded at h
  split at h
  · cases h
  · split at h
    · exact .inr h
    · exact .inl ⟨by simpa using ‹¬ ok = true›, (Host.Outcome.refused.inj h).symm⟩

theorem Ready.fifo {s : State} (h : Ready s) : FifoReady s :=
  ⟨h.1, (Bool.and_eq_true_iff.mp h.2).2⟩

/-- The parameter ranges an admitted configuration has (R9, R193). -/
theorem Config.ok_iff (c : Config) : Config.ok c = true ↔
    5 ≤ c.capacity ∧ c.capacity ≤ 65535 ∧ c.rxQuietEdges ≤ c.txGapSlots ∧ 1 ≤ c.txGapSlots ∧ c.txGapSlots ≤ 200 := by
  simp only [Config.ok, Config.fifoOk, Bool.and_eq_true, decide_eq_true_eq]; omega

theorem Config.fifoOk_iff (c : Config) : Config.fifoOk c = true ↔
    2 ≤ c.capacity ∧ c.capacity ≤ 65535 ∧ c.rxQuietEdges ≤ c.txGapSlots ∧ 1 ≤ c.txGapSlots ∧ c.txGapSlots ≤ 200 := by
  simp [Config.fifoOk]

/-- The configuration check as a fact about `N` (R9, R193). -/
theorem Ready.size_ge {s : State} (h : Ready s) : 5 ≤ s.size := ((Config.ok_iff _).mp h.2).1

theorem Ready.size_le {s : State} (h : Ready s) : s.size ≤ 65535 := ((Config.ok_iff _).mp h.2).2.1

theorem FifoReady.size_ge {s : State} (h : FifoReady s) : 2 ≤ s.size := ((Config.fifoOk_iff _).mp h.2).1

theorem FifoReady.size_le {s : State} (h : FifoReady s) : s.size ≤ 65535 := ((Config.fifoOk_iff _).mp h.2).2.1

end Sys2Proof.Machine
end

