-- ==== Sys2Proof/Laws/State.lean ====
section
/-! SUPPORT. One lemma per field of `State` per update operation, each true by `rfl`, so that no later proof unfolds a
record update. -/

namespace Sys2Proof.Machine

/-! ### setFifo -/

@[simp] theorem setFifo_cfg (f : Fifo) (s : State) : (setFifo f s).cfg = s.cfg := rfl
@[simp] theorem setFifo_size (f : Fifo) (s : State) : (setFifo f s).size = s.size := rfl
@[simp] theorem setFifo_fifo (f : Fifo) (s : State) : (setFifo f s).fifo = f := rfl
@[simp] theorem setFifo_status (f : Fifo) (s : State) : (setFifo f s).status = s.status := rfl
@[simp] theorem setFifo_engine (f : Fifo) (s : State) : (setFifo f s).engine = s.engine := rfl
@[simp] theorem setFifo_ind (f : Fifo) (s : State) : (setFifo f s).ind = s.ind := rfl
@[simp] theorem setFifo_seq (f : Fifo) (s : State) : (setFifo f s).seq = s.seq := rfl
@[simp] theorem setFifo_ports (f : Fifo) (s : State) : (setFifo f s).ports = s.ports := rfl
@[simp] theorem setFifo_faults (f : Fifo) (s : State) : (setFifo f s).faults = s.faults := rfl
@[simp] theorem setFifo_env (f : Fifo) (s : State) : (setFifo f s).env = s.env := rfl

/-! ### setEngine -/

@[simp] theorem setEngine_cfg (e : Engine) (s : State) : (setEngine e s).cfg = s.cfg := rfl
@[simp] theorem setEngine_size (e : Engine) (s : State) : (setEngine e s).size = s.size := rfl
@[simp] theorem setEngine_fifo (e : Engine) (s : State) : (setEngine e s).fifo = s.fifo := rfl
@[simp] theorem setEngine_status (e : Engine) (s : State) : (setEngine e s).status = s.status := rfl
@[simp] theorem setEngine_engine (e : Engine) (s : State) : (setEngine e s).engine = e := rfl
@[simp] theorem setEngine_ind (e : Engine) (s : State) : (setEngine e s).ind = s.ind := rfl
@[simp] theorem setEngine_seq (e : Engine) (s : State) : (setEngine e s).seq = s.seq := rfl
@[simp] theorem setEngine_ports (e : Engine) (s : State) : (setEngine e s).ports = s.ports := rfl
@[simp] theorem setEngine_faults (e : Engine) (s : State) : (setEngine e s).faults = s.faults := rfl
@[simp] theorem setEngine_env (e : Engine) (s : State) : (setEngine e s).env = s.env := rfl

/-! ### transmit -/

@[simp] theorem transmit_cfg (bs : List Byte) (s : State) : (transmit bs s).cfg = s.cfg := rfl
@[simp] theorem transmit_size (bs : List Byte) (s : State) : (transmit bs s).size = s.size := rfl
@[simp] theorem transmit_fifo (bs : List Byte) (s : State) : (transmit bs s).fifo = s.fifo := rfl
@[simp] theorem transmit_status (bs : List Byte) (s : State) : (transmit bs s).status = s.status := rfl
@[simp] theorem transmit_engine (bs : List Byte) (s : State) : (transmit bs s).engine = s.engine := rfl
@[simp] theorem transmit_ind (bs : List Byte) (s : State) : (transmit bs s).ind = s.ind := rfl
@[simp] theorem transmit_seq (bs : List Byte) (s : State) : (transmit bs s).seq = s.seq := rfl
@[simp] theorem transmit_ports (bs : List Byte) (s : State) : (transmit bs s).ports = { s.ports with txq := s.ports.txq ++ bs } := rfl
@[simp] theorem transmit_faults (bs : List Byte) (s : State) : (transmit bs s).faults = s.faults := rfl
@[simp] theorem transmit_env (bs : List Byte) (s : State) : (transmit bs s).env = s.env := rfl

/-! ### emitSlot -/

@[simp] theorem emitSlot_cfg (b : Bool) (s : State) : (emitSlot b s).cfg = s.cfg := rfl
@[simp] theorem emitSlot_size (b : Bool) (s : State) : (emitSlot b s).size = s.size := rfl
@[simp] theorem emitSlot_fifo (b : Bool) (s : State) : (emitSlot b s).fifo = s.fifo := rfl
@[simp] theorem emitSlot_status (b : Bool) (s : State) : (emitSlot b s).status = s.status := rfl
@[simp] theorem emitSlot_engine (b : Bool) (s : State) : (emitSlot b s).engine = s.engine := rfl
@[simp] theorem emitSlot_ind (b : Bool) (s : State) : (emitSlot b s).ind = s.ind := rfl
@[simp] theorem emitSlot_seq (b : Bool) (s : State) : (emitSlot b s).seq = s.seq := rfl
@[simp] theorem emitSlot_ports (b : Bool) (s : State) : (emitSlot b s).ports = { s.ports with lineTrace := s.ports.lineTrace ++ [b] } := rfl
@[simp] theorem emitSlot_faults (b : Bool) (s : State) : (emitSlot b s).faults = s.faults := rfl
@[simp] theorem emitSlot_env (b : Bool) (s : State) : (emitSlot b s).env = s.env := rfl

/-! ### pulse -/

@[simp] theorem pulse_cfg (s : State) : (pulse s).cfg = s.cfg := rfl
@[simp] theorem pulse_size (s : State) : (pulse s).size = s.size := rfl
@[simp] theorem pulse_fifo (s : State) : (pulse s).fifo = s.fifo := rfl
@[simp] theorem pulse_status (s : State) : (pulse s).status = s.status := rfl
@[simp] theorem pulse_engine (s : State) : (pulse s).engine = s.engine := rfl
@[simp] theorem pulse_ind (s : State) : (pulse s).ind = s.ind := rfl
@[simp] theorem pulse_seq (s : State) : (pulse s).seq = s.seq := rfl
@[simp] theorem pulse_ports (s : State) : (pulse s).ports = { s.ports with indTrace := s.ports.indTrace ++ [s.ind.uptime] } := rfl
@[simp] theorem pulse_faults (s : State) : (pulse s).faults = s.faults := rfl
@[simp] theorem pulse_env (s : State) : (pulse s).env = s.env := rfl

/-! ### arrive -/

@[simp] theorem arrive_cfg (b : Byte) (s : State) : (arrive b s).cfg = s.cfg := rfl
@[simp] theorem arrive_size (b : Byte) (s : State) : (arrive b s).size = s.size := rfl
@[simp] theorem arrive_fifo (b : Byte) (s : State) : (arrive b s).fifo = s.fifo := rfl
@[simp] theorem arrive_status (b : Byte) (s : State) : (arrive b s).status = s.status := rfl
@[simp] theorem arrive_engine (b : Byte) (s : State) : (arrive b s).engine = s.engine := rfl
@[simp] theorem arrive_ind (b : Byte) (s : State) : (arrive b s).ind = s.ind := rfl
@[simp] theorem arrive_seq (b : Byte) (s : State) : (arrive b s).seq = s.seq := rfl
@[simp] theorem arrive_ports (b : Byte) (s : State) : (arrive b s).ports = { s.ports with rxq := s.ports.rxq ++ [b] } := rfl
@[simp] theorem arrive_faults (b : Byte) (s : State) : (arrive b s).faults = s.faults := rfl
@[simp] theorem arrive_env (b : Byte) (s : State) : (arrive b s).env = s.env := rfl

/-! ### setPhase -/

@[simp] theorem setPhase_cfg (p : Phase) (s : State) : (setPhase p s).cfg = s.cfg := rfl
@[simp] theorem setPhase_size (p : Phase) (s : State) : (setPhase p s).size = s.size := rfl
@[simp] theorem setPhase_fifo (p : Phase) (s : State) : (setPhase p s).fifo = s.fifo := rfl
@[simp] theorem setPhase_status (p : Phase) (s : State) : (setPhase p s).status = s.status := rfl
@[simp] theorem setPhase_engine (p : Phase) (s : State) : (setPhase p s).engine = s.engine := rfl
@[simp] theorem setPhase_ind (p : Phase) (s : State) : (setPhase p s).ind = s.ind := rfl
@[simp] theorem setPhase_seq (p : Phase) (s : State) : (setPhase p s).seq = { s.seq with phase := p } := rfl
@[simp] theorem setPhase_ports (p : Phase) (s : State) : (setPhase p s).ports = s.ports := rfl
@[simp] theorem setPhase_faults (p : Phase) (s : State) : (setPhase p s).faults = s.faults := rfl
@[simp] theorem setPhase_env (p : Phase) (s : State) : (setPhase p s).env = s.env := rfl

/-! ### giveResult -/

@[simp] theorem giveResult_cfg (r : PortResult) (s : State) : (giveResult r s).cfg = s.cfg := rfl
@[simp] theorem giveResult_size (r : PortResult) (s : State) : (giveResult r s).size = s.size := rfl
@[simp] theorem giveResult_fifo (r : PortResult) (s : State) : (giveResult r s).fifo = s.fifo := rfl
@[simp] theorem giveResult_status (r : PortResult) (s : State) : (giveResult r s).status = s.status := rfl
@[simp] theorem giveResult_engine (r : PortResult) (s : State) : (giveResult r s).engine = s.engine := rfl
@[simp] theorem giveResult_ind (r : PortResult) (s : State) : (giveResult r s).ind = s.ind := rfl
@[simp] theorem giveResult_seq (r : PortResult) (s : State) : (giveResult r s).seq = s.seq := rfl
@[simp] theorem giveResult_ports (r : PortResult) (s : State) : (giveResult r s).ports = s.ports := rfl
@[simp] theorem giveResult_faults (r : PortResult) (s : State) : (giveResult r s).faults = s.faults := rfl
@[simp] theorem giveResult_env (r : PortResult) (s : State) : (giveResult r s).env = { s.env with result := r } := rfl

/-! ### setLogOverflow -/

@[simp] theorem setLogOverflow_cfg (s : State) : (setLogOverflow s).cfg = s.cfg := rfl
@[simp] theorem setLogOverflow_size (s : State) : (setLogOverflow s).size = s.size := rfl
@[simp] theorem setLogOverflow_fifo (s : State) : (setLogOverflow s).fifo = s.fifo := rfl
@[simp] theorem setLogOverflow_status (s : State) : (setLogOverflow s).status = s.status ||| 0x01 := rfl
@[simp] theorem setLogOverflow_engine (s : State) : (setLogOverflow s).engine = s.engine := rfl
@[simp] theorem setLogOverflow_ind (s : State) : (setLogOverflow s).ind = s.ind := rfl
@[simp] theorem setLogOverflow_seq (s : State) : (setLogOverflow s).seq = s.seq := rfl
@[simp] theorem setLogOverflow_ports (s : State) : (setLogOverflow s).ports = s.ports := rfl
@[simp] theorem setLogOverflow_faults (s : State) : (setLogOverflow s).faults = s.faults := rfl
@[simp] theorem setLogOverflow_env (s : State) : (setLogOverflow s).env = s.env := rfl

/-! ### clearLogOverflow -/

@[simp] theorem clearLogOverflow_cfg (s : State) : (clearLogOverflow s).cfg = s.cfg := rfl
@[simp] theorem clearLogOverflow_size (s : State) : (clearLogOverflow s).size = s.size := rfl
@[simp] theorem clearLogOverflow_fifo (s : State) : (clearLogOverflow s).fifo = s.fifo := rfl
@[simp] theorem clearLogOverflow_status (s : State) : (clearLogOverflow s).status = s.status &&& 0xFE := rfl
@[simp] theorem clearLogOverflow_engine (s : State) : (clearLogOverflow s).engine = s.engine := rfl
@[simp] theorem clearLogOverflow_ind (s : State) : (clearLogOverflow s).ind = s.ind := rfl
@[simp] theorem clearLogOverflow_seq (s : State) : (clearLogOverflow s).seq = s.seq := rfl
@[simp] theorem clearLogOverflow_ports (s : State) : (clearLogOverflow s).ports = s.ports := rfl
@[simp] theorem clearLogOverflow_faults (s : State) : (clearLogOverflow s).faults = s.faults := rfl
@[simp] theorem clearLogOverflow_env (s : State) : (clearLogOverflow s).env = s.env := rfl

/-! ### latchArgs -/

@[simp] theorem latchArgs_cfg (c h u : Byte) (s : State) : (latchArgs c h u s).cfg = s.cfg := rfl
@[simp] theorem latchArgs_size (c h u : Byte) (s : State) : (latchArgs c h u s).size = s.size := rfl
@[simp] theorem latchArgs_fifo (c h u : Byte) (s : State) : (latchArgs c h u s).fifo = s.fifo := rfl
@[simp] theorem latchArgs_status (c h u : Byte) (s : State) : (latchArgs c h u s).status = s.status := rfl
@[simp] theorem latchArgs_engine (c h u : Byte) (s : State) : (latchArgs c h u s).engine = s.engine := rfl
@[simp] theorem latchArgs_ind (c h u : Byte) (s : State) : (latchArgs c h u s).ind = s.ind := rfl
@[simp] theorem latchArgs_seq (c h u : Byte) (s : State) : (latchArgs c h u s).seq = { s.seq with argCmd := c, argHouse := h, argUnit := u } := rfl
@[simp] theorem latchArgs_ports (c h u : Byte) (s : State) : (latchArgs c h u s).ports = s.ports := rfl
@[simp] theorem latchArgs_faults (c h u : Byte) (s : State) : (latchArgs c h u s).faults = s.faults := rfl
@[simp] theorem latchArgs_env (c h u : Byte) (s : State) : (latchArgs c h u s).env = s.env := rfl

/-! ### setScript -/

@[simp] theorem setScript_cfg (bs : List Byte) (s : State) : (setScript bs s).cfg = s.cfg := rfl
@[simp] theorem setScript_size (bs : List Byte) (s : State) : (setScript bs s).size = s.size := rfl
@[simp] theorem setScript_fifo (bs : List Byte) (s : State) : (setScript bs s).fifo = s.fifo := rfl
@[simp] theorem setScript_status (bs : List Byte) (s : State) : (setScript bs s).status = s.status := rfl
@[simp] theorem setScript_engine (bs : List Byte) (s : State) : (setScript bs s).engine = s.engine := rfl
@[simp] theorem setScript_ind (bs : List Byte) (s : State) : (setScript bs s).ind = s.ind := rfl
@[simp] theorem setScript_seq (bs : List Byte) (s : State) : (setScript bs s).seq = s.seq := rfl
@[simp] theorem setScript_ports (bs : List Byte) (s : State) : (setScript bs s).ports = s.ports := rfl
@[simp] theorem setScript_faults (bs : List Byte) (s : State) : (setScript bs s).faults = s.faults := rfl
@[simp] theorem setScript_env (bs : List Byte) (s : State) : (setScript bs s).env = { s.env with script := bs } := rfl

/-! ### nextTurn -/

@[simp] theorem nextTurn_cfg (s : State) : (nextTurn s).cfg = s.cfg := rfl
@[simp] theorem nextTurn_size (s : State) : (nextTurn s).size = s.size := rfl
@[simp] theorem nextTurn_fifo (s : State) : (nextTurn s).fifo = s.fifo := rfl
@[simp] theorem nextTurn_status (s : State) : (nextTurn s).status = s.status := rfl
@[simp] theorem nextTurn_engine (s : State) : (nextTurn s).engine = s.engine := rfl
@[simp] theorem nextTurn_ind (s : State) : (nextTurn s).ind = s.ind := rfl
@[simp] theorem nextTurn_seq (s : State) : (nextTurn s).seq = s.seq := rfl
@[simp] theorem nextTurn_ports (s : State) : (nextTurn s).ports = s.ports := rfl
@[simp] theorem nextTurn_faults (s : State) : (nextTurn s).faults = s.faults := rfl
@[simp] theorem nextTurn_env (s : State) : (nextTurn s).env = { s.env with turn := s.env.turn + 1 } := rfl

/-! ### raiseFault -/

@[simp] theorem raiseFault_cfg (f : CoreFault) (s : State) : (raiseFault f s).cfg = s.cfg := rfl
@[simp] theorem raiseFault_size (f : CoreFault) (s : State) : (raiseFault f s).size = s.size := rfl
@[simp] theorem raiseFault_fifo (f : CoreFault) (s : State) : (raiseFault f s).fifo = s.fifo := rfl
@[simp] theorem raiseFault_status (f : CoreFault) (s : State) : (raiseFault f s).status = s.status := rfl
@[simp] theorem raiseFault_engine (f : CoreFault) (s : State) : (raiseFault f s).engine = s.engine := rfl
@[simp] theorem raiseFault_ind (f : CoreFault) (s : State) : (raiseFault f s).ind = s.ind := rfl
@[simp] theorem raiseFault_seq (f : CoreFault) (s : State) : (raiseFault f s).seq = { s.seq with phase := .haltedByFault } := rfl
@[simp] theorem raiseFault_ports (f : CoreFault) (s : State) : (raiseFault f s).ports = s.ports := rfl
@[simp] theorem raiseFault_faults (f : CoreFault) (s : State) : (raiseFault f s).faults = addFault f s.faults := rfl
@[simp] theorem raiseFault_env (f : CoreFault) (s : State) : (raiseFault f s).env = s.env := rfl

end Sys2Proof.Machine
end

