-- ==== Sys2Proof/Laws/EventLog.lean ====
section
/-! SUPPORT. What one append does, said once (spec/41_event_log.md R190, R191), and what it leaves. -/

namespace Sys2Proof.Machine

/-- An append that fits is an insert. -/
theorem logAppend_fits {record : List Byte} {s : State} (h : record.length ≤ s.fifo.freeTotal s.size) :
    logAppend record s = setFifo (s.fifo.insert s.size record) s := by
  have : ¬ s.fifo.writtenCount s.size record < record.length := by simp only [Fifo.writtenCount]; omega
  simp [logAppend, this]

/-- An append that does not fit ends in the overflow recovery. -/
theorem logAppend_overflows {record : List Byte} {s : State} (h : ¬ record.length ≤ s.fifo.freeTotal s.size) :
    logAppend record s = overflowRecovery (setFifo (s.fifo.insert s.size record) s) := by
  have : s.fifo.writtenCount s.size record < record.length := by simp only [Fifo.writtenCount]; omega
  simp [logAppend, this]

/-- The two cases of an append. -/
theorem logAppend_cases (record : List Byte) (s : State) :
    logAppend record s = setFifo (s.fifo.insert s.size record) s ∨
    logAppend record s = overflowRecovery (setFifo (s.fifo.insert s.size record) s) := by
  by_cases h : record.length ≤ s.fifo.freeTotal s.size
  · exact .inl (logAppend_fits h)
  · exact .inr (logAppend_overflows h)

/-- Nothing but the FIFO and `status` changes. -/
theorem logAppend_frame (record : List Byte) (s : State) :
    logAppend record s = { s with fifo := (logAppend record s).fifo, status := (logAppend record s).status } := by
  rcases logAppend_cases record s with h | h <;> rw [h] <;> rfl

@[simp] theorem logAppend_cfg (r : List Byte) (s : State) : (logAppend r s).cfg = s.cfg := by rw [logAppend_frame]
@[simp] theorem logAppend_size (r : List Byte) (s : State) : (logAppend r s).size = s.size := by
  rw [State.size, logAppend_cfg]
@[simp] theorem logAppend_engine (r : List Byte) (s : State) : (logAppend r s).engine = s.engine := by
  rw [logAppend_frame]
@[simp] theorem logAppend_ind (r : List Byte) (s : State) : (logAppend r s).ind = s.ind := by rw [logAppend_frame]
@[simp] theorem logAppend_seq (r : List Byte) (s : State) : (logAppend r s).seq = s.seq := by rw [logAppend_frame]
@[simp] theorem logAppend_ports (r : List Byte) (s : State) : (logAppend r s).ports = s.ports := by
  rw [logAppend_frame]
@[simp] theorem logAppend_faults (r : List Byte) (s : State) : (logAppend r s).faults = s.faults := by
  rw [logAppend_frame]
@[simp] theorem logAppend_env (r : List Byte) (s : State) : (logAppend r s).env = s.env := by rw [logAppend_frame]

/-- `status` after an append: unchanged, or with `LOG_OVERFLOW` set. -/
theorem logAppend_status (r : List Byte) (s : State) :
    (logAppend r s).status = s.status ∨ (logAppend r s).status = s.status ||| 0x01 := by
  rcases logAppend_cases r s with h | h <;> rw [h]
  · exact .inl rfl
  · exact .inr rfl

/-- The bytes an append writes, and the ones it leaves, whether or not it overflows. -/
theorem logAppend_byteAt {record : List Byte} {s : State} (hl : FifoLegal s) :
    (∀ a, outsideWrite s (s.fifo.writtenCount s.size record) a →
      (logAppend record s).fifo.byteAt a = s.fifo.byteAt a) ∧
    ∀ j (hj : j < record.length), j < s.fifo.writtenCount s.size record →
      (logAppend record s).fifo.byteAt ((s.fifo.head.toNat + j) % s.size) = record[j] := by
  have h1 : (logAppend record s).fifo.byteAt = (s.fifo.insert s.size record).byteAt := by
    rcases logAppend_cases record s with h | h <;> rw [h] <;> rfl
  rw [h1]
  exact ⟨fun a ha => Fifo.byteAt_insert_old _ _ ha, fun j hj hw => Fifo.byteAt_insert_new _ _ hl.1 hw hj⟩

/-- LOG_APPEND has the effect R190 and R191 give it. -/
theorem logAppend_appended {record : List Byte} {s : State} (hn : s.size ≤ 65535) (hl : FifoLegal s) :
    Appended record s (logAppend record s) := by
  have hb := logAppend_byteAt (record := record) hl
  refine ⟨?_, ?_, hb.1, hb.2, ?_⟩
  · rcases logAppend_cases record s with h | h <;> rw [h] <;> rfl
  · rcases logAppend_cases record s with h | h <;> rw [h] <;> rfl
  · split
    · next h =>
      have hw : s.fifo.writtenCount s.size record = record.length := by simp only [Fifo.writtenCount]; omega
      have h0 : 0 < s.size := Nat.lt_of_le_of_lt (Nat.zero_le _) hl.1
      rw [logAppend_fits h]
      refine ⟨?_, rfl, rfl, ?_, rfl⟩
      · simp only [State.logBytes, setFifo_fifo, State.size, setFifo_cfg]
        rw [Fifo.contents_insert record hn hl.1 hl.2, hw, List.take_length]
      · simpa [hw] using Fifo.insert_head record s.fifo hn h0
    · next h =>
      rw [logAppend_overflows h]
      exact ⟨rfl, rfl, by simp [State.logBytes, overflowRecovery, Fifo.contents, Fifo.run], rfl, rfl⟩

/-- What an append did is read from the FIFO, `status` and the parameters alone. -/
theorem Appended.congr {record : List Byte} {s s' t t' : State} (h : Appended record s t) (hs : s'.fifo = s.fifo)
    (hss : s'.status = s.status) (hsc : s'.cfg = s.cfg) (ht : t'.fifo = t.fifo) (hts : t'.status = t.status)
    (htc : t'.cfg = t.cfg) : Appended record s' t' := by
  simpa only [Appended, outsideWrite, State.logBytes, State.size, hs, hss, hsc, ht, hts, htc] using h

/-- The indices stay in range. -/
theorem logAppend_legal {record : List Byte} {s : State} (hn : s.size ≤ 65535) (hl : FifoLegal s) :
    FifoLegal (logAppend record s) := by
  have h0 : 0 < s.size := Nat.lt_of_le_of_lt (Nat.zero_le _) hl.1
  by_cases h : record.length ≤ s.fifo.freeTotal s.size
  · rw [logAppend_fits h]
    exact ⟨by simpa [State.size] using (Fifo.insert_head record s.fifo hn h0).symm ▸ Nat.mod_lt _ h0, hl.2⟩
  · rw [logAppend_overflows h]
    exact ⟨by simpa [overflowRecovery, State.size] using h0, by simpa [overflowRecovery, State.size] using h0⟩

/-- Storage after an append: the bytes of the record that fit have been written. -/
theorem logAppend_store (record : List Byte) (s : State) :
    (logAppend record s).fifo.store = (s.fifo.insert s.size record).store := by
  rcases logAppend_cases record s with h | h <;> rw [h] <;> rfl

end Sys2Proof.Machine
end

