-- ==== Sys2Proof/Laws/Exec.lean ====
section
/-! SUPPORT. What each operation answers where its agent has a step, one lemma per meaning, and how runs compose. -/

namespace Sys2Proof.Machine

/-! ### The FIFO standing alone -/

theorem exec_fifoInsert {s : State} (data : List Byte) (h : FifoReady s) :
    exec (.fifoInsert data) s = .next (giveResult (.count (s.fifo.writtenCount s.size data))
      (setFifo (s.fifo.insert s.size data) s)) := fifoStep_of_ready _ h

theorem exec_fifoAvail {s : State} (h : FifoReady s) :
    exec .fifoAvail s = .next (giveResult (.count (s.fifo.avail s.size)) s) := fifoStep_of_ready _ h

theorem exec_fifoFree {s : State} (h : FifoReady s) :
    exec .fifoFree s = .next (giveResult (.count (s.fifo.free s.size)) s) := fifoStep_of_ready _ h

theorem exec_fifoReset {s : State} (h : FifoReady s) : exec .fifoReset s = .next (setFifo s.fifo.clear s) :=
  fifoStep_of_ready _ h

theorem exec_fifoReadDrain {s : State} (m : Limit) (cs : List Nat) (h : FifoReady s) :
    exec (.fifoReadDrain m cs) s = .next (
      if (s.fifo.readDrain s.size m (listedConsumer cs)).overconsumed then
        raiseFault .drainOverconsume (setFifo (s.fifo.readDrain s.size m (listedConsumer cs)).fifo s)
      else giveResult (.drained (s.fifo.readDrain s.size m (listedConsumer cs)).total
        (s.fifo.readDrain s.size m (listedConsumer cs)).runs)
        (setFifo (s.fifo.readDrain s.size m (listedConsumer cs)).fifo s)) := fifoStep_of_ready _ h

theorem exec_fifoRead {s : State} (m : Limit) (h : FifoReady s) (hl : FifoLegal s) :
    exec (.fifoRead m) s = .next (giveResult (.bytes (s.logBytes.take (Limit.cap m 0 s.logBytes.length)))
      (setFifo (s.fifo.advance s.size (Limit.cap m 0 s.logBytes.length)) s)) := by
  obtain ⟨_, e2, e3⟩ := Fifo.readDrain_copy m s.fifo h.size_le hl.1 hl.2
  rw [exec, execFifoRead, fifoStep_of_ready _ h]
  simp only [State.logBytes, Fifo.contents_length, e2, e3]

/-! ### The LOG -/

theorem exec_logAppend {s : State} (record : List Byte) (h : Ready s) :
    exec (.logAppend record) s = .next (giveResult (.count (s.fifo.writtenCount s.size record)) (logAppend record s)) :=
  coreStep_of_ready _ h

/-- READLOG and LOG_DRAIN take the drain step MAIN's phase gives. -/
theorem exec_drain {s : State} {i : Instr} (hi : i = .readlog ∨ i = .logDrain) (h : Ready s) :
    exec i s = .next (if drainEnabled s then drainStep s else s) := by
  rcases hi with rfl | rfl <;> exact mainStep_of_ready _ _ h

theorem chunkLength_eq (s : State) : chunkLength s = min (s.fifo.avail s.size) 255 := rfl

/-! ### The engine and the indicator -/

theorem exec_peEdge {s : State} (rxLow : Bool) (h : Ready s) : exec (.peEdge rxLow) s = .next (edgeStep rxLow s) :=
  coreStep_of_ready _ h

theorem exec_peSend {s : State} (c h u : Byte) (hr : Ready s) :
    exec (.peSend c h u) s = .next (if sendEnabled s then sendStep (latchArgs c h u s) else s) :=
  mainStep_of_ready _ _ hr

theorem exec_tmrTick {s : State} (h : Ready s) : exec .tmrTick s = .next (tickStep s) := coreStep_of_ready _ h

theorem exec_indPulse {s : State} (d : Nat) (h : Ready s) : exec (.indPulse d) s =
    if 65535 < d then .refused .pulseTooLong
    else .next { s with ind := { s.ind with remaining := BitVec.ofNat 16 d } } := coreStep_of_ready _ h

/-- Everything a tick does (R271): `uptime`, `remaining`, and a pulse in `indTrace`. -/
theorem tickStep_eq (s : State) : ∃ (v : BitVec 32) (r : BitVec 16),
    v.toNat = (s.ind.uptime.toNat + 1) % 2 ^ 32 ∧ r.toNat = s.ind.remaining.toNat - 1 ∧
    tickStep s = { s with
      ind := { remaining := r, uptime := v, indOut := false }
      ports := { s.ports with indTrace :=
        if 0 < s.ind.remaining.toNat ∧ v.toNat % 8 = 0 then s.ports.indTrace ++ [v] else s.ports.indTrace } } := by
  have h8 : eighthTick (s.ind.uptime + 1) = decide ((s.ind.uptime + 1).toNat % 8 = 0) := by
    rw [eighthTick, Bool.eq_iff_iff, beq_iff_eq, ← BitVec.toNat_inj]; simp
  by_cases h0 : s.ind.remaining = 0
  · refine ⟨s.ind.uptime + 1, s.ind.remaining, BitVec.toNat_add .., by rw [h0]; rfl, ?_⟩
    simp [tickStep, h0]
  · have hn : s.ind.remaining.toNat ≠ 0 := fun e => h0 (BitVec.eq_of_toNat_eq (by simpa using e))
    refine ⟨s.ind.uptime + 1, s.ind.remaining - 1, BitVec.toNat_add .., by rw [BitVec.toNat_sub]; simp; omega, ?_⟩
    rw [tickStep, if_neg h0, h8]
    by_cases h : (s.ind.uptime + 1).toNat % 8 = 0
    · rw [if_pos (by simpa using h), if_pos ⟨by omega, h⟩]; rfl
    · rw [if_neg (by simpa using h), if_neg (fun e => h e.2)]

/-! ### Host commands -/

theorem exec_hostByte {s : State} (b : Byte) (h : Ready s) : exec (.hostByte b) s = .next (arrive b s) :=
  coreStep_of_ready _ h

theorem exec_mainPoll {s : State} (h : Ready s) :
    exec .mainPoll s = .next (if s.seq.phase == .poll && hasPendingData s then pollStep s else s) :=
  mainStep_of_ready _ _ h

theorem exec_ping {s : State} (h : Ready s) :
    exec .ping s = .next (if s.seq.phase == .ping then pingStep s else s) := mainStep_of_ready _ _ h

theorem exec_uptime {s : State} (h : Ready s) :
    exec .uptime s = .next (if s.seq.phase == .uptime then uptimeStep s else s) := mainStep_of_ready _ _ h

theorem exec_status {s : State} (h : Ready s) :
    exec .status s = .next (if s.seq.phase == .status then statusStep s else s) := mainStep_of_ready _ _ h

theorem exec_invalid {s : State} (b : Byte) (h : Ready s) : exec (.invalid b) s =
    .next (if s.seq.phase == .invalid then invalidStep { s with seq := { s.seq with cmdByte := b } } else s) :=
  mainStep_of_ready _ _ h

theorem exec_sendcode {s : State} (c h u : Byte) (hr : Ready s) :
    exec (.sendcode c h u) s = .next (if sendcodeEnabled s then sendcodeStep (latchArgs c h u s) else s) :=
  mainStep_of_ready _ _ hr

theorem exec_reset {s : State} (h : Ready s) : exec .reset s = .next (bootStep s) := coreStep_of_ready _ h

/-- RESET's result (R66, R370, R371). -/
theorem bootStep_eq {s : State} (h : Ready s) :
    bootStep s = { clearState s with
      fifo := { store := [(0, 0x01)], epoch := s.fifo.epoch + 1, head := 1, tail := 0, readOpen := false,
                spoiled := false } } := by
  have h1 : 5 ≤ s.cfg.capacity := h.size_ge
  have hc : (clearState s).fifo.init.count s.cfg.capacity = 0 := by
    simp [Fifo.count, clearState, State.cleared, Fifo.init]
  have hf : (clearState s).fifo.init.freeTotal s.cfg.capacity = s.cfg.capacity - 1 := by simp [Fifo.freeTotal, hc]
  have hw : (clearState s).fifo.init.writtenCount s.cfg.capacity startupRecord = 1 := by
    simp [Fifo.writtenCount, hf, startupRecord]; omega
  have hm : 1 % s.cfg.capacity = 1 := Nat.mod_eq_of_lt (by omega)
  rw [bootStep, logAppend_fits (by simp [State.size, clearState, State.cleared] at *; rw [hf]; simp [startupRecord]; omega)]
  simp only [setFifo, State.size, show (clearState s).cfg = s.cfg from rfl, Fifo.insert, hw]
  simp [Fifo.init, startupRecord, clearState, State.cleared, writeRun, Memory.write, indexAdd, hm]

/-! ### What lets an operation answer a next state -/

/-- Every operation but the FIFO's own needs the whole core ready. -/
theorem exec_next_ready {i : Instr} {s t : State} (h : exec i s = .next t) (hi : fifoOnly i = false) : Ready s := by
  cases i <;> first | exact (coreStep_next h).1 | exact (mainStep_next h).1 | cases hi

/-- A fault already raised leaves no step. -/
theorem exec_next_noFault {i : Instr} {s t : State} (h : exec i s = .next t) : s.faults = [] := by
  cases i <;> first | exact (coreStep_next h).1.1 | exact (mainStep_next h).1.1 | exact (fifoStep_next h).1.1

/-- The next state each operation answers, where it answers one. -/
def effect (i : Instr) (s : State) : State :=
  match i with
  | .ping => if s.seq.phase == .ping then pingStep s else s
  | .uptime => if s.seq.phase == .uptime then uptimeStep s else s
  | .status => if s.seq.phase == .status then statusStep s else s
  | .readlog => if drainEnabled s then drainStep s else s
  | .sendcode c h u => if sendcodeEnabled s then sendcodeStep (latchArgs c h u s) else s
  | .invalid b => if s.seq.phase == .invalid then invalidStep { s with seq := { s.seq with cmdByte := b } } else s
  | .reset => bootStep s
  | .fifoInit _ => setFifo s.fifo.init s
  | .fifoInsert d => giveResult (.count (s.fifo.writtenCount s.size d)) (setFifo (s.fifo.insert s.size d) s)
  | .fifoAvail => giveResult (.count (s.fifo.avail s.size)) s
  | .fifoFree => giveResult (.count (s.fifo.free s.size)) s
  | .fifoReadDrain m cs =>
    if (s.fifo.readDrain s.size m (listedConsumer cs)).overconsumed then
      raiseFault .drainOverconsume (setFifo (s.fifo.readDrain s.size m (listedConsumer cs)).fifo s)
    else giveResult (.drained (s.fifo.readDrain s.size m (listedConsumer cs)).total
        (s.fifo.readDrain s.size m (listedConsumer cs)).runs)
        (setFifo (s.fifo.readDrain s.size m (listedConsumer cs)).fifo s)
  | .fifoRead m =>
    giveResult (.bytes (s.fifo.readDrain s.size m copyConsumer).taken) (setFifo (s.fifo.readDrain s.size m copyConsumer).fifo s)
  | .fifoReset => setFifo s.fifo.clear s
  | .logAppend d => giveResult (.count (s.fifo.writtenCount s.size d)) (logAppend d s)
  | .logDrain => if drainEnabled s then drainStep s else s
  | .peEdge l => edgeStep l s
  | .peSend c h u => if sendEnabled s then sendStep (latchArgs c h u s) else s
  | .indPulse d => { s with ind := { s.ind with remaining := BitVec.ofNat 16 d } }
  | .tmrTick => tickStep s
  | .mainPoll => if s.seq.phase == .poll && hasPendingData s then pollStep s else s
  | .hostByte b => arrive b s

/-- The one inversion lemma of `exec`: a next state is the operation's effect. -/
theorem exec_next {i : Instr} {s t : State} (h : exec i s = .next t) : t = effect i s := by
  cases i with
  | fifoInit n =>
    obtain ⟨_, h⟩ := fifoStep_next h
    split at h
    · exact (Host.Outcome.next.inj h).symm
    · cases h
  | indPulse d =>
    obtain ⟨_, h⟩ := coreStep_next h
    split at h
    · cases h
    · exact (Host.Outcome.next.inj h).symm
  | _ => first
    | exact (Host.Outcome.next.inj (coreStep_next h).2).symm
    | exact (mainStep_next h).2
    | exact (Host.Outcome.next.inj (fifoStep_next h).2).symm

/-! ### Runs -/

theorem execAll_append (is js : List Instr) (s : State) :
    execAll (is ++ js) s =
      match execAll is s with
      | .next t => execAll js t
      | .fault r => .fault r
      | .refused r => .refused r := by
  induction is generalizing s with
  | nil => rfl
  | cons i is ih =>
    simp only [List.cons_append, execAll]
    cases exec i s <;> simp [ih]

/-- A run of two parts that both answer next. -/
theorem execAll_append_next {is js : List Instr} {s t u : State} (h : execAll is s = .next t) (h' : execAll js t = .next u) :
    execAll (is ++ js) s = .next u := by rw [execAll_append, h]; exact h'

end Sys2Proof.Machine
end

