-- ==== Sys2Proof/Laws/Commands.lean ====
section
/-! SUPPORT. What the multi-step operations change, said once each: a receive, a drain step, a send step and a SENDCODE step;
and that every FIFO operation keeps the FIFO's invariant. -/

namespace Sys2Proof.Machine

/-- The two cases of a receive (R12). -/
theorem receive_induct {s : State} (k : Byte → State → State) (P : State → Prop) (h0 : s.ports.rxq = [] → P s)
    (h1 : ∀ b rest, s.ports.rxq = b :: rest → P (k b { s with ports := { s.ports with rxq := rest } })) :
    P (receive k s) := by
  rw [receive]; split
  · exact h1 _ _ ‹_›
  · exact h0 ‹_›

/-- A drain step changes the FIFO, `status`, the sequencer, `txq` and the faults (R196 to R198). -/
theorem drainStep_frame (s : State) :
    drainStep s = { s with fifo := (drainStep s).fifo, status := (drainStep s).status, seq := (drainStep s).seq,
                           ports := { s.ports with txq := (drainStep s).ports.txq }, faults := (drainStep s).faults } := by
  rw [drainStep]
  split
  · simp only [advanceChunk]; split <;> rfl
  · split <;> rfl

/-- A send step changes the engine in its start step, the phase, `txq` and the result (R245 to R248). -/
theorem sendStep_frame (s : State) :
    sendStep s = { s with engine := (sendStep s).engine, seq := { s.seq with phase := (sendStep s).seq.phase },
                          ports := { s.ports with txq := (sendStep s).ports.txq }, env := (sendStep s).env } := by
  simp only [sendStep, sendStart]
  repeat' split
  all_goals rfl

/-- Outside the send-start step the engine is left (R51). -/
theorem sendStep_engine {s : State} (h : s.seq.phase ≠ .scStart) : (sendStep s).engine = s.engine := by
  simp only [sendStep, sendDone]
  split <;> first | exact absurd ‹_› h | simp

/-- A SENDCODE step changes the LOG in SC_LOG, the engine in SC_START, the sequencer and the queues (R299 to R308). -/
theorem sendcodeStep_frame (s : State) :
    sendcodeStep s = { s with fifo := (sendcodeStep s).fifo, status := (sendcodeStep s).status,
                              engine := (sendcodeStep s).engine, seq := (sendcodeStep s).seq,
                              ports := { s.ports with rxq := (sendcodeStep s).ports.rxq,
                                                      txq := (sendcodeStep s).ports.txq },
                              env := (sendcodeStep s).env } := by
  have recv : ∀ k : Byte → State → State,
      (∀ b t, k b t = { t with seq := (k b t).seq }) →
      receive k s = { s with fifo := (receive k s).fifo, status := (receive k s).status, engine := (receive k s).engine,
                             seq := (receive k s).seq,
                             ports := { s.ports with rxq := (receive k s).ports.rxq, txq := (receive k s).ports.txq },
                             env := (receive k s).env } := fun k hk => by
    rw [receive]; split
    · rw [hk]
    · rfl
  simp only [sendcodeStep]
  split
  · exact recv _ fun _ _ => rfl
  · exact recv _ fun _ _ => rfl
  · exact recv _ fun _ _ => rfl
  · rw [sendLogStep, logAppend_frame]; rfl
  · rw [sendStep_frame]
  · rw [sendStep_frame]
  · rw [sendStep_frame]
  all_goals rfl

/-! ### The FIFO's invariant -/

theorem FifoInv.pos {n : Nat} {f : Fifo} (h : FifoInv n f) : 0 < n := Nat.lt_of_le_of_lt (Nat.zero_le _) h.head_lt

theorem FifoInv.insert {n : Nat} {f : Fifo} (d : List Byte) (h : FifoInv n f) (hn : n ≤ 65535) :
    FifoInv n (f.insert n d) :=
  ⟨by rw [Fifo.insert_head _ _ hn h.pos]; exact Nat.mod_lt _ h.pos, h.tail_lt, writeRun_wf _ _ h.store_wf,
    writeRun_in _ _ h.pos h.store_in⟩

theorem FifoInv.advance {n : Nat} {f : Fifo} (c : Nat) (h : FifoInv n f) (hn : n ≤ 65535) : FifoInv n (f.advance n c) :=
  ⟨h.head_lt, Fifo.advance_tail_lt c f hn h.pos, h.store_wf, h.store_in⟩

theorem FifoInv.clear {n : Nat} {f : Fifo} (h : FifoInv n f) : FifoInv n f.clear :=
  ⟨h.pos, h.pos, h.store_wf, h.store_in⟩

theorem FifoInv.init {n : Nat} {f : Fifo} (h : FifoInv n f) : FifoInv n f.init :=
  ⟨h.pos, h.pos, h.store_wf, h.store_in⟩

theorem FifoInv.readDrain {n : Nat} {f : Fifo} (m : Limit) (c : Nat → Nat → Nat) (h : FifoInv n f) (hn : n ≤ 65535) :
    FifoInv n (f.readDrain n m c).fifo := by
  obtain ⟨k, _, _, _, e, _⟩ := Fifo.readDrain_takes m c f hn h.head_lt h.tail_lt
  exact e ▸ h.advance k hn

/-! ### The environment -/

/-- What the environment still has to do is no part of the invariant. -/
theorem CoreInv.of_env {s : State} (e : Environment) (h : CoreInv s) : CoreInv { s with env := e } :=
  { cfg_ok := h.cfg_ok, fifo := h.fifo, status_reserved := h.status_reserved, engine := h.engine, ind_off := h.ind_off,
    phase := ⟨h.phase.halted, h.phase.chunk_open, h.phase.open_phase, h.phase.spoiled_open, h.phase.sending⟩,
    faults_nodup := h.faults_nodup }

theorem Written.of_env {s : State} (e : Environment) (h : Written s) : Written { s with env := e } := h

/-- Storage after reset is in canonical form. -/
theorem reset_store_wf : State.reset.fifo.store.wf := by decide

end Sys2Proof.Machine
end

