-- ==== Sys2Proof/Laws/Engine.lean ====
section
/-! SUPPORT. The edge step branch by branch (spec/42_protocol_engine.md R220 to R229), what it leaves, and runs of edges. -/

namespace Sys2Proof.Machine

/-! ### One branch at a time -/

theorem edgeStep_tx {s : State} (l : Bool) (hp : s.engine.pending = true) : edgeStep l s = txStep s := by
  simp [edgeStep, hp]

theorem edgeStep_quiet {s : State} (l : Bool) (hp : s.engine.pending = false) (hq : s.engine.rxQuiet ≠ 0) :
    edgeStep l s = quietStep s := by
  rw [edgeStep, if_neg (by simp [hp]), if_pos hq]

theorem edgeStep_start {s : State} (l : Bool) (hp : s.engine.pending = false) (hq : s.engine.rxQuiet = 0)
    (hb : s.engine.bitCount = 0) : edgeStep l s = startDetect l s := by
  rw [edgeStep, if_neg (by simp [hp]), if_neg (by simp [hq]), if_pos hb]

theorem edgeStep_complete {s : State} (l : Bool) (hp : s.engine.pending = false) (hq : s.engine.rxQuiet = 0)
    (hb : s.engine.bitCount = 13) : edgeStep l s = completeStep s := by
  rw [edgeStep, if_neg (by simp [hp]), if_neg (by simp [hq]), if_neg (by rw [hb]; decide), if_pos hb]

theorem edgeStep_frame {s : State} (l : Bool) (hp : s.engine.pending = false) (hq : s.engine.rxQuiet = 0)
    (h0 : s.engine.bitCount ≠ 0) (h13 : s.engine.bitCount ≠ 13) : edgeStep l s = frameEdge l s := by
  rw [edgeStep, if_neg (by simp [hp]), if_neg (by simp [hq]), if_neg h0, if_neg h13]

/-- The branches of an edge: exactly one runs (R220). -/
theorem edgeStep_cases (l : Bool) (s : State) :
    (s.engine.pending = true ∧ edgeStep l s = txStep s) ∨
    (s.engine.pending = false ∧ s.engine.rxQuiet ≠ 0 ∧ edgeStep l s = quietStep s) ∨
    (s.engine.pending = false ∧ s.engine.rxQuiet = 0 ∧ s.engine.bitCount = 0 ∧ edgeStep l s = startDetect l s) ∨
    (s.engine.pending = false ∧ s.engine.rxQuiet = 0 ∧ s.engine.bitCount = 13 ∧ edgeStep l s = completeStep s) ∨
    (s.engine.pending = false ∧ s.engine.rxQuiet = 0 ∧ s.engine.bitCount ≠ 0 ∧ s.engine.bitCount ≠ 13 ∧
      edgeStep l s = frameEdge l s) := by
  cases hp : s.engine.pending
  · by_cases hq : s.engine.rxQuiet = 0
    · by_cases h0 : s.engine.bitCount = 0
      · exact .inr (.inr (.inl ⟨rfl, hq, h0, edgeStep_start l hp hq h0⟩))
      · by_cases h13 : s.engine.bitCount = 13
        · exact .inr (.inr (.inr (.inl ⟨rfl, hq, h13, edgeStep_complete l hp hq h13⟩)))
        · exact .inr (.inr (.inr (.inr ⟨rfl, hq, h0, h13, edgeStep_frame l hp hq h0 h13⟩)))
    · exact .inr (.inl ⟨rfl, hq, edgeStep_quiet l hp hq⟩)
  · exact .inl ⟨rfl, edgeStep_tx l hp⟩

/-- A completed unit frame (R229): the engine's registers, and nothing else. -/
theorem completeStep_unit {s : State} (h : accFlag s.engine.acc = false) :
    completeStep s = setEngine { s.engine with
      houseReg := accHouse s.engine.acc, unitReg := accKey s.engine.acc, bitCount := 0, edgeCount := 0,
      rxQuiet := BitVec.ofNat 8 s.cfg.rxQuietEdges } s := by simp [completeStep, h, unitFrame, setEngine]

/-- A completed command frame (R228): one record, and the engine's registers. -/
theorem completeStep_command {s : State} (h : accFlag s.engine.acc = true) :
    completeStep s = setEngine { s.engine with
      houseReg := 0, unitReg := 0, cmdReg := 0, bitCount := 0, edgeCount := 0,
      rxQuiet := BitVec.ofNat 8 s.cfg.rxQuietEdges }
      (logAppend (recvRecord (accKey s.engine.acc) (accHouse s.engine.acc) s.engine.unitReg) s) := by
  simp [completeStep, h, commandFrame, setEngine]

/-! ### What an edge leaves -/

/-- An edge changes the engine, the line's trace and what one append changes. -/
theorem edgeStep_frame_of (l : Bool) (s : State) :
    edgeStep l s = { s with fifo := (edgeStep l s).fifo, status := (edgeStep l s).status,
                            engine := (edgeStep l s).engine,
                            ports := { s.ports with lineTrace := (edgeStep l s).ports.lineTrace } } := by
  rcases edgeStep_cases l s with h | h | h | h | h
  · rw [h.2, txStep]; split <;> rfl
  · rw [h.2.2]; rfl
  · rw [h.2.2.2, startDetect]; split <;> rfl
  · rw [h.2.2.2]
    cases hf : accFlag s.engine.acc
    · rw [completeStep_unit hf]; rfl
    · rw [completeStep_command hf, logAppend_frame]; rfl
  · rw [h.2.2.2.2, frameEdge]; split <;> rfl

@[simp] theorem edgeStep_cfg (l : Bool) (s : State) : (edgeStep l s).cfg = s.cfg := by rw [edgeStep_frame_of]
@[simp] theorem edgeStep_size (l : Bool) (s : State) : (edgeStep l s).size = s.size := by rw [State.size, edgeStep_cfg]
@[simp] theorem edgeStep_ind (l : Bool) (s : State) : (edgeStep l s).ind = s.ind := by rw [edgeStep_frame_of]
@[simp] theorem edgeStep_seq (l : Bool) (s : State) : (edgeStep l s).seq = s.seq := by rw [edgeStep_frame_of]
@[simp] theorem edgeStep_faults (l : Bool) (s : State) : (edgeStep l s).faults = s.faults := by rw [edgeStep_frame_of]
@[simp] theorem edgeStep_env (l : Bool) (s : State) : (edgeStep l s).env = s.env := by rw [edgeStep_frame_of]

theorem edgeStep_ready {s : State} (l : Bool) (h : Ready s) : Ready (edgeStep l s) :=
  ⟨(edgeStep_faults l s).trans h.1, (congrArg Config.ok (edgeStep_cfg l s)).trans h.2⟩

/-! ### Runs of edges -/

/-- `step` after each level in turn. -/
def edgeSteps (levels : List Bool) (s : State) : State := levels.foldl (fun s l => edgeStep l s) s

@[simp] theorem edgeSteps_nil (s : State) : edgeSteps [] s = s := rfl

@[simp] theorem edgeSteps_cons (l : Bool) (ls : List Bool) (s : State) :
    edgeSteps (l :: ls) s = edgeSteps ls (edgeStep l s) := rfl

theorem edgeSteps_append (as bs : List Bool) (s : State) : edgeSteps (as ++ bs) s = edgeSteps bs (edgeSteps as s) :=
  List.foldl_append ..

/-- A run of PE_EDGE operations answers next. -/
theorem execAll_edges (levels : List Bool) {s : State} (h : Ready s) :
    execAll (levels.map Instr.peEdge) s = .next (edgeSteps levels s) := by
  induction levels generalizing s with
  | nil => rfl
  | cons l ls ih =>
    simp only [List.map_cons, execAll, exec_peEdge l h, edgeSteps_cons]
    exact ih (edgeStep_ready l h)

theorem txSlots_length (cfg : Config) (h u c : BitVec 4) : (txSlots cfg h u c).length = 44 + cfg.txGapSlots := by
  have l : ∀ h k f, (frameSlots h k f).length = 22 := fun _ _ _ => rfl
  simp [txSlots, l]; omega

end Sys2Proof.Machine
end

