-- ==== Sys2Proof/Laws/PerInstr.lean ====
section
/-! SUPPORT. The family LeadByte: the first byte of a well-formed operation's encoding belongs to its own row of the opcode
table, and to no other of its format (spec/30_encoding.md R111, R135, R136). -/

namespace Sys2Proof.Laws.LeadByte

/-- The row a byte belongs to, in a format. -/
def rowOf (f : OpFormat) (b : Byte) : Option Opcode :=
  match f with
  | .hostCmd => some (hostOpcode b)
  | .portOp =>
    match portOpcode b with
    | .ok op => some op
    | .error _ => none

/-- The first byte of the encoding of `i` selects the row of `i`. -/
def Statement (i : Instr) : Prop := i.wf = true → rowOf i.format i.lead = some i.opcode

theorem ping : Statement .ping := fun _ => show rowOf .hostCmd 0x01 = some .ping by decide
theorem uptime : Statement .uptime := fun _ => show rowOf .hostCmd 0x02 = some .uptime by decide
theorem status : Statement .status := fun _ => show rowOf .hostCmd 0x03 = some .status by decide
theorem readlog : Statement .readlog := fun _ => show rowOf .hostCmd 0x04 = some .readlog by decide
theorem sendcode (c h u : Byte) : Statement (.sendcode c h u) := fun _ => show rowOf .hostCmd 0x05 = some .sendcode by decide
theorem reset : Statement .reset := fun _ => show rowOf .portOp 0x00 = some .reset by decide
theorem fifoInit (n : Nat) : Statement (.fifoInit n) := fun _ => show rowOf .portOp 0x01 = some .fifoInit by decide
theorem fifoInsert (d : List Byte) : Statement (.fifoInsert d) := fun _ => show rowOf .portOp 0x02 = some .fifoInsert by decide
theorem fifoAvail : Statement .fifoAvail := fun _ => show rowOf .portOp 0x03 = some .fifoAvail by decide
theorem fifoFree : Statement .fifoFree := fun _ => show rowOf .portOp 0x04 = some .fifoFree by decide
theorem fifoReadDrain (m : Limit) (cs : List Nat) : Statement (.fifoReadDrain m cs) :=
  fun _ => show rowOf .portOp 0x05 = some .fifoReadDrain by decide
theorem fifoRead (m : Limit) : Statement (.fifoRead m) := fun _ => show rowOf .portOp 0x06 = some .fifoRead by decide
theorem fifoReset : Statement .fifoReset := fun _ => show rowOf .portOp 0x07 = some .fifoReset by decide
theorem logAppend (d : List Byte) : Statement (.logAppend d) := fun _ => show rowOf .portOp 0x08 = some .logAppend by decide
theorem logDrain : Statement .logDrain := fun _ => show rowOf .portOp 0x09 = some .logDrain by decide
theorem peEdge (l : Bool) : Statement (.peEdge l) := fun _ => show rowOf .portOp 0x0A = some .peEdge by decide
theorem peSend (c h u : Byte) : Statement (.peSend c h u) := fun _ => show rowOf .portOp 0x0B = some .peSend by decide
theorem indPulse (d : Nat) : Statement (.indPulse d) := fun _ => show rowOf .portOp 0x0C = some .indPulse by decide
theorem tmrTick : Statement .tmrTick := fun _ => show rowOf .portOp 0x0D = some .tmrTick by decide
theorem mainPoll : Statement .mainPoll := fun _ => show rowOf .portOp 0x0E = some .mainPoll by decide
theorem hostByte (b : Byte) : Statement (.hostByte b) := fun _ => show rowOf .portOp 0x0F = some .hostByte by decide

/-- A byte that is none of the five commands selects INVALID. -/
theorem hostOpcode_of_not_command {b : Byte} (h : isCommandByte b = false) : hostOpcode b = .invalid := by
  revert h; revert b; decide

theorem invalid (b : Byte) : Statement (.invalid b) := fun h => by
  have : isCommandByte b = false := by simpa [Instr.wf] using h
  simp [rowOf, Instr.format, Instr.opcode, Opcode.format, Instr.lead, hostOpcode_of_not_command this]

/-- Every operation's first byte selects its row. -/
theorem all (i : Instr) : Statement i := by
  cases i with
  | ping => exact ping
  | uptime => exact uptime
  | status => exact status
  | readlog => exact readlog
  | sendcode c h u => exact sendcode c h u
  | invalid b => exact invalid b
  | reset => exact reset
  | fifoInit n => exact fifoInit n
  | fifoInsert d => exact fifoInsert d
  | fifoAvail => exact fifoAvail
  | fifoFree => exact fifoFree
  | fifoReadDrain m cs => exact fifoReadDrain m cs
  | fifoRead m => exact fifoRead m
  | fifoReset => exact fifoReset
  | logAppend d => exact logAppend d
  | logDrain => exact logDrain
  | peEdge l => exact peEdge l
  | peSend c h u => exact peSend c h u
  | indPulse d => exact indPulse d
  | tmrTick => exact tmrTick
  | mainPoll => exact mainPoll
  | hostByte b => exact hostByte b

/-- Decoding an encoding reads the operands of the operation's own row. -/
theorem decode_lead {i : Instr} (h : i.wf = true) (rest : List Byte) :
    decode i.format (encode i ++ rest) = decodeOperands i.opcode i.lead (i.operandBytes ++ rest) := by
  have hi := all i h
  cases hf : i.format <;> rw [hf] at hi
  · have : hostOpcode i.lead = i.opcode := by simpa [rowOf] using hi
    simp [decode, decodeHost, encode, this]
  · have : portOpcode i.lead = .ok i.opcode := by
      simp only [rowOf] at hi
      split at hi
      · next h' => rw [h', Option.some.inj hi]
      · cases hi
    simp [decode, decodePort, encode, this]

end Sys2Proof.Laws.LeadByte
end

