-- ==== Sys2Proof/Laws/Receive.lean ====
section
/-! SUPPORT. Receiving a frame (spec/42_protocol_engine.md R230): the edges of a frame as a function of the engine's registers
alone, and the accumulator they leave. -/

namespace Sys2Proof.Machine

/-- One edge of the receiver, before a frame is complete: start detection, sample or skip. -/
def rxEdge (e : Engine) (l : Bool) : Engine :=
  if e.bitCount = 0 then
    if l then { e with acc := startAcc, mask := startMask, bitCount := 1, edgeCount := 1 } else e
  else if e.bitCount.toNat ≤ 4 ∨ (e.edgeCount + 1).toNat % 2 = 1 then
    { e with edgeCount := e.edgeCount + 1, acc := if l then e.acc ||| e.mask else e.acc, mask := e.mask >>> 1,
             bitCount := e.bitCount + 1 }
  else { e with edgeCount := e.edgeCount + 1 }

/-- Outside a transmission, the quiet window and a completion, an edge is `rxEdge`. -/
theorem edgeStep_rxEdge {s : State} (l : Bool) (hp : s.engine.pending = false) (hq : s.engine.rxQuiet = 0)
    (hb : s.engine.bitCount ≠ 13) : edgeStep l s = setEngine (rxEdge s.engine l) s := by
  by_cases h0 : s.engine.bitCount = 0
  · rw [edgeStep_start l hp hq h0, startDetect, rxEdge, if_pos h0]; split <;> rfl
  · rw [edgeStep_frame l hp hq h0 hb, frameEdge, rxEdge, if_neg h0]; split <;> rfl

theorem rxEdge_keeps (e : Engine) (l : Bool) : (rxEdge e l).pending = e.pending ∧ (rxEdge e l).rxQuiet = e.rxQuiet := by
  simp only [rxEdge]; repeat' split
  all_goals exact ⟨rfl, rfl⟩

/-- No edge of the list is the completing one. -/
def rxOpen : List Bool → Engine → Bool
  | [], _ => true
  | l :: ls, e => e.bitCount != 13 && rxOpen ls (rxEdge e l)

theorem edgeSteps_rxEdge (ls : List Bool) {s : State} (hp : s.engine.pending = false) (hq : s.engine.rxQuiet = 0)
    (ho : rxOpen ls s.engine = true) : edgeSteps ls s = setEngine (ls.foldl rxEdge s.engine) s := by
  induction ls generalizing s with
  | nil => rfl
  | cons l ls ih =>
    simp only [rxOpen, Bool.and_eq_true, bne_iff_ne] at ho
    have hk := rxEdge_keeps s.engine l
    rw [edgeSteps_cons, edgeStep_rxEdge l hp hq ho.1, ih (by simp [hk, hp]) (by simp [hk, hq]) ho.2]; rfl

/-- The same engine with other transmit registers, which the receiver neither reads nor writes. -/
def withTxRegs (tx : BitVec 8) (hr ur cr : BitVec 4) (e : Engine) : Engine :=
  { e with txSlot := tx, houseReg := hr, unitReg := ur, cmdReg := cr }

theorem rxEdge_withTxRegs (tx : BitVec 8) (hr ur cr : BitVec 4) (l : Bool) (e : Engine) :
    rxEdge (withTxRegs tx hr ur cr e) l = withTxRegs tx hr ur cr (rxEdge e l) := by
  by_cases h0 : e.bitCount = 0
  · cases l <;> simp [rxEdge, withTxRegs, h0]
  · by_cases h : e.bitCount.toNat ≤ 4 ∨ (e.edgeCount + 1).toNat % 2 = 1
    · rw [rxEdge, rxEdge, if_neg (by exact h0), if_neg h0, if_pos (by exact h), if_pos h]; rfl
    · rw [rxEdge, rxEdge, if_neg (by exact h0), if_neg h0, if_neg (by exact h), if_neg h]; rfl

theorem foldl_rxEdge_withTxRegs (tx : BitVec 8) (hr ur cr : BitVec 4) (ls : List Bool) (e : Engine) :
    ls.foldl rxEdge (withTxRegs tx hr ur cr e) = withTxRegs tx hr ur cr (ls.foldl rxEdge e) ∧
    rxOpen ls (withTxRegs tx hr ur cr e) = rxOpen ls e := by
  induction ls generalizing e with
  | nil => exact ⟨rfl, rfl⟩
  | cons l ls ih =>
    simp only [List.foldl_cons, rxOpen, rxEdge_withTxRegs]
    exact ⟨(ih _).1, by rw [(ih _).2]; rfl⟩

/-- The accumulator of a complete frame: `SYNC`, the house, the key, the flag (R127). -/
def frameAcc (h k : BitVec 4) (f : Bool) : BitVec 16 :=
  0x1C00 ||| ((h.setWidth 16) <<< 5) ||| ((k.setWidth 16) <<< 1) ||| (if f then 1 else 0)

theorem frameAcc_fields : ∀ (h k : BitVec 4) (f : Bool),
    accHouse (frameAcc h k f) = h ∧ accKey (frameAcc h k f) = k ∧ accFlag (frameAcc h k f) = f := by decide +kernel

/-- The edges of a frame after the first, up to the one before the last. -/
theorem rxEdge_frame : ∀ (h k : BitVec 4) (f : Bool),
    rxOpen ((frameSlots h k f).take 21).tail ⟨false, 0, 0, 0, 0, 1, 1, startAcc, startMask, 0⟩ = true ∧
    ((frameSlots h k f).take 21).tail.foldl rxEdge ⟨false, 0, 0, 0, 0, 1, 1, startAcc, startMask, 0⟩ =
      ⟨false, 0, 0, 0, 0, 13, 21, frameAcc h k f, 0, 0⟩ := by
  decide +kernel

/-- The first 21 edges of a frame fill the accumulator; the 22nd completes it (R230). -/
theorem edgeSteps_frameSlots (h k : BitVec 4) (f : Bool) {s : State} (hp : s.engine.pending = false)
    (hq : s.engine.rxQuiet = 0) (hb : s.engine.bitCount = 0) :
    edgeSteps (frameSlots h k f) s = completeStep (setEngine { s.engine with
      acc := frameAcc h k f, mask := 0, bitCount := 13, edgeCount := 21 } s) := by
  have h21 : edgeSteps ((frameSlots h k f).take 21) s = setEngine { s.engine with
      acc := frameAcc h k f, mask := 0, bitCount := 13, edgeCount := 21 } s := by
    obtain ⟨cfg, fifo, st, ⟨p, tx, hr, ur, cr, b, ec, acc, mask, rq⟩, ind, sq, ports, fl, env⟩ := s
    simp only at hp hq hb; subst hp hq hb
    have e : (frameSlots h k f).take 21 = true :: ((frameSlots h k f).take 21).tail := rfl
    have e1 : rxEdge ⟨false, tx, hr, ur, cr, 0, ec, acc, mask, 0⟩ true =
        withTxRegs tx hr ur cr ⟨false, 0, 0, 0, 0, 1, 1, startAcc, startMask, 0⟩ := rfl
    obtain ⟨a, b⟩ := rxEdge_frame h k f
    rw [e]; generalize ((frameSlots h k f).take 21).tail = ls at *
    obtain ⟨c, d⟩ := foldl_rxEdge_withTxRegs tx hr ur cr ls ⟨false, 0, 0, 0, 0, 1, 1, startAcc, startMask, 0⟩
    rw [edgeSteps_rxEdge (true :: ls) rfl rfl (by rw [rxOpen, e1, d, a]; rfl)]
    simp only [List.foldl_cons, e1, c, b]
    rfl
  have e : frameSlots h k f = (frameSlots h k f).take 21 ++ [!f] := rfl
  rw [e, edgeSteps_append, h21, edgeSteps_cons, edgeSteps_nil]
  exact edgeStep_complete _ hp hq rfl

end Sys2Proof.Machine
end

