-- ==== Sys2Proof/Tests/Slice0.lean ====
section
/-! SUPPORT. The model's own tests. Expected values are written out from spec/: the encodings of spec/30_encoding.md and the
vectors of spec/95_test_vectors.md, named in each test. The last part shows, for each statement with hypotheses, a
concrete state and operands that meet them. -/

namespace Sys2Proof.Tests

open Sys2Proof Sys2Proof.Machine

/-! ### WellFormed: each check refuses an ill-formed term -/

theorem test_wf_refuses_command_as_invalid :
    ([0x01, 0x02, 0x03, 0x04, 0x05].map fun b => (Instr.invalid b).wf) = [false, false, false, false, false] := by decide
theorem test_wf_refuses_wide_capacity : (Instr.fifoInit (2 ^ 32)).wf = false := by decide
theorem test_wf_refuses_long_insert : (Instr.fifoInsert (List.replicate 65536 0)).wf = false := by
  rw [Instr.wf, List.length_replicate]; decide
theorem test_wf_refuses_wide_drain_limit : (Instr.fifoReadDrain (.upTo (2 ^ 32)) []).wf = false := by decide
theorem test_wf_refuses_long_counts : (Instr.fifoReadDrain .inf (List.replicate 65536 0)).wf = false := by
  rw [Instr.wf, List.length_replicate, show fitsHalf 65536 = false by decide, Bool.and_false, Bool.false_and]
theorem test_wf_refuses_wide_count : (Instr.fifoReadDrain .inf [1, 65536]).wf = false := by decide
theorem test_wf_refuses_wide_read_limit : (Instr.fifoRead (.upTo (2 ^ 32))).wf = false := by decide
theorem test_wf_refuses_long_record : (Instr.logAppend (List.replicate 65536 0)).wf = false := by
  rw [Instr.wf, List.length_replicate]; decide
theorem test_wf_refuses_wide_duration : (Instr.indPulse (2 ^ 32)).wf = false := by decide
theorem test_wf_admits_boundaries :
    (Instr.indPulse (2 ^ 32 - 1)).wf = true ∧ (Instr.fifoInit (2 ^ 32 - 1)).wf = true ∧
    (Instr.fifoReadDrain (.upTo (2 ^ 32 - 1)) [65535]).wf = true ∧ (Instr.invalid 0x00).wf = true ∧
    (Instr.invalid 0x06).wf = true := by decide

/-! ### Decoding: a word of each row, written out from R111, R112 and R135 -/

theorem test_decode_host_commands :
    decodeHost [0b00000001] = .ok (.ping, []) ∧ decodeHost [0b00000010] = .ok (.uptime, []) ∧
    decodeHost [0b00000011] = .ok (.status, []) ∧ decodeHost [0b00000100] = .ok (.readlog, []) ∧
    decodeHost [0b00000101, 0x02, 0x4D, 0x01] = .ok (.sendcode 0x02 0x4D 0x01, []) := by decide
/-- K-5, K-6, K-7: bytes that are no command. -/
theorem test_decode_invalid :
    decodeHost [0x99] = .ok (.invalid 0x99, []) ∧ decodeHost [0x00] = .ok (.invalid 0x00, []) ∧
    decodeHost [0x06] = .ok (.invalid 0x06, []) ∧ decodeHost [0xFF] = .ok (.invalid 0xFF, []) := by decide
theorem test_decode_fifo_ops :
    decodePort [0b00000] = .ok (.reset, []) ∧ decodePort [0b00001, 0x00, 0x02, 0x00, 0x00] = .ok (.fifoInit 512, []) ∧
    decodePort [0b00010, 0x02, 0x00, 0xAA, 0xBB] = .ok (.fifoInsert [0xAA, 0xBB], []) ∧
    decodePort [0b00011] = .ok (.fifoAvail, []) ∧ decodePort [0b00100] = .ok (.fifoFree, []) := by decide
theorem test_decode_fifo_reads :
    decodePort [0b00101, 0x01, 0x02, 0x00, 0x03, 0x00, 0x00, 0x01] = .ok (.fifoReadDrain .inf [3, 256], []) ∧
    decodePort [0b00110, 0x00, 0x05, 0x00, 0x00, 0x00] = .ok (.fifoRead (.upTo 5), []) ∧
    decodePort [0b00111] = .ok (.fifoReset, []) := by decide
theorem test_decode_log_ops :
    decodePort [0b01000, 0x01, 0x00, 0x03] = .ok (.logAppend [0x03], []) ∧ decodePort [0b01001] = .ok (.logDrain, []) := by
  decide
theorem test_decode_engine_ops :
    decodePort [0b01010, 0x01] = .ok (.peEdge true, []) ∧ decodePort [0b01010, 0x00] = .ok (.peEdge false, []) ∧
    decodePort [0b01011, 0x02, 0x4D, 0x01] = .ok (.peSend 0x02 0x4D 0x01, []) := by decide
theorem test_decode_other_ops :
    decodePort [0b01100, 0x03, 0x00, 0x00, 0x00] = .ok (.indPulse 3, []) ∧ decodePort [0b01101] = .ok (.tmrTick, []) ∧
    decodePort [0b01110] = .ok (.mainPoll, []) ∧ decodePort [0b01111, 0x01] = .ok (.hostByte 0x01, []) := by decide
theorem test_decode_rejects :
    decodePort [0x10] = .error (.reservedSelector 0x10) ∧ decodePort [0x1F] = .error (.reservedSelector 0x1F) ∧
    decodePort [0x20] = .error (.notPortWord 0x20) ∧ decodePort [0x0A, 0x02] = .error (.badLevel 0x02) ∧
    decodePort [0x06, 0x02] = .error (.badLimitFlag 0x02) ∧ decodePort [0x0B, 0x02, 0x4D] = .error .truncated := by decide
/-- The rows of each format overlap nowhere, but for INVALID's, which has the lowest priority (R136). -/
theorem test_rows_disjoint : ∀ b : Byte,
    (portRows.filter fun r => r.hits b).length ≤ 1 ∧ ((hostRows.filter fun r => r.hits b).length ≤ 2) := by
  decide +kernel
theorem test_decodeTableWord :
    decodeTableWord 8 0x01 = some .ping ∧ decodeTableWord 8 0x05 = some (.sendcode 0 0 0) ∧
    decodeTableWord 8 0x0A = some (.peEdge false) ∧ decodeTableWord 5 0x01 = some (.fifoInit 0) ∧
    decodeTableWord 8 0x99 = some (.invalid 0x99) := by decide

/-! ### A small core: `N = 8` -/

/-- The parameters of spec/95_test_vectors.md: the defaults and `N = 8`. -/
def cfg8 : Config := { Config.default with capacity := 8 }

/-- A state with a given FIFO and phase, everything else as after reset. -/
def small (store : Memory) (head tail : BitVec 16) (phase : Phase) : State :=
  let t := State.cleared cfg8
  { t with fifo := { t.fifo with store := store, head := head, tail := tail }, seq := { t.seq with phase := phase } }

/-- F-D1's buffered data: `a b c d` at 6, 7, 0, 1. -/
def wrapped (phase : Phase) : State := small [(0, 0xC0), (1, 0xD0), (6, 0xA0), (7, 0xB0)] 2 6 phase

/-- A state with given engine registers. -/
def withEngine (e : Engine) (s : State) : State := { s with engine := e }

/-- The engine of P-E7 to P-E9: a frame complete but for its last edge. -/
def frameDone (acc : BitVec 16) (unit : BitVec 4) : Engine :=
  { (State.cleared cfg8).engine with bitCount := 13, edgeCount := 21, acc := acc, unitReg := unit }

/-- What a step that answers next leaves, seen through `f`. -/
def after {α : Type} (r : Result) (f : State → α) : Option α :=
  match r with
  | .next t => some (f t)
  | .fault _ => none
  | .refused _ => none

/-- The indices and the result. -/
def fifoView (s : State) : BitVec 16 × BitVec 16 × PortResult := (s.fifo.head, s.fifo.tail, s.env.result)

/-! ### FIFO (spec/95_test_vectors.md 2.1) -/

theorem test_F_I1 : after (exec (.fifoInit 8) (small [(2, 0xAA)] 5 2 .poll)) (fun t => (fifoView t, t.fifo.store)) =
    some ((0, 0, .nothing), [(2, 0xAA)]) := by decide
theorem test_F_I2 : exec (.fifoInit 9) (small [] 5 2 .poll) = .refused .wrongCapacity := rfl
theorem test_F_W2 : after (exec (.fifoInsert [0, 1, 2, 3, 4, 5, 6, 7, 8, 9]) (small [] 0 0 .poll))
    (fun t => (fifoView t, t.fifo.store)) =
    some ((7, 0, .count 7), [(0, 0), (1, 1), (2, 2), (3, 3), (4, 4), (5, 5), (6, 6)]) := by decide
theorem test_F_W4 : after (exec (.fifoInsert [1, 2, 3, 4, 5]) (small [(3, 7), (4, 8), (5, 9)] 6 3 .poll))
    (fun t => (fifoView t, t.fifo.store)) =
    some ((2, 3, .count 4), [(0, 3), (1, 4), (3, 7), (4, 8), (5, 9), (6, 1), (7, 2)]) := by decide
theorem test_F_A3_A4 : after (exec .fifoAvail (small [] 2 6 .poll)) fifoView = some (2, 6, .count 2) ∧
    after (exec .fifoAvail (small [] 0 6 .poll)) fifoView = some (0, 6, .count 2) := by decide
theorem test_F_R2_R5 : after (exec .fifoFree (small [] 5 5 .poll)) fifoView = some (5, 5, .count 3) ∧
    after (exec .fifoFree (small [] 6 2 .poll)) fifoView = some (6, 2, .count 2) := by decide
theorem test_F_D4 : after (exec (.fifoReadDrain .inf [1, 1, 1, 1]) (wrapped .poll)) fifoView =
    some (2, 2, .drained 4 [[0xA0, 0xB0], [0xB0], [0xC0, 0xD0], [0xD0]]) := by decide
theorem test_F_D5 : after (exec (.fifoReadDrain .inf [3]) (wrapped .poll)) (fun t => (t.fifo.tail, t.faults, t.seq.phase)) =
    some (6, [.drainOverconsume], .haltedByFault) := by decide
theorem test_F_Q1 : after (exec (.fifoRead (.upTo 5)) (wrapped .poll)) fifoView =
    some (2, 2, .bytes [0xA0, 0xB0, 0xC0, 0xD0]) := by decide
theorem test_F_Z2 :
    let s := small [(3, 1)] 7 3 .rlAdvance
    after (exec .fifoReset { s with fifo := { s.fifo with readOpen := true } })
      (fun t => (fifoView t, t.fifo.spoiled, t.fifo.store)) = some ((0, 0, .nothing), true, [(3, 1)]) := by decide

/-! ### Event log (2.2) -/

theorem test_L_A2 : after (exec (.logAppend [0x05, 0x02, 0x4D, 0x01]) (small [(0, 1), (1, 1), (2, 1)] 3 0 .poll))
    (fun t => (fifoView t, t.status)) = some ((7, 0, .count 4), 0x00) := by decide
theorem test_L_A4 : after (exec (.logAppend [0x05, 0x02, 0x4D, 0x01]) (small [(0, 1)] 5 0 .poll))
    (fun t => (fifoView t, t.status, t.fifo.store)) = some ((0, 0, .count 2), 0x01, [(0, 1), (5, 5), (6, 2)]) := by decide
theorem test_L_D1 : after (exec .logDrain { small [] 4 4 .rlEmit with status := 0x01 })
    (fun t => (t.ports.txq, t.status, t.seq.phase)) = some ([0x00], 0x00, .poll) := by decide
theorem test_L_D2_emit : after (exec .logDrain (wrapped .rlEmit)) (fun t => (t.ports.txq, t.fifo.tail, t.seq.chunkLen)) =
    some ([0x02, 0xA0, 0xB0], 6, 2) := by decide
/-- R198's example. -/
theorem test_advance :
    let s := wrapped .rlAdvance
    after (exec .readlog { s with fifo := { s.fifo with readOpen := true }, seq := { s.seq with chunkLen := 2 } })
      (fun t => (t.fifo.tail, t.fifo.readOpen, t.seq.phase)) = some (0, false, .rlEmit) := by decide
/-- L-D5's last step. -/
theorem test_L_D5 :
    let s := small [] 0 0 .rlAdvance
    after (exec .readlog { s with fifo := { s.fifo with readOpen := true, spoiled := true } })
      (fun t => (t.faults, t.seq.phase)) = some ([.resetDuringRead], .haltedByFault) := by decide

/-! ### Protocol engine (2.3, 2.4) -/

/-- P-E4. -/
theorem test_P_E4 :
    let e := { (State.cleared cfg8).engine with bitCount := 2, edgeCount := 2, acc := 0x1C00, mask := 0x0400 }
    after (exec (.peEdge false) (withEngine e (small [] 0 0 .poll))) State.engine =
      some { e with edgeCount := 3, mask := 0x0200, bitCount := 3 } := by decide
/-- P-E6. -/
theorem test_P_E6 :
    let e := { (State.cleared cfg8).engine with bitCount := 5, edgeCount := 6, acc := 0x1C00, mask := 0x0080 }
    after (exec (.peEdge true) (withEngine e (small [] 0 0 .poll))) State.engine =
      some { e with edgeCount := 7, acc := 0x1C80, mask := 0x0040, bitCount := 6 } := by decide
/-- P-E8. -/
theorem test_P_E8 : after (exec (.peEdge false) (withEngine (frameDone 0x1C05 6) (small [] 0 0 .poll)))
    (fun t => (t.fifo.store, t.engine.unitReg, t.engine.rxQuiet)) =
    some ([(0, 0x05), (1, 0x02), (2, 0x4D), (3, 0x01)], 0, 6) := by decide
/-- P-E11. -/
theorem test_P_E11 :
    let e := { (State.cleared cfg8).engine with pending := true, txSlot := 49, unitReg := 6, cmdReg := 2 }
    after (exec (.peEdge true) (withEngine e (small [] 0 0 .scWaitDone))) (fun t => (t.ports.lineTrace, t.engine)) =
      some ([false], { e with pending := false, txSlot := 0 }) := by decide
/-- P-S1 and P-S2: the start step. -/
theorem test_P_S1 : after (exec (.peSend 0x02 0x4D 0x01) (small [] 0 0 .scStart)) (fun t => (t.engine.houseReg,
    t.engine.unitReg, t.engine.cmdReg, t.engine.pending, t.seq.phase)) = some (0, 6, 2, true, .scWaitDone) := by decide
theorem test_P_S2 : after (exec (.peSend 0x02 0x5A 0x01) (small [] 0 0 .scStart)) (fun t => (t.engine.pending,
    t.env.result, t.ports.txq, t.seq.phase)) = some (false, .code 0x01, [0x01], .poll) := by decide
/-- The line trace of P-S1. -/
theorem test_P_S1_slots : (txSlots cfg8 0 6 2).map Bool.toNat =
    [1,1,1,0, 0,1,0,1,0,1,0,1, 0,1,1,0,1,0,0,1, 0,1] ++ [0,0,0,0,0,0] ++
    [1,1,1,0, 0,1,0,1,0,1,0,1, 0,1,0,1,1,0,0,1, 1,0] := by decide

/-! ### Indicator (2.5) -/

/-- I-5. -/
theorem test_I_5 : after (exec .tmrTick { small [] 0 0 .poll with ind := ⟨1, 0xFFFFFFFF, false⟩ })
    (fun t => (t.ind, t.ports.indTrace)) = some (⟨0, 0, false⟩, [0]) := by decide
/-- I-6. -/
theorem test_I_6 : after (exec .tmrTick { small [] 0 0 .poll with ind := ⟨0, 5, true⟩ })
    (fun t => (t.ind, t.ports.indTrace)) = some (⟨0, 6, false⟩, []) := by decide
/-- I-7's overwrite, I-8. -/
theorem test_I_7_I_8 : after (exec (.indPulse 9) { small [] 0 0 .poll with ind := ⟨16, 4, false⟩ }) State.ind =
    some ⟨9, 4, false⟩ ∧ exec (.indPulse 65536) (small [] 0 0 .poll) = .refused .pulseTooLong := ⟨by decide, rfl⟩

/-! ### Commands (2.6) -/

/-- A state with bytes in `rxq`. -/
def withRxq (bs : List Byte) (s : State) : State := { s with ports := { s.ports with rxq := bs } }

theorem test_K_1 : after (exec .ping (small [] 0 0 .ping)) (fun t => (t.ports.txq, t.fifo.store, t.seq.phase)) =
    some ([0x50, 0x4F, 0x4E, 0x47], [(0, 0x03)], .poll) := by decide
theorem test_K_2 : after (exec .uptime { small [] 0 0 .uptime with ind := ⟨0, 0x00012345, false⟩ })
    (fun t => (t.ports.txq, t.fifo.store)) = some ([0x45, 0x23, 0x01, 0x00], [(0, 0x04)]) := by decide
theorem test_K_3 : after (exec .status { small [] 0 0 .status with status := 0x01 })
    (fun t => (t.ports.txq, t.status, t.fifo.head)) = some ([0x01], 0x01, 0) := by decide
theorem test_K_5 : after (exec (.invalid 0x99) (small [] 0 0 .invalid)) (fun t => (t.ports.txq, t.fifo.store)) =
    some ([0xFF], [(0, 0x02), (1, 0x99)]) := by decide
theorem test_K_8_log : after (exec (.sendcode 0x02 0x5A 0x01) (small [] 0 0 .scLog))
    (fun t => (t.fifo.store, t.seq.phase)) = some ([(0, 6), (1, 2), (2, 0x5A), (3, 1)], .scWaitIdle) := by decide
/-- K-10: MAIN holds in `SC_ARG3`. -/
theorem test_K_10 : exec (.sendcode 0x02 0x4D 0x00) (small [] 0 0 .scArg3) = .next (small [] 0 0 .scArg3) := rfl
theorem test_poll : after (exec .mainPoll (withRxq [0x05, 0x02] (small [] 0 0 .poll)))
    (fun t => (t.seq.phase, t.seq.cmdByte, t.ports.rxq)) = some (.scArg1, 0x05, [0x02]) := by decide
theorem test_host_byte : after (exec (.hostByte 0x03) (withRxq [0x01] (small [] 0 0 .poll))) (fun t => t.ports.rxq) =
    some [0x01, 0x03] := by decide

/-! ### Reset (2.7) -/

/-- Z-1. -/
theorem test_Z_1 :
    let s := { small [(4, 9)] 5 4 .scWaitDone with ind := ⟨3, 99, false⟩, status := 0x01 }
    after (exec .reset { s with engine := { s.engine with pending := true } })
      (fun t => { t with fifo := { t.fifo with epoch := 0 } }) = some (State.resetWith cfg8) := by decide
/-- Z-2. -/
theorem test_Z_2 : exec .reset { small [] 0 0 .haltedByFault with faults := [.resetDuringRead] } =
    .fault .noStepAfterFault := rfl
theorem test_reset_store_wf : State.reset.fifo.store.wf ∧ State.reset.fifo.store = [(0, 0x01)] := by decide
/-- A placed operation runs as the first one after reset. -/
theorem test_withFetchWord :
    step (State.reset.withFetchWord 8 0x0A) = exec (.peEdge false) State.reset ∧
    after (step (State.reset.withFetchWord 8 0x01)) (fun t => t.ports.txq) = some [0x50, 0x4F, 0x4E, 0x47] := ⟨rfl, by decide⟩

/-! ### Witnesses: for each statement with hypotheses, states and operands that meet them, clause by clause -/

theorem small_ready (store : Memory) (head tail : BitVec 16) (p : Phase) : Ready (small store head tail p) :=
  ⟨rfl, (by decide : Config.ok cfg8 = true)⟩

theorem small_fifoReady (store : Memory) (head tail : BitVec 16) (p : Phase) : FifoReady (small store head tail p) :=
  ⟨rfl, (by decide : Config.fifoOk cfg8 = true)⟩

/-- The smallest and the largest storage sizes, and the widest gap, are admitted. -/
theorem witness_configurations :
    Config.fifoOk { cfg8 with capacity := 2 } = true ∧ Config.ok { cfg8 with capacity := 5 } = true ∧
    Config.ok { cfg8 with capacity := 65535, rxQuietEdges := 200, txGapSlots := 200 } = true ∧
    Config.ok { cfg8 with rxQuietEdges := 0, txGapSlots := 1 } = true := by decide

theorem witness_DecodeEncodeRoundTrip :
    (Instr.fifoReadDrain (.upTo 4294967295) [65535, 0]).wf = true ∧ (Instr.fifoRead (.upTo 0)).wf = true ∧
    (Instr.fifoInit 4294967295).wf = true ∧ (Instr.fifoInsert [0xFF]).wf = true ∧ (Instr.logAppend []).wf = true ∧
    (Instr.indPulse 4294967295).wf = true ∧ (Instr.invalid 0xFF).wf = true ∧ (Instr.sendcode 0 0x4D 1).wf = true := by
  decide

theorem witness_CommandByteTable :
    (0x06 : Byte) ≠ 0x01 ∧ (0x06 : Byte) ≠ 0x02 ∧ (0x06 : Byte) ≠ 0x03 ∧ (0x06 : Byte) ≠ 0x04 ∧ (0x06 : Byte) ≠ 0x05 ∧
    commandPhase 0x06 = .invalid ∧ commandPhase 0x00 = .invalid ∧ commandPhase 0x05 = .scArg1 := by decide

theorem witness_PortSelectorTable :
    0x10 ≤ (0x10 : Byte).toNat ∧ (0x1F : Byte).toNat < 0x20 ∧
    (setScript [0x1F] State.reset).faults = [] ∧ (setScript [0x1F] State.reset).env.script = 0x1F :: [] := by decide

theorem witness_FrameSlotLayout : 21 < 22 ∧ 5 < Config.default.txGapSlots := by decide

theorem witness_StepRunsScriptedOperation :
    (setScript [0x0A, 0x01, 0x0D] State.reset).faults = [] ∧
    decodePort (setScript [0x0A, 0x01, 0x0D] State.reset).env.script = .ok (.peEdge true, [0x0D]) := by decide

theorem witness_StepRunsMainPhase :
    State.reset.faults = [] ∧ State.reset.env.script = [] ∧ agentInstr State.reset .main = .mainPoll ∧ State.reset.seq.phase = .poll ∧
    (setScript [0x20, 0x0D] (small [] 0 0 .scWaitDone)).env.script = 0x20 :: [0x0D] ∧
    (small [] 0 0 .scWaitDone).seq.phase ∈ [Phase.scArg1, .scArg2, .scArg3, .scLog, .scWaitIdle, .scStart, .scWaitDone] := by
  decide

theorem witness_FifoInitClearsIndices :
    FifoReady (wrapped .poll) ∧ 8 = (wrapped .poll).size ∧ 9 ≠ (wrapped .poll).size :=
  ⟨small_fifoReady .., by decide, by decide⟩

theorem witness_FifoInsertWritesLeadingBytes :
    FifoReady (wrapped .poll) ∧ FifoLegal (wrapped .poll) ∧ FifoLegal (small [] 7 0 .poll) ∧
    (small [] 7 0 .poll).fifo.writtenCount 8 [1] = 0 ∧ (wrapped .poll).fifo.writtenCount 8 [1, 2, 3, 4] = 3 :=
  ⟨small_fifoReady .., ⟨by decide, by decide⟩, ⟨by decide, by decide⟩, by decide, by decide⟩

theorem witness_FifoAvailIsContiguous :
    FifoReady (wrapped .poll) ∧ FifoLegal (wrapped .poll) ∧
    (wrapped .poll).fifo.head.toNat < (wrapped .poll).fifo.tail.toNat ∧ 0 < (wrapped .poll).fifo.head.toNat ∧
    FifoLegal (small [] 5 5 .poll) ∧ (small [] 5 5 .poll).fifo.tail.toNat ≤ (small [] 5 5 .poll).fifo.head.toNat :=
  ⟨small_fifoReady .., ⟨by decide, by decide⟩, by decide, by decide, ⟨by decide, by decide⟩, by decide⟩

theorem witness_FifoFreeIsContiguous :
    FifoReady (wrapped .poll) ∧ FifoLegal (wrapped .poll) ∧
    (wrapped .poll).fifo.head.toNat < (wrapped .poll).fifo.tail.toNat ∧
    (small [] 7 0 .poll).fifo.tail.toNat = 0 ∧ (small [] 7 0 .poll).fifo.count 8 = 8 - 1 ∧
    (small [] 6 2 .poll).fifo.tail.toNat ≠ 0 ∧ (small [] 6 2 .poll).fifo.tail.toNat ≤ (small [] 6 2 .poll).fifo.head.toNat :=
  ⟨small_fifoReady .., ⟨by decide, by decide⟩, by decide, by decide, by decide, by decide, by decide⟩

/-- F-D1, F-D2, F-D5 and F-D6: a run of 2, taken whole, not at all, over-consumed, and no run. -/
theorem witness_FifoReadDrainPass :
    FifoReady (wrapped .poll) ∧ FifoLegal (wrapped .poll) ∧ Limit.cap .inf 0 ((wrapped .poll).fifo.avail 8) = 2 ∧
    Limit.cap (.upTo 0) 0 ((wrapped .poll).fifo.avail 8) = 0 ∧ FifoLegal (small [] 4 4 .poll) ∧
    Limit.cap .inf 0 ((small [] 4 4 .poll).fifo.avail 8) = 0 ∧
    2 < [3].getD 0 0 ∧ ([] : List Nat).getD 0 0 = 0 ∧ 0 < [2].getD 0 0 ∧ [2].getD 0 0 ≤ 2 :=
  ⟨small_fifoReady .., ⟨by decide, by decide⟩, by decide, by decide, ⟨by decide, by decide⟩, by decide, by decide,
    by decide, by decide, by decide⟩

theorem witness_FifoReadDrainTakesOldest : FifoReady (wrapped .poll) ∧ FifoLegal (wrapped .poll) :=
  ⟨small_fifoReady .., ⟨by decide, by decide⟩⟩

theorem witness_FifoReadReturnsOldest : FifoReady (wrapped .poll) ∧ FifoLegal (wrapped .poll) :=
  witness_FifoReadDrainTakesOldest

theorem witness_FifoResetEmpties : FifoReady (wrapped .poll) := small_fifoReady ..

theorem witness_FifoRefinesQueue : FifoReady (small [] 7 0 .poll) ∧ FifoLegal (small [] 7 0 .poll) :=
  ⟨small_fifoReady .., ⟨by decide, by decide⟩⟩

/-- A record that fits exactly, and one that does not. -/
theorem witness_LogAppendOrOverflow :
    Ready (small [] 3 0 .poll) ∧ FifoLegal (small [] 3 0 .poll) ∧ (small [] 3 0 .poll).fifo.freeTotal 8 = 4 ∧
    Ready (small [] 5 0 .poll) ∧ FifoLegal (small [] 5 0 .poll) ∧ (small [] 5 0 .poll).fifo.freeTotal 8 = 2 :=
  ⟨small_ready .., ⟨by decide, by decide⟩, by decide, small_ready .., ⟨by decide, by decide⟩, by decide⟩

/-- W6 from an empty LOG: seven bytes fill it, the eighth overflows. -/
theorem witness_LogOverflowsAboveCapacity :
    Ready (small [] 5 5 .poll) ∧ FifoLegal (small [] 5 5 .poll) ∧
    (small [] 5 5 .poll).fifo.head = (small [] 5 5 .poll).fifo.tail ∧
    [[5, 2, 0x4D, 1], [2, 0x99], [3]].flatten.length ≤ 8 - 1 ∧
    8 - 1 < [[5, 2, 0x4D, 1], [2, 0x99], [3]].flatten.length + [3].length :=
  ⟨small_ready .., ⟨by decide, by decide⟩, by decide, by decide, by decide⟩

theorem witness_DrainEmitsChunk :
    Ready (wrapped .rlEmit) ∧ FifoLegal (wrapped .rlEmit) ∧ (wrapped .rlEmit).seq.phase = .rlEmit ∧
    (wrapped .rlEmit).fifo.head ≠ (wrapped .rlEmit).fifo.tail :=
  ⟨small_ready .., ⟨by decide, by decide⟩, by decide, by decide⟩

theorem witness_DrainTerminatorClearsOverflow :
    Ready (small [] 4 4 .rlEmit) ∧ FifoLegal (small [] 4 4 .rlEmit) ∧ (small [] 4 4 .rlEmit).seq.phase = .rlEmit ∧
    (small [] 4 4 .rlEmit).fifo.head = (small [] 4 4 .rlEmit).fifo.tail :=
  ⟨small_ready .., ⟨by decide, by decide⟩, by decide, by decide⟩

/-- An open chunk, spoiled or not. -/
def openChunk (spoiled : Bool) : State :=
  let s := wrapped .rlAdvance
  { s with fifo := { s.fifo with readOpen := true, spoiled := spoiled }, seq := { s.seq with chunkLen := 2 } }

theorem witness_DrainAdvanceOrFault :
    Ready (openChunk false) ∧ (openChunk false).seq.phase = .rlAdvance ∧ (openChunk false).fifo.spoiled = false ∧
    Ready (openChunk true) ∧ (openChunk true).seq.phase = .rlAdvance ∧ (openChunk true).fifo.spoiled = true :=
  ⟨⟨rfl, rfl⟩, rfl, rfl, ⟨rfl, rfl⟩, rfl, rfl⟩

theorem witness_DrainStreamsWholeLog :
    Ready (wrapped .rlEmit) ∧ FifoLegal (wrapped .rlEmit) ∧ (wrapped .rlEmit).seq.phase = .rlEmit ∧
    (wrapped .rlEmit).fifo.spoiled = false ∧ (wrapped .rlEmit).logBytes ≠ [] ∧
    (wrapped .rlEmit).logBytes.length < (wrapped .rlEmit).size - 1 :=
  ⟨small_ready .., ⟨by decide, by decide⟩, by decide, by decide, by decide, by decide⟩

/-! #### The engine -/

/-- The engine in transmission, at a slot. -/
def sendingAt (slot : BitVec 8) : State :=
  withEngine { (State.cleared cfg8).engine with pending := true, txSlot := slot, unitReg := 6, cmdReg := 2 }
    (small [] 0 0 .scWaitDone)

/-- The engine inside a frame. -/
def inFrame (k : BitVec 4) (e : BitVec 8) (mask : BitVec 16) : State :=
  withEngine { (State.cleared cfg8).engine with bitCount := k, edgeCount := e, acc := 0x1C00, mask := mask }
    (small [] 0 0 .poll)

theorem witness_EdgeTransmitsSlot :
    Ready (sendingAt 49) ∧ (sendingAt 49).engine.pending = true ∧ (sendingAt 49).engine.txSlot.toNat < 44 + 6 ∧
    (sendingAt 0).engine.txSlot.toNat < 44 + 6 := ⟨⟨rfl, rfl⟩, rfl, by decide, by decide⟩

theorem witness_EdgeQuietOrStart :
    Ready (small [] 0 0 .poll) ∧ (small [] 0 0 .poll).engine.pending = false ∧
    (small [] 0 0 .poll).engine.rxQuiet = 0 ∧ (small [] 0 0 .poll).engine.bitCount = 0 ∧
    Ready (withEngine { (State.cleared cfg8).engine with rxQuiet := 6 } (small [] 0 0 .poll)) :=
  ⟨small_ready .., rfl, rfl, rfl, ⟨rfl, rfl⟩⟩

/-- A sample at the first and the last position, a sample at an odd edge, and a skip. -/
theorem witness_EdgeSamplesOrSkips :
    Ready (inFrame 1 1 0x0800) ∧ EngineInv cfg8 (inFrame 1 1 0x0800).engine ∧
    EngineInv cfg8 (inFrame 4 4 0x0100).engine ∧ EngineInv cfg8 (inFrame 12 20 0x0001).engine ∧
    EngineInv cfg8 (inFrame 12 19 0x0001).engine ∧ (20 + 1) % 2 = 1 ∧ (19 + 1) % 2 = 0 :=
  ⟨⟨rfl, rfl⟩, ⟨by decide, .inr (.inl (by decide)), by decide, by decide, by decide⟩,
    ⟨by decide, .inr (.inl (by decide)), by decide, by decide, by decide⟩,
    ⟨by decide, .inr (.inr (.inl (by decide))), by decide, by decide, by decide⟩,
    ⟨by decide, .inr (.inr (.inl (by decide))), by decide, by decide, by decide⟩, by decide, by decide⟩

/-- The state of P-E7, with `U(M,1)` received. -/
theorem witness_EdgeCompletesUnitFrame :
    let s := withEngine (frameDone 0x1C0C 0) (small [] 0 0 .poll)
    Ready s ∧ s.engine.pending = false ∧ s.engine.rxQuiet = 0 ∧ s.engine.bitCount = 13 ∧
    s.engine.acc.getLsbD 0 = false := ⟨⟨rfl, rfl⟩, rfl, rfl, rfl, by decide⟩

/-- The states of P-E8 and P-E9. -/
theorem witness_EdgeCompletesCommandFrame :
    let s := withEngine (frameDone 0x1C05 6) (small [] 0 0 .poll)
    Ready s ∧ FifoLegal s ∧ s.engine.pending = false ∧ s.engine.rxQuiet = 0 ∧ s.engine.bitCount = 13 ∧
    s.engine.acc.getLsbD 0 = true ∧ (0x1FFF#16).getLsbD 0 = true :=
  ⟨⟨rfl, rfl⟩, ⟨by decide, by decide⟩, rfl, rfl, rfl, by decide, by decide⟩

theorem witness_SendTransmitsAllSlots :
    Ready (sendingAt 0) ∧ (sendingAt 0).engine.pending = true ∧ (sendingAt 0).engine.txSlot = 0 ∧
    (List.replicate 50 false).length = 44 + (sendingAt 0).cfg.txGapSlots := ⟨⟨rfl, rfl⟩, rfl, rfl, by decide⟩

theorem witness_ReceivedFrameIsDecoded :
    Ready State.reset ∧ FifoLegal State.reset ∧ State.reset.engine.pending = false ∧ State.reset.engine.rxQuiet = 0 ∧
    State.reset.engine.bitCount = 0 := ⟨⟨rfl, rfl⟩, ⟨by decide, by decide⟩, rfl, rfl, rfl⟩

theorem witness_TransmissionIsReceived :
    Ready State.reset ∧ FifoLegal State.reset ∧ State.reset.engine.pending = false ∧ State.reset.engine.rxQuiet = 0 ∧
    State.reset.engine.bitCount = 0 := witness_ReceivedFrameIsDecoded

/-- `Idle`, a frame arriving, and a transmission in progress. -/
theorem witness_SendWaitsForIdle :
    Ready (small [] 0 0 .scWaitIdle) ∧ (small [] 0 0 .scWaitIdle).seq.phase = .scWaitIdle ∧
    (small [] 0 0 .scWaitIdle).engine.pending = false ∧ (small [] 0 0 .scWaitIdle).engine.bitCount = 0 ∧
    (let s := withEngine (inFrame 4 4 0x0100).engine (small [] 0 0 .scWaitIdle)
     Ready s ∧ s.seq.phase = .scWaitIdle ∧ s.engine.bitCount ≠ 0) :=
  ⟨small_ready .., rfl, rfl, rfl, ⟨rfl, rfl⟩, rfl, by decide⟩

/-- P-S8, and P-S7's policy. -/
theorem witness_SendStartLoadsFrame :
    Ready (small [] 0 0 .scStart) ∧ (small [] 0 0 .scStart).seq.phase = .scStart ∧ houseLetter 6 = 0x41 ∧
    unitNumber 12 = 0x10 ∧ (0x0F : Byte).toNat ≤ 15 ∧
    (let s := { small [] 0 0 .scStart with cfg := { cfg8 with cmdHighPolicy := .truncate } }
     Ready s ∧ s.cfg.cmdHighPolicy = .truncate) :=
  ⟨small_ready .., rfl, by decide, by decide, by decide, ⟨rfl, rfl⟩, rfl⟩

/-- P-S2, P-S4, P-S6. -/
theorem witness_SendStartFailureReplies :
    Ready (small [] 0 0 .scStart) ∧ (small [] 0 0 .scStart).seq.phase = .scStart ∧
    (∀ hi, houseLetter hi ≠ 0x5A) ∧ (∀ ui, unitNumber ui ≠ 0x00) ∧ (∀ ui, unitNumber ui ≠ 0x11) ∧
    15 < (0x10 : Byte).toNat ∧ (small [] 0 0 .scStart).cfg.cmdHighPolicy = .reject :=
  ⟨small_ready .., rfl, by decide, by decide, by decide, by decide, rfl⟩

theorem witness_SendDoneReplies :
    Ready (small [] 0 0 .scWaitDone) ∧ (small [] 0 0 .scWaitDone).engine.pending = false ∧
    Ready (sendingAt 7) ∧ (sendingAt 7).seq.phase = .scWaitDone ∧ (sendingAt 7).engine.pending = true :=
  ⟨small_ready .., rfl, ⟨rfl, rfl⟩, rfl, rfl⟩

/-! #### The indicator and the host commands -/

theorem witness_PulseRequestOverwrites : Ready State.reset ∧ 65535 ≤ 65535 ∧ 65535 < 65536 :=
  ⟨⟨rfl, rfl⟩, by decide, by decide⟩

theorem witness_TickCountsAndPulses : Ready State.reset := ⟨rfl, rfl⟩

theorem witness_PulseTrainOfRequest : Ready State.reset ∧ 65535 ≤ 65535 := ⟨⟨rfl, rfl⟩, by decide⟩

theorem witness_HostByteArrives : Ready State.reset := ⟨rfl, rfl⟩

theorem witness_MainPollReadsCommand :
    Ready State.reset ∧ State.reset.seq.phase = .poll ∧ State.reset.ports.rxq = [] ∧
    Ready (withRxq [0x04] State.reset) ∧ (withRxq [0x04] State.reset).ports.rxq = 0x04 :: [] :=
  ⟨⟨rfl, rfl⟩, rfl, rfl, ⟨rfl, rfl⟩, rfl⟩

/-- The phases of the one-step commands, in a LOG with room and in a full one. -/
theorem witness_one_step_commands (p : Phase) :
    Ready (small [] 7 0 p) ∧ FifoLegal (small [] 7 0 p) ∧ (small [] 7 0 p).seq.phase = p ∧
    Ready (small [] 0 0 p) ∧ FifoLegal (small [] 0 0 p) :=
  ⟨small_ready .., ⟨(by decide : 7 < 8), (by decide : 0 < 8)⟩, rfl, small_ready ..,
    ⟨(by decide : 0 < 8), (by decide : 0 < 8)⟩⟩

theorem witness_PingReplies :
    Ready (small [] 7 0 .ping) ∧ FifoLegal (small [] 7 0 .ping) ∧ (small [] 7 0 .ping).seq.phase = .ping :=
  ⟨small_ready .., (witness_one_step_commands _).2.1, rfl⟩

theorem witness_UptimeReplies :
    Ready (small [] 7 0 .uptime) ∧ FifoLegal (small [] 7 0 .uptime) ∧ (small [] 7 0 .uptime).seq.phase = .uptime :=
  ⟨small_ready .., (witness_one_step_commands _).2.1, rfl⟩

theorem witness_StatusReplies :
    Ready (setPhase .status (State.resetWith cfg8)) ∧ (setPhase .status (State.resetWith cfg8)).seq.phase = .status ∧
    CoreInv (setPhase .status (State.resetWith cfg8)) :=
  ⟨⟨by decide, by decide⟩, rfl,
   { cfg_ok := by decide
     fifo := ⟨by decide, by decide, by decide, by decide⟩
     status_reserved := by decide
     engine := ⟨by decide, .inl (by decide), by decide, by decide, by decide⟩
     ind_off := rfl
     phase := ⟨by decide, by decide, by decide, by decide, by decide⟩
     faults_nodup := by decide }⟩

theorem witness_InvalidReplies :
    Ready (small [] 7 0 .invalid) ∧ FifoLegal (small [] 7 0 .invalid) ∧ (small [] 7 0 .invalid).seq.phase = .invalid :=
  ⟨small_ready .., (witness_one_step_commands _).2.1, rfl⟩

theorem witness_SendcodeReadsParameters :
    Ready (withRxq [2, 0x4D] (small [] 0 0 .scArg1)) ∧
    (withRxq [2, 0x4D] (small [] 0 0 .scArg1)).ports.rxq = 2 :: [0x4D] ∧
    (withRxq [2, 0x4D] (small [] 0 0 .scArg1)).seq.phase = .scArg1 ∧
    Ready (small [] 0 0 .scArg3) ∧ (small [] 0 0 .scArg3).ports.rxq = [] ∧ (small [] 0 0 .scArg3).seq.phase = .scArg3 :=
  ⟨⟨rfl, rfl⟩, rfl, rfl, small_ready .., rfl, rfl⟩

theorem witness_SendcodeLogsRequest :
    Ready (small [] 7 0 .scLog) ∧ FifoLegal (small [] 7 0 .scLog) ∧ (small [] 7 0 .scLog).seq.phase = .scLog :=
  ⟨small_ready .., (witness_one_step_commands _).2.1, rfl⟩

theorem witness_ResetReachesResetValues : Ready (sendingAt 7) := ⟨rfl, rfl⟩

/-! #### Whole-machine rules -/

theorem witness_ResetStateIsGood : Config.ok Config.default = true ∧ Config.ok cfg8 = true := by decide

/-- A state that meets the invariant with a byte buffered. -/
theorem coreInv_reset8 : CoreInv (State.resetWith cfg8) :=
  { cfg_ok := by decide
    fifo := ⟨by decide, by decide, by decide, by decide⟩
    status_reserved := by decide
    engine := ⟨by decide, .inl (by decide), by decide, by decide, by decide⟩
    ind_off := rfl
    phase := ⟨by decide, by decide, by decide, by decide, by decide⟩
    faults_nodup := by decide }

/-- Such a state with a turn of MAIN to come, and the step from it. -/
theorem witness_StepKeepsInvariant :
    CoreInv (setScript [0x20] (State.resetWith cfg8)) ∧ ∃ t, step (setScript [0x20] (State.resetWith cfg8)) = .next t :=
  ⟨coreInv_reset8.of_env _, _, rfl⟩

theorem witness_StepKeepsBufferedBytesWritten :
    CoreInv (State.resetWith cfg8) ∧ Written (State.resetWith cfg8) ∧
    ((State.resetWith cfg8).fifo.readOpen = true → movesTail (.peEdge true) = false) ∧
    ∃ t, exec (.peEdge true) (State.resetWith cfg8) = .next t :=
  ⟨coreInv_reset8, ⟨by decide, by decide⟩, by decide, _, rfl⟩

theorem witness_UnwrittenStorageUnobservable : CoreInv (State.resetWith cfg8) ∧ Written (State.resetWith cfg8) :=
  ⟨coreInv_reset8, witness_StepKeepsBufferedBytesWritten.2.1⟩

theorem witness_NoStepAfterFault :
    (raiseFault .resetDuringRead State.reset).faults ≠ [] ∧ (raiseFault .drainOverconsume State.reset).faults ≠ [] := by
  decide

/-- A configuration for each range, just outside it. -/
theorem witness_OnlySpecifiedRefusals :
    State.reset.faults = [] ∧ Ready State.reset ∧ fifoOnly .ping = false ∧ fifoOnly .fifoFree = true ∧
    (let s := State.resetWith { cfg8 with capacity := 4 }
     s.faults = [] ∧ s.size < 5 ∧ FifoReady s) ∧
    (let s := State.resetWith { cfg8 with capacity := 1 }
     s.faults = [] ∧ ¬ 2 ≤ s.size) ∧
    Config.fifoOk { cfg8 with capacity := 65536 } = false ∧ Config.fifoOk { cfg8 with rxQuietEdges := 7 } = false ∧
    Config.fifoOk { cfg8 with rxQuietEdges := 0, txGapSlots := 0 } = false ∧
    Config.fifoOk { cfg8 with txGapSlots := 201 } = false :=
  ⟨rfl, ⟨rfl, rfl⟩, rfl, rfl, ⟨rfl, by decide, ⟨rfl, rfl⟩⟩, ⟨rfl, by decide⟩, by decide, by decide, by decide, by decide⟩

/-- An operation that answers next, and is neither TMR_TICK nor RESET. -/
theorem witness_ParametersAndUptimeWriters :
    (∃ t, exec (.hostByte 1) State.reset = .next t) ∧ Instr.hostByte 1 ≠ .tmrTick ∧ Instr.hostByte 1 ≠ .reset :=
  ⟨⟨_, rfl⟩, by decide, by decide⟩

theorem witness_OverflowStickyReservedFixed :
    let s := { small [] 4 4 .rlEmit with status := 0x01 }
    (∃ t, exec .readlog s = .next t) ∧ Instr.readlog ≠ .reset ∧ s.status.getLsbD 0 = true ∧ s.fifo.avail 8 = 0 :=
  ⟨⟨_, rfl⟩, by decide, by decide, by decide⟩

theorem witness_EngineWritersAreEdgeAndSendStart :
    after (exec (.peSend 0x02 0x4D 0x01) (small [] 0 0 .scStart))
      (fun t => decide (t.engine ≠ (small [] 0 0 .scStart).engine)) = some true := by decide

theorem witness_InterruptsLeaveMain :
    (∃ t, exec (.peEdge true) (sendingAt 3) = .next t) ∧ ∃ t, exec .tmrTick (sendingAt 3) = .next t :=
  ⟨⟨_, rfl⟩, ⟨_, rfl⟩⟩

theorem witness_EdgeAndTickCommute : Ready (withEngine (frameDone 0x1C05 6) (small [] 0 0 .poll)) := ⟨rfl, rfl⟩

/-- Three operations of three agents while a transmission is in progress. -/
theorem witness_SendHangsWithoutEdges :
    (sendingAt 7).seq.phase = .scWaitDone ∧ (sendingAt 7).engine.pending = true ∧
    (∀ i ∈ [Instr.sendcode 2 0x4D 1, .tmrTick, .hostByte 1], i ≠ .reset ∧ ∀ l, i ≠ .peEdge l) ∧
    after (execAll [.sendcode 2 0x4D 1, .tmrTick, .hostByte 1] (sendingAt 7)) State.faults = some [] :=
  ⟨rfl, rfl, by decide, by decide⟩

theorem witness_MainStepsOnlyInTheirPhase :
    Ready (small [] 0 0 .scLog) ∧ (small [] 0 0 .scLog).seq.phase ≠ .poll ∧ (small [] 0 0 .scLog).seq.phase ≠ .ping ∧
    (small [] 0 0 .scLog).seq.phase ≠ .rlEmit ∧ (small [] 0 0 .scLog).seq.phase ≠ .rlAdvance ∧
    (small [] 0 0 .scLog).seq.phase ∉ [Phase.scWaitIdle, .scStart, .scWaitDone] ∧
    (small [] 0 0 .poll).seq.phase ∉ [Phase.scArg1, .scArg2, .scArg3, .scLog, .scWaitIdle, .scStart, .scWaitDone] ∧
    Ready State.reset ∧ RunEnded State.reset :=
  ⟨small_ready .., by decide, by decide, by decide, by decide, by decide, by decide,
    ⟨rfl, rfl⟩, ⟨rfl, rfl, rfl, rfl⟩⟩

end Sys2Proof.Tests
end

section
/-! MAIN's reads from the host queue, and what SENDCODE does in each of its phases, said once
(spec/44_commands.md R292, R299 to R303). -/

namespace Sys2Proof.Machine

/-- A byte from the host goes into MAIN's registers, and nothing else changes; with `rxq` empty MAIN holds. -/
def receiveSeq (q : Byte → Sequencer → Sequencer) (s : State) : State :=
  receive (fun b t => { t with seq := q b t.seq }) s

/-- The two cases of such a read. -/
theorem receiveSeq_induct {s : State} (q : Byte → Sequencer → Sequencer) (P : State → Prop) (h0 : P s)
    (h1 : ∀ b rest, P { s with seq := q b s.seq, ports := { s.ports with rxq := rest } }) : P (receiveSeq q s) :=
  receive_induct _ P (fun _ => h0) fun b rest _ => h1 b rest

/-- MAIN_POLL's read: the command byte selects the phase (R292, R295). -/
def pollRead (b : Byte) (r : Sequencer) : Sequencer := { r with cmdByte := b, phase := commandPhase b }

theorem pollStep_eq (s : State) : pollStep s = receiveSeq pollRead s := rfl

/-- SENDCODE's reads: SC_ARG1 to SC_ARG3 each take one parameter byte (R299 to R301). -/
def argRead : Phase → Option (Byte → Sequencer → Sequencer)
  | .scArg1 => some fun b r => { r with argCmd := b, phase := .scArg2 }
  | .scArg2 => some fun b r => { r with argHouse := b, phase := .scArg3 }
  | .scArg3 => some fun b r => { r with argUnit := b, phase := .scLog }
  | .poll | .ping | .uptime | .status | .invalid | .rlEmit | .rlAdvance | .scLog | .scWaitIdle | .scStart | .scWaitDone
  | .haltedByFault => none

/-- A SENDCODE step reads a parameter, logs the request, or is a step of the send (R303). -/
theorem sendcodeStep_eq (s : State) : sendcodeStep s =
    (argRead s.seq.phase).elim (if s.seq.phase = .scLog then sendLogStep s else sendStep s) (receiveSeq · s) := by
  cases hp : s.seq.phase <;> simp [sendcodeStep, sendStep, argRead, receiveSeq, hp]

theorem sendcodeEnabled_of_send {s : State} (h : argRead s.seq.phase = none) (hl : s.seq.phase ≠ .scLog) :
    sendcodeEnabled s = sendEnabled s := by
  cases hp : s.seq.phase <;> simp_all [sendcodeEnabled, sendEnabled, argRead]

/-- A predicate of the state after a SENDCODE step is proved for each of its three kinds. -/
theorem sendcodeStep_induct {s : State} (P : State → Prop)
    (hread : ∀ q, argRead s.seq.phase = some q → P (receiveSeq q s))
    (hlog : s.seq.phase = .scLog → P (sendLogStep s))
    (hsend : sendcodeEnabled s = sendEnabled s → P (sendStep s)) : P (sendcodeStep s) := by
  rw [sendcodeStep_eq]
  cases hq : argRead s.seq.phase with
  | some q => exact hread q hq
  | none =>
    by_cases hl : s.seq.phase = .scLog
    · simpa [hl] using hlog hl
    · simpa [hl] using hsend (sendcodeEnabled_of_send hq hl)

end Sys2Proof.Machine
end

section
/-! Invariants of the whole core: the state after reset, and what each shared operation keeps of `CoreInv`
(spec/10_state.md R33 to R60). -/

namespace Sys2Proof.Machine

/-! ### The phases that leave MAIN free -/

/-- Phases in which MAIN is not halted, has no drain chunk open and waits for no transmission. -/
def Phase.rests (p : Phase) : Bool := p != .rlAdvance && p != .scWaitDone && p != .haltedByFault

theorem Phase.rests_iff (p : Phase) :
    p.rests = true ↔ p ≠ .rlAdvance ∧ p ≠ .scWaitDone ∧ p ≠ .haltedByFault := by
  simp [Phase.rests, and_assoc]

/-- The first step of an operation is taken in a resting phase. -/
theorem firstPhase_rests (op : Opcode) : ((firstPhase op).getD .invalid).rests = true := by cases op <;> rfl

theorem commandPhase_rests (b : Byte) : (commandPhase b).rests = true := firstPhase_rests _

/-- A parameter read goes from one resting phase to another and leaves the chunk's length. -/
theorem argRead_rests {p : Phase} {q : Byte → Sequencer → Sequencer} (h : argRead p = some q) :
    p.rests = true ∧ ∀ b r, (q b r).phase.rests = true ∧ (q b r).chunkLen = r.chunkLen := by
  cases p <;> cases h <;> exact ⟨rfl, fun _ _ => ⟨rfl, rfl⟩⟩

/-- In a resting phase nothing is open, spoiled or being sent. -/
theorem PhaseInv.at_rest {s : State} (h : PhaseInv s) (hp : s.seq.phase.rests = true) :
    s.fifo.readOpen = false ∧ s.fifo.spoiled = false ∧ s.engine.pending = false := by
  obtain ⟨hadv, hdone, hhalt⟩ := (Phase.rests_iff _).mp hp
  have ho : s.fifo.readOpen = false := Bool.eq_false_iff.mpr fun e => (h.open_phase e).elim hadv hhalt
  refine ⟨ho, Bool.eq_false_iff.mpr fun e => ?_, Bool.eq_false_iff.mpr fun e => (h.sending e).elim hdone hhalt⟩
  exact (h.spoiled_open e).elim (by simp [ho]) hhalt

/-- With nothing open, spoiled or being sent, every resting phase is a legal one. -/
theorem PhaseInv.of_rest {s : State} (hf : s.faults = []) (hp : s.seq.phase.rests = true)
    (ho : s.fifo.readOpen = false) (hs : s.fifo.spoiled = false) (he : s.engine.pending = false) : PhaseInv s := by
  obtain ⟨hadv, -, hhalt⟩ := (Phase.rests_iff _).mp hp
  exact ⟨by simp [hf, hhalt], fun e => absurd e hadv, by simp [ho], by simp [hs], by simp [he]⟩

theorem CoreInv.faults_of_rest {s : State} (h : CoreInv s) (hp : s.seq.phase.rests = true) : s.faults = [] := by
  by_contra hf
  exact ((Phase.rests_iff _).mp hp).2.2 (h.phase.halted.mp hf)

theorem CoreInv.ready {s : State} (h : CoreInv s) (hf : s.faults = []) : Ready s := ⟨hf, h.cfg_ok⟩

theorem CoreInv.size_le {s : State} (h : CoreInv s) : s.size ≤ 65535 := ((Config.ok_iff _).mp h.cfg_ok).2.1

/-! ### What each update of the state keeps -/

/-- The parts of the state that the invariant speaks of. -/
def State.invParts (s : State) : Config × Fifo × BitVec 8 × Engine × Bool × Phase × List CoreFault :=
  (s.cfg, s.fifo, s.status, s.engine, s.ind.indOut, s.seq.phase, s.faults)

theorem CoreInv.congr {s t : State} (h : CoreInv s) (e : t.invParts = s.invParts) : CoreInv t := by
  simp only [State.invParts, Prod.mk.injEq] at e
  obtain ⟨hc, hf, hs, he, hi, hp, hfl⟩ := e
  exact
    { cfg_ok := by rw [hc]; exact h.cfg_ok
      fifo := by rw [State.size, hc, hf]; exact h.fifo
      status_reserved := by rw [hs]; exact h.status_reserved
      engine := by rw [hc, he]; exact h.engine
      ind_off := hi.trans h.ind_off
      faults_nodup := by rw [hfl]; exact h.faults_nodup
      phase :=
        { halted := by rw [hfl, hp]; exact h.phase.halted
          chunk_open := by rw [hf, hp]; exact h.phase.chunk_open
          open_phase := by rw [hf, hp]; exact h.phase.open_phase
          spoiled_open := by rw [hf, hp]; exact h.phase.spoiled_open
          sending := by rw [he, hp]; exact h.phase.sending } }

/-- A new FIFO, with the chunk left as it is or spoiled while it is open. -/
theorem CoreInv.setFifo {s : State} (h : CoreInv s) {f : Fifo} (hf : FifoInv s.size f)
    (ho : f.readOpen = s.fifo.readOpen) (hs : f.spoiled = true → s.fifo.spoiled = true ∨ s.fifo.readOpen = true) :
    CoreInv (setFifo f s) :=
  { h with
    fifo := hf
    phase :=
      { h.phase with
        chunk_open := fun e => ho.trans (h.phase.chunk_open e)
        open_phase := fun e => h.phase.open_phase (ho.symm.trans e)
        spoiled_open := fun e => by
          rw [setFifo_fifo, ho]
          exact (hs e).elim h.phase.spoiled_open .inl } }

/-- New engine registers that start no transmission. -/
theorem CoreInv.setEngine {s : State} (h : CoreInv s) {e : Engine} (he : EngineInv s.cfg e)
    (hp : e.pending = true → s.engine.pending = true) : CoreInv (setEngine e s) :=
  { h with
    engine := he
    phase := { h.phase with sending := fun e => h.phase.sending (hp e) } }

/-- MAIN goes from one resting phase to another. -/
theorem CoreInv.setSeq {s : State} (h : CoreInv s) (q : Sequencer) (hs : s.seq.phase.rests = true)
    (hq : q.phase.rests = true) : CoreInv { s with seq := q } :=
  have ⟨ho, hsp, hp⟩ := h.phase.at_rest hs
  { h with phase := .of_rest (h.faults_of_rest hs) hq ho hsp hp }

theorem CoreInv.setPhase {s : State} (h : CoreInv s) {p : Phase} (hs : s.seq.phase.rests = true)
    (hp : p.rests = true) : CoreInv (setPhase p s) := h.setSeq _ hs hp

theorem addFault_ne_nil (f : CoreFault) (fs : List CoreFault) : addFault f fs ≠ [] := by
  unfold addFault; split
  · exact List.ne_nil_of_mem ‹_›
  · simp

theorem addFault_nodup (f : CoreFault) {fs : List CoreFault} (h : fs.Nodup) : (addFault f fs).Nodup := by
  unfold addFault; split
  · exact h
  · exact List.nodup_append.mpr ⟨h, List.nodup_singleton f, fun a ha b hb => by
      rw [List.mem_singleton.mp hb]; rintro rfl; contradiction⟩

/-- A fault halts MAIN, whatever the step has done to the FIFO (R334). -/
theorem CoreInv.raiseFault {s : State} (h : CoreInv s) (c : CoreFault) {f : Fifo} (hf : FifoInv s.size f) :
    CoreInv (raiseFault c (Machine.setFifo f s)) :=
  { h with
    fifo := hf
    faults_nodup := addFault_nodup c h.faults_nodup
    phase :=
      { halted := by simp [addFault_ne_nil]
        chunk_open := by simp
        open_phase := fun _ => .inr rfl
        spoiled_open := fun _ => .inr rfl
        sending := fun _ => .inr rfl } }

theorem setLogOverflow_reserved {v : BitVec 8} (h : v &&& 0xFE = 0) : (v ||| 0x01) &&& 0xFE = 0 := by
  rw [BitVec.and_comm, BitVec.and_or_distrib_left, BitVec.and_comm, h]; rfl

theorem clearLogOverflow_reserved {v : BitVec 8} (h : v &&& 0xFE = 0) : (v &&& 0xFE) &&& 0xFE = 0 := by
  rw [h]; rfl

/-- Setting `LOG_OVERFLOW` writes no reserved bit. -/
theorem CoreInv.setLogOverflow {s : State} (h : CoreInv s) : CoreInv (setLogOverflow s) :=
  { h with
    status_reserved := setLogOverflow_reserved h.status_reserved
    phase := { h.phase with } }

/-- The invariant says nothing of what unwritten bytes read as. -/
theorem CoreInv.withEpoch {s : State} (h : CoreInv s) (e : Nat) : CoreInv (s.withEpoch e) :=
  { h with fifo := { h.fifo with }, phase := { h.phase with } }

/-- One append keeps the invariant, whether or not it overflows (R190, R191). -/
theorem CoreInv.logAppend {s : State} (h : CoreInv s) (record : List Byte) : CoreInv (logAppend record s) := by
  have hi : CoreInv (Machine.setFifo (s.fifo.insert s.size record) s) :=
    h.setFifo (h.fifo.insert record h.size_le) rfl .inl
  rcases logAppend_cases record s with e | e <;> rw [e]
  · exact hi
  · exact hi.setLogOverflow.setFifo hi.fifo.clear rfl (by simp)

end Sys2Proof.Machine
end

section
/-! The protocol engine's invariant branch by branch (spec/42_protocol_engine.md R220 to R230). -/

namespace Sys2Proof.Machine

/-- TxStep below the last slot (R222). -/
theorem EngineInv.nextSlot {cfg : Config} {e : Engine} (h : EngineInv cfg e) (hc : Config.ok cfg = true)
    (hn : e.txSlot.toNat ≠ txLen cfg - 1) : EngineInv cfg { e with txSlot := e.txSlot + 1 } :=
  { h with
    txSlot_lt := by
      have hlt := h.txSlot_lt
      have hgap := (Config.ok_iff _).mp hc
      simp only [txLen] at *
      rw [BitVec.toNat_add_of_lt] <;> simp <;> omega }

/-- An edge of the quiet window (R223). -/
theorem EngineInv.quiet {cfg : Config} {e : Engine} (h : EngineInv cfg e) (hq : e.rxQuiet ≠ 0) :
    EngineInv cfg { e with rxQuiet := e.rxQuiet - 1 } :=
  { h with
    quiet_le := by
      have := h.quiet_le
      have : (e.rxQuiet - 1).toNat ≤ e.rxQuiet.toNat := by bv_omega
      simp only; omega }

/-- The first sync bit, at bit 12, with the next bit's position in `mask` (R224). -/
theorem EngineInv.start {cfg : Config} {e : Engine} (h : EngineInv cfg e) :
    EngineInv cfg { e with acc := startAcc, mask := startMask, bitCount := 1, edgeCount := 1 } :=
  { h with
    edges := .inr (.inl (show 1 ≤ 1 ∧ 1 ≤ 4 ∧ 1 = 1 by decide))
    acc_top := show startAcc.toNat < 2 ^ 13 by decide
    mask_at := rfl }

/-- The bit's position moves down one with each sample (R225). -/
theorem EngineInv.mask_succ {cfg : Config} {e : Engine} (h : EngineInv cfg e) (h0 : e.bitCount ≠ 0) :
    e.mask >>> 1 = startMask >>> e.bitCount.toNat := by
  have hpos : e.bitCount.toNat ≠ 0 := fun z => h0 (BitVec.eq_of_toNat_eq (by simpa using z))
  rw [h.mask_at, if_neg h0, ← BitVec.shiftRight_add, Nat.sub_add_cancel (by omega)]

theorem EngineInv.mask_lt {cfg : Config} {e : Engine} (h : EngineInv cfg e) : e.mask.toNat < 2 ^ 13 := by
  rw [h.mask_at]; split
  · decide
  · rw [BitVec.toNat_ushiftRight]
    exact Nat.lt_of_le_of_lt (Nat.shiftRight_le _ _) (by decide)

/-- A counted edge of a frame: the bit is sampled (R225). -/
theorem EngineInv.sample {cfg : Config} {e : Engine} (h : EngineInv cfg e) (l : Bool) (h0 : e.bitCount ≠ 0)
    (h13 : e.bitCount ≠ 13) (hs : e.bitCount.toNat ≤ 4 ∨ (e.edgeCount + 1).toNat % 2 = 1) :
    EngineInv cfg { e with edgeCount := e.edgeCount + 1, acc := if l then e.acc ||| e.mask else e.acc,
                           mask := e.mask >>> 1, bitCount := e.bitCount + 1 } := by
  have hedges := h.edges
  simp only [edgesAgree] at hedges
  have hk : (e.bitCount + 1).toNat = e.bitCount.toNat + 1 := by bv_omega
  have he : (e.edgeCount + 1).toNat = e.edgeCount.toNat + 1 := by bv_omega
  refine { h with edges := ?_, acc_top := ?_, mask_at := ?_ }
  · simp only [edgesAgree]; bv_omega
  · simp only; split
    · rw [BitVec.toNat_or]; exact Nat.or_lt_two_pow h.acc_top h.mask_lt
    · exact h.acc_top
  · simp only
    rw [h.mask_succ h0, if_neg (by bv_omega), hk, Nat.add_sub_cancel]

/-- Every other edge of the doubled bits is only counted (R226). -/
theorem EngineInv.skip {cfg : Config} {e : Engine} (h : EngineInv cfg e) (h0 : e.bitCount ≠ 0)
    (h13 : e.bitCount ≠ 13) (hs : ¬ (e.bitCount.toNat ≤ 4 ∨ (e.edgeCount + 1).toNat % 2 = 1)) :
    EngineInv cfg { e with edgeCount := e.edgeCount + 1 } := by
  have hedges := h.edges
  simp only [edgesAgree] at hedges
  refine { h with edges := ?_ }
  simp only [edgesAgree]; bv_omega

/-- A completed frame of either kind leaves the receiver at rest, with any registers (R227 to R229). -/
theorem EngineInv.complete {cfg : Config} {e : Engine} (h : EngineInv cfg e) (h13 : e.bitCount = 13)
    (hr ur cr : BitVec 4) :
    EngineInv cfg { e with houseReg := hr, unitReg := ur, cmdReg := cr, bitCount := 0, edgeCount := 0,
                           rxQuiet := BitVec.ofNat 8 cfg.rxQuietEdges } :=
  { h with
    edges := .inl ⟨rfl, rfl⟩
    mask_at := h.mask_at.trans (by rw [h13]; rfl)
    quiet_le := by simp only [BitVec.toNat_ofNat]; exact Nat.mod_le _ _ }

/-- The engine with a transmission's registers (R245); the receiver's part stays. -/
theorem EngineInv.withSend {cfg : Config} {e : Engine} (h : EngineInv cfg e) (hr ur cr : BitVec 4) (p : Bool) :
    EngineInv cfg { e with houseReg := hr, unitReg := ur, cmdReg := cr, txSlot := 0, pending := p } :=
  { h with txSlot_lt := by simp [txLen] }

end Sys2Proof.Machine
end

section
/-! Each operation keeps the invariant of the whole core (spec/10_state.md R33 to R60). -/

namespace Sys2Proof.Machine

/-! ### Ports and results, which the invariant does not speak of -/

theorem CoreInv.transmit {s : State} (h : CoreInv s) (bs : List Byte) : CoreInv (transmit bs s) := h.congr rfl

theorem CoreInv.emitSlot {s : State} (h : CoreInv s) (b : Bool) : CoreInv (emitSlot b s) := h.congr rfl

theorem CoreInv.giveResult {s : State} (h : CoreInv s) (r : PortResult) : CoreInv (giveResult r s) := h.congr rfl

theorem CoreInv.latchArgs {s : State} (h : CoreInv s) (c a u : Byte) : CoreInv (latchArgs c a u s) := h.congr rfl

/-! ### The edge step -/

theorem CoreInv.txStep {s : State} (h : CoreInv s) : CoreInv (txStep s) := by
  unfold Machine.txStep
  split
  · exact (h.emitSlot _).setEngine (h.engine.withSend _ _ _ false) (by simp)
  · exact (h.emitSlot _).setEngine (h.engine.nextSlot h.cfg_ok ‹_›) id

theorem CoreInv.completeStep {s : State} (h : CoreInv s) (hb : s.engine.bitCount = 13) : CoreInv (completeStep s) := by
  cases hf : accFlag s.engine.acc
  · rw [completeStep_unit hf]
    exact h.setEngine (h.engine.complete hb _ _ _) id
  · rw [completeStep_command hf]
    exact (h.logAppend _).setEngine (by rw [logAppend_cfg]; exact h.engine.complete hb 0 0 0) (by simp)

theorem CoreInv.frameEdge {s : State} (h : CoreInv s) (l : Bool) (h0 : s.engine.bitCount ≠ 0)
    (h13 : s.engine.bitCount ≠ 13) : CoreInv (frameEdge l s) := by
  unfold Machine.frameEdge
  split
  · exact h.setEngine (h.engine.sample l h0 h13 ‹_›) id
  · exact h.setEngine (h.engine.skip h0 h13 ‹_›) id

theorem CoreInv.edgeStep {s : State} (h : CoreInv s) (l : Bool) : CoreInv (edgeStep l s) := by
  rcases edgeStep_cases l s with ⟨_, e⟩ | ⟨_, hq, e⟩ | ⟨_, _, _, e⟩ | ⟨_, _, hb, e⟩ | ⟨_, _, h0, h13, e⟩ <;> rw [e]
  · exact h.txStep
  · exact h.setEngine (h.engine.quiet hq) id
  · unfold startDetect
    split
    · exact h.setEngine h.engine.start id
    · exact h
  · exact h.completeStep hb
  · exact h.frameEdge l h0 h13

/-! ### The drain -/

/-- RL_EMIT with data available opens a chunk (R196). -/
theorem CoreInv.emitChunk {s : State} (h : CoreInv s) (hp : s.seq.phase = .rlEmit) : CoreInv (emitChunk s) :=
  have ⟨_, _, hsend⟩ := h.phase.at_rest (by rw [hp]; rfl)
  have hf := h.faults_of_rest (by rw [hp]; rfl)
  { h with
    fifo := { h.fifo with }
    phase :=
      { halted := by simp [Machine.emitChunk, hf]
        chunk_open := fun _ => rfl
        open_phase := fun _ => .inl rfl
        spoiled_open := fun _ => .inl rfl
        sending := fun e => absurd e (by simp [Machine.emitChunk, hsend]) } }

/-- RL_EMIT with the FIFO empty ends the drain (R197). -/
theorem CoreInv.emitTerminator {s : State} (h : CoreInv s) (hp : s.seq.phase = .rlEmit) :
    CoreInv (emitTerminator s) :=
  have hc : CoreInv (clearLogOverflow (Machine.transmit [0x00] s)) :=
    { h with status_reserved := clearLogOverflow_reserved h.status_reserved, phase := { h.phase with } }
  hc.setPhase (by rw [clearLogOverflow_seq, transmit_seq, hp]; rfl) rfl

/-- RL_ADVANCE closes the chunk, or raises the fault that halts MAIN (R198). -/
theorem CoreInv.advanceChunk {s : State} (h : CoreInv s) (hp : s.seq.phase = .rlAdvance) (hf : s.faults = []) :
    CoreInv (advanceChunk s) := by
  have closed : FifoInv s.size { s.fifo with readOpen := false } := { h.fifo with }
  unfold Machine.advanceChunk
  split
  · exact h.raiseFault _ closed
  · next hsp =>
    have hsend : s.engine.pending = false := Bool.eq_false_iff.mpr fun e => by simpa [hp] using h.phase.sending e
    exact { h with fifo := closed.advance _ h.size_le
                   phase := .of_rest hf rfl rfl (by simpa using hsp) hsend }

theorem CoreInv.drainStep {s : State} (h : CoreInv s) (hf : s.faults = []) (hp : drainEnabled s = true) :
    CoreInv (drainStep s) := by
  unfold Machine.drainStep
  split
  · exact h.advanceChunk ‹_› hf
  · have hp : s.seq.phase = .rlEmit := by simp_all [drainEnabled]
    split
    · exact h.emitTerminator hp
    · exact h.emitChunk hp

/-! ### The send and SENDCODE -/

/-- The send-start step either begins a transmission and waits for it, or fails and goes back to POLL (R245). -/
theorem CoreInv.sendStart {s : State} (h : CoreInv s) (hp : s.seq.phase = .scStart) : CoreInv (sendStart s) := by
  have ⟨ho, hsp, hsend⟩ := h.phase.at_rest (by rw [hp]; rfl)
  have hf := h.faults_of_rest (by rw [hp]; rfl)
  unfold Machine.sendStart
  split
  · exact { h with engine := h.engine.withSend _ _ _ true
                   phase := ⟨by simp [hf], by simp, by simp [ho], by simp [hsp], fun _ => .inl rfl⟩ }
  · exact { h with engine := { h.engine with }
                   phase := .of_rest hf rfl ho hsp hsend }

/-- The last step of a send, once nothing is pending, goes back to POLL (R248). -/
theorem CoreInv.sendDone {s : State} (h : CoreInv s) (hp : s.seq.phase = .scWaitDone)
    (hsend : s.engine.pending = false) (hf : s.faults = []) : CoreInv (sendDone s) := by
  have ho : s.fifo.readOpen = false := Bool.eq_false_iff.mpr fun e => by simpa [hp] using h.phase.open_phase e
  have hsp : s.fifo.spoiled = false := Bool.eq_false_iff.mpr fun e => by simpa [hp, ho] using h.phase.spoiled_open e
  exact { h with phase := .of_rest hf rfl ho hsp hsend }

theorem CoreInv.sendStep {s : State} (h : CoreInv s) (hf : s.faults = []) (he : sendEnabled s = true) :
    CoreInv (sendStep s) := by
  unfold Machine.sendStep
  split
  case h_1 hp => exact h.setPhase (by rw [hp]; rfl) rfl
  case h_2 hp => exact h.sendStart hp
  case h_3 hp => exact h.sendDone hp (by simpa [sendEnabled, hp] using he) hf
  all_goals exact h

/-- A read takes MAIN from one resting phase to another, or holds. -/
theorem CoreInv.receiveSeq {s : State} (h : CoreInv s) (q : Byte → Sequencer → Sequencer)
    (hs : s.seq.phase.rests = true) (hq : ∀ b, (q b s.seq).phase.rests = true) : CoreInv (receiveSeq q s) :=
  receiveSeq_induct q CoreInv h fun b rest =>
    CoreInv.setSeq (s := { s with ports := { s.ports with rxq := rest } }) (h.congr rfl) (q b s.seq) hs (hq b)

theorem CoreInv.sendLogStep {s : State} (h : CoreInv s) (hp : s.seq.phase = .scLog) : CoreInv (sendLogStep s) :=
  (h.logAppend _).setPhase (by rw [logAppend_seq, hp]; rfl) rfl

theorem CoreInv.sendcodeStep {s : State} (h : CoreInv s) (hf : s.faults = []) (he : sendcodeEnabled s = true) :
    CoreInv (sendcodeStep s) :=
  sendcodeStep_induct CoreInv
    (fun q hq => have ⟨hs, hr⟩ := argRead_rests hq; h.receiveSeq q hs fun b => (hr b _).1)
    h.sendLogStep (fun e => h.sendStep hf (e ▸ he))

/-! ### The one-step commands and MAIN_POLL -/

theorem CoreInv.pingStep {s : State} (h : CoreInv s) (hp : s.seq.phase = .ping) : CoreInv (pingStep s) :=
  ((h.logAppend _).transmit _).setPhase (by rw [transmit_seq, logAppend_seq, hp]; rfl) rfl

theorem CoreInv.uptimeStep {s : State} (h : CoreInv s) (hp : s.seq.phase = .uptime) : CoreInv (uptimeStep s) :=
  ((h.logAppend _).transmit _).setPhase (by rw [transmit_seq, logAppend_seq, hp]; rfl) rfl

theorem CoreInv.statusStep {s : State} (h : CoreInv s) (hp : s.seq.phase = .status) : CoreInv (statusStep s) :=
  (h.transmit _).setPhase (by rw [transmit_seq, hp]; rfl) rfl

theorem CoreInv.invalidStep {s : State} (h : CoreInv s) (hp : s.seq.phase = .invalid) : CoreInv (invalidStep s) :=
  ((h.transmit _).logAppend _).setPhase (by rw [logAppend_seq, transmit_seq, hp]; rfl) rfl

theorem CoreInv.pollStep {s : State} (h : CoreInv s) (hp : s.seq.phase = .poll) : CoreInv (pollStep s) :=
  h.receiveSeq pollRead (by rw [hp]; rfl) commandPhase_rests

/-- A drain of the FIFO moves `tail` only (R164, R165). -/
theorem CoreInv.setReadDrain {s : State} (h : CoreInv s) (m : Limit) (consume : Nat → Nat → Nat) :
    CoreInv (Machine.setFifo (s.fifo.readDrain s.size m consume).fifo s) := by
  obtain ⟨k, -, -, -, e, -⟩ := Fifo.readDrain_takes m consume s.fifo h.size_le h.fifo.head_lt h.fifo.tail_lt
  rw [e]
  exact h.setFifo (h.fifo.advance k h.size_le) rfl .inl

/-! ### The indicator and RESET -/

theorem CoreInv.tickStep {s : State} (h : CoreInv s) : CoreInv (tickStep s) := by
  obtain ⟨v, r, _, _, e⟩ := tickStep_eq s
  rw [e]
  exact { h with ind_off := rfl, phase := { h.phase with } }

/-- The storage after RESET, with the Startup record in it (R371), is legal for every admitted `N`. -/
theorem resetWith_coreInv {cfg : Config} (hc : Config.ok cfg = true) : CoreInv (State.resetWith cfg) := by
  obtain ⟨hlo, hhi, -⟩ := (Config.ok_iff _).mp hc
  exact
    { cfg_ok := hc
      fifo := ⟨show 1 < cfg.capacity by omega, show 0 < cfg.capacity by omega, by simp [State.resetWith],
        show ∀ c ∈ [((0 : Nat), (0x01 : Byte))], c.1 < cfg.capacity by simp; omega⟩
      status_reserved := show (0x00 : BitVec 8) &&& 0xFE = 0 by decide
      engine := ⟨by simp [State.resetWith, State.cleared, txLen], .inl ⟨rfl, rfl⟩,
        by simp [State.resetWith, State.cleared], rfl, Nat.zero_le _⟩
      ind_off := rfl
      phase := .of_rest rfl rfl rfl rfl rfl
      faults_nodup := List.nodup_nil }

/-- RESET reaches the state after reset, with a fresh unspecified storage (R370, R371). -/
theorem bootStep_eq_resetWith {s : State} (h : Ready s) :
    bootStep s =
      { (State.resetWith s.cfg).withEpoch (s.fifo.epoch + 1) with env := { s.env with result := .nothing } } := by
  rw [bootStep_eq h]; rfl

theorem CoreInv.bootStep {s : State} (h : CoreInv s) (hf : s.faults = []) : CoreInv (bootStep s) := by
  rw [bootStep_eq_resetWith (h.ready hf)]
  exact ((resetWith_coreInv h.cfg_ok).withEpoch _).of_env _

/-! ### Every operation -/

/-- What holds before a MAIN step and after its effect holds whether or not the step is enabled (log entry 4). -/
theorem held (P : State → Prop) {s t : State} {en : Bool} (hs : P s) (ht : en = true → P t) :
    P (if en then t else s) := by
  split
  · exact ht ‹_›
  · exact hs

theorem CoreInv.effect {s : State} (h : CoreInv s) (hf : s.faults = []) (i : Instr) : CoreInv (effect i s) := by
  cases i with
  | ping => exact held CoreInv h fun hp => h.pingStep (eq_of_beq hp)
  | uptime => exact held CoreInv h fun hp => h.uptimeStep (eq_of_beq hp)
  | status => exact held CoreInv h fun hp => h.statusStep (eq_of_beq hp)
  | invalid b =>
    exact held CoreInv h fun hp =>
      CoreInv.invalidStep (s := { s with seq := { s.seq with cmdByte := b } }) (h.congr rfl) (eq_of_beq hp)
  | mainPoll => exact held CoreInv h fun hp => h.pollStep (eq_of_beq (Bool.and_eq_true_iff.mp hp).1)
  | readlog => exact held CoreInv h (h.drainStep hf)
  | logDrain => exact held CoreInv h (h.drainStep hf)
  | sendcode c a u => exact held CoreInv h fun he => (h.latchArgs c a u).sendcodeStep hf he
  | peSend c a u => exact held CoreInv h fun he => (h.latchArgs c a u).sendStep hf he
  | reset => exact h.bootStep hf
  | fifoInit n => exact h.setFifo h.fifo.init rfl .inl
  | fifoInsert d => exact (h.setFifo (h.fifo.insert d h.size_le) rfl .inl).giveResult _
  | fifoAvail => exact h.giveResult _
  | fifoFree => exact h.giveResult _
  | fifoReadDrain m cs =>
    rw [Machine.effect]
    split
    · exact h.raiseFault _ (h.fifo.readDrain m _ h.size_le)
    · exact (h.setReadDrain m _).giveResult _
  | fifoRead m => exact (h.setReadDrain m copyConsumer).giveResult _
  | fifoReset => exact h.setFifo h.fifo.clear rfl (by simp)
  | logAppend d => exact (h.logAppend d).giveResult _
  | peEdge l => exact h.edgeStep l
  | indPulse d => exact h.congr rfl
  | tmrTick => exact h.tickStep
  | hostByte b => exact h.congr rfl

/-- Fetching the next operation touches only what the environment holds (log entry 2). -/
theorem fetch_env {s u : State} {i : Instr} (h : fetch s = .ok (i, u)) : ∃ e, u = { s with env := e } := by
  unfold fetch at h
  split at h
  · cases h; exact ⟨_, rfl⟩
  · split at h
    · cases h; exact ⟨_, rfl⟩
    · split at h <;> cases h
      exact ⟨_, rfl⟩

/-- A step that answers a next state is the effect of the operation it fetched. -/
theorem step_next {s t : State} (h : step s = .next t) : ∃ i e, exec i { s with env := e } = .next t := by
  unfold step at h
  split at h
  · cases h
  · split at h
    · next i u hu =>
      obtain ⟨e, rfl⟩ := fetch_env hu
      exact ⟨i, e, h⟩
    · cases h

theorem CoreInv.exec {s t : State} {i : Instr} (h : CoreInv s) (ht : exec i s = .next t) : CoreInv t :=
  exec_next ht ▸ h.effect (exec_next_noFault ht) i

/-- Settles O49: every operation keeps the invariant, and so does the operation a step fetches. -/
theorem stepKeepsInvariant : Obligations.StepKeepsInvariant := by
  intro s t h ht
  obtain ⟨i, e, hi⟩ := step_next ht
  exact (h.of_env e).exec hi

/-! ### The state after reset -/

theorem resetWith_count {cfg : Config} (h : 5 ≤ cfg.capacity) :
    (State.resetWith cfg).fifo.count cfg.capacity = 1 :=
  Fifo.count_eq (f := (State.resetWith cfg).fifo) (show 1 < cfg.capacity by omega) (show 0 < cfg.capacity by omega)

theorem resetWith_written {cfg : Config} (hc : Config.ok cfg = true) : Written (State.resetWith cfg) := by
  have hcount := resetWith_count ((Config.ok_iff _).mp hc).1
  refine ⟨fun j hj => ?_, fun e => nomatch e⟩
  obtain rfl : j = 0 := Nat.lt_one_iff.mp (hcount ▸ hj)
  simp [State.resetWith, Memory.read?_cons]

/-- Settles O48: the one byte buffered after reset is the Startup record's, and it has been written. -/
theorem resetStateIsGood : Obligations.ResetStateIsGood :=
  fun _ hc => ⟨resetWith_coreInv hc, resetWith_written hc⟩

end Sys2Proof.Machine
end

section
/-! What each operation leaves unchanged, field by field: the parameters, `uptime`, `status` and the protocol engine
(spec/10_state.md R39 to R41, R51, R54, R65). -/

namespace Sys2Proof.Machine

/-! ### MAIN's one-step commands -/

theorem KeepsEngineAndInd.cfg {s t : State} (h : KeepsEngineAndInd s t) : t.cfg = s.cfg := h.1
theorem KeepsEngineAndInd.engine {s t : State} (h : KeepsEngineAndInd s t) : t.engine = s.engine := h.2.1
theorem KeepsEngineAndInd.ind {s t : State} (h : KeepsEngineAndInd s t) : t.ind = s.ind := h.2.2.1

theorem pingStep_keeps (s : State) : KeepsEngineAndInd s (pingStep s) := by simp [KeepsEngineAndInd, pingStep]

theorem uptimeStep_keeps (s : State) : KeepsEngineAndInd s (uptimeStep s) := by simp [KeepsEngineAndInd, uptimeStep]

theorem statusStep_keeps (s : State) : KeepsEngineAndInd s (statusStep s) := by simp [KeepsEngineAndInd, statusStep]

theorem invalidStep_keeps (s : State) : KeepsEngineAndInd s (invalidStep s) := by simp [KeepsEngineAndInd, invalidStep]

theorem pollStep_keeps (s : State) : KeepsEngineAndInd s (pollStep s) :=
  receiveSeq_induct pollRead (KeepsEngineAndInd s) ⟨rfl, rfl, rfl, rfl, rfl⟩ fun _ _ => ⟨rfl, rfl, rfl, rfl, rfl⟩

/-- The commands that MAIN performs in one step, and MAIN_POLL. -/
def oneStep : Instr → Bool
  | .ping | .uptime | .status | .invalid _ | .mainPoll => true
  | .readlog | .sendcode _ _ _ | .reset | .fifoInit _ | .fifoInsert _ | .fifoAvail | .fifoFree | .fifoReadDrain _ _
  | .fifoRead _ | .fifoReset | .logAppend _ | .logDrain | .peEdge _ | .peSend _ _ _ | .indPulse _ | .tmrTick
  | .hostByte _ => false

theorem effect_keeps_of_oneStep {i : Instr} (hi : oneStep i = true) (s : State) : KeepsEngineAndInd s (effect i s) := by
  have hold : KeepsEngineAndInd s s := ⟨rfl, rfl, rfl, rfl, rfl⟩
  cases i with
  | ping => exact held _ hold fun _ => pingStep_keeps s
  | uptime => exact held _ hold fun _ => uptimeStep_keeps s
  | status => exact held _ hold fun _ => statusStep_keeps s
  | invalid b => exact held _ hold fun _ => invalidStep_keeps { s with seq := { s.seq with cmdByte := b } }
  | mainPoll => exact held _ hold fun _ => pollStep_keeps s
  | _ => cases hi

/-! ### The parameters and `uptime` -/

/-- The parameters and `uptime` are left (R65, R276). -/
def KeepsParamsAndUptime (s t : State) : Prop := t.cfg = s.cfg ∧ t.ind.uptime = s.ind.uptime

theorem KeepsEngineAndInd.paramsAndUptime {s t : State} (h : KeepsEngineAndInd s t) : KeepsParamsAndUptime s t :=
  ⟨h.cfg, congrArg Indicator.uptime h.ind⟩

theorem effect_keepsParamsAndUptime {i : Instr} (ht : i ≠ .tmrTick) (hr : i ≠ .reset) (s : State) :
    KeepsParamsAndUptime s (effect i s) := by
  have hold : KeepsParamsAndUptime s s := ⟨rfl, rfl⟩
  cases i with
  | ping | uptime | status | invalid _ | mainPoll => exact (effect_keeps_of_oneStep rfl s).paramsAndUptime
  | readlog | logDrain => exact held _ hold fun _ => by rw [drainStep_frame]; exact ⟨rfl, rfl⟩
  | sendcode c a u => exact held _ hold fun _ => by rw [sendcodeStep_frame]; exact ⟨rfl, rfl⟩
  | peSend c a u => exact held _ hold fun _ => by rw [sendStep_frame]; exact ⟨rfl, rfl⟩
  | fifoReadDrain m cs => rw [effect]; split <;> exact ⟨rfl, rfl⟩
  | logAppend d => exact ⟨logAppend_cfg d s, congrArg Indicator.uptime (logAppend_ind d s)⟩
  | peEdge l => exact ⟨edgeStep_cfg l s, congrArg Indicator.uptime (edgeStep_ind l s)⟩
  | tmrTick => exact absurd rfl ht
  | reset => exact absurd rfl hr
  | fifoInit _ | fifoInsert _ | fifoAvail | fifoFree | fifoRead _ | fifoReset | indPulse _ | hostByte _ =>
    exact ⟨rfl, rfl⟩

theorem tickStep_cfg (s : State) : (tickStep s).cfg = s.cfg := by
  obtain ⟨_, _, _, _, e⟩ := tickStep_eq s
  rw [e]

theorem bootStep_cfg (s : State) : (bootStep s).cfg = s.cfg := logAppend_cfg ..

theorem effect_cfg (i : Instr) (s : State) : (effect i s).cfg = s.cfg := by
  by_cases ht : i = .tmrTick
  · exact ht ▸ tickStep_cfg s
  · by_cases hr : i = .reset
    · exact hr ▸ bootStep_cfg s
    · exact (effect_keepsParamsAndUptime ht hr s).1

/-- Settles O54: the frame of every operation on the parameters and on `uptime`. -/
theorem parametersAndUptimeWriters : Obligations.ParametersAndUptimeWriters := by
  intro i s t h
  rw [exec_next h]
  exact ⟨effect_cfg i s, fun ht hr => (effect_keepsParamsAndUptime ht hr s).2⟩

/-! ### The edge step -/

/-- An edge writes the engine, and beside it at most one slot of the line or one record of the LOG (R220 to R229). -/
theorem edgeStep_shape (l : Bool) (s : State) : ∃ e,
    edgeStep l s = setEngine e s ∨ (∃ b, edgeStep l s = setEngine e (emitSlot b s)) ∨
    ∃ r, edgeStep l s = setEngine e (logAppend r s) := by
  rcases edgeStep_cases l s with ⟨_, h⟩ | ⟨_, _, h⟩ | ⟨_, _, _, h⟩ | ⟨_, _, _, h⟩ | ⟨_, _, _, _, h⟩ <;> rw [h]
  · rw [txStep]; split <;> exact ⟨_, .inr (.inl ⟨_, rfl⟩)⟩
  · exact ⟨_, .inl rfl⟩
  · rw [startDetect]; split
    · exact ⟨_, .inl rfl⟩
    · exact ⟨s.engine, .inl rfl⟩
  · cases hf : accFlag s.engine.acc
    · exact ⟨_, .inl (completeStep_unit hf)⟩
    · exact ⟨_, .inr (.inr ⟨_, completeStep_command hf⟩)⟩
  · rw [frameEdge]; split <;> exact ⟨_, .inl rfl⟩

/-! ### `status` -/

/-- `status` is left as it was, or an append has set `LOG_OVERFLOW`. -/
def StatusKeptOrSet (s t : State) : Prop := t.status = s.status ∨ t.status = s.status ||| 0x01

theorem edgeStep_status (l : Bool) (s : State) : StatusKeptOrSet s (edgeStep l s) := by
  obtain ⟨e, (h | ⟨b, h⟩ | ⟨r, h⟩)⟩ := edgeStep_shape l s <;> rw [h]
  · exact .inl rfl
  · exact .inl rfl
  · exact logAppend_status r s

theorem sendStep_status (s : State) : StatusKeptOrSet s (sendStep s) := by
  rw [sendStep_frame]
  exact .inl rfl

theorem sendcodeStep_status (s : State) : StatusKeptOrSet s (sendcodeStep s) :=
  sendcodeStep_induct (StatusKeptOrSet s)
    (fun q _ => receiveSeq_induct q (StatusKeptOrSet s) (.inl rfl) fun _ _ => .inl rfl)
    (fun _ => logAppend_status _ s) (fun _ => sendStep_status s)

/-- A drain step writes `status` only where it ends the drain (R197). -/
theorem drainStep_status {s : State} (he : drainEnabled s = true) : (drainStep s).status = s.status ∨
    (s.seq.phase = .rlEmit ∧ s.fifo.avail s.size = 0 ∧ (drainStep s).status = s.status &&& 0xFE) := by
  rw [drainStep]
  split
  · rw [advanceChunk]; split <;> exact .inl rfl
  · split
    · exact .inr ⟨by simp_all [drainEnabled], ‹_›, rfl⟩
    · exact .inl rfl

/-- Everything an operation other than RESET can do to `status`. -/
theorem effect_status {i : Instr} (hi : i ≠ .reset) (s : State) : StatusKeptOrSet s (effect i s) ∨
    ((i = .readlog ∨ i = .logDrain) ∧ s.seq.phase = .rlEmit ∧ s.fifo.avail s.size = 0 ∧
      (effect i s).status = s.status &&& 0xFE) := by
  have hold : StatusKeptOrSet s s := .inl rfl
  cases i with
  | ping => exact .inl (held _ hold fun _ => logAppend_status pingRecord s)
  | uptime => exact .inl (held _ hold fun _ => logAppend_status uptimeRecord s)
  | status => exact .inl (held _ hold fun _ => .inl rfl)
  | invalid b => exact .inl (held _ hold fun _ => logAppend_status (invalidRecord b) { s with seq := _, ports := _ })
  | mainPoll =>
    exact .inl (held _ hold fun _ => receiveSeq_induct pollRead (StatusKeptOrSet s) (.inl rfl) fun _ _ => .inl rfl)
  | readlog | logDrain =>
    rw [effect]
    split
    · next he => exact (drainStep_status he).imp .inl fun h => ⟨by simp, h⟩
    · exact .inl hold
  | sendcode c a u => exact .inl (held _ hold fun _ => sendcodeStep_status (latchArgs c a u s))
  | peSend c a u => exact .inl (held _ hold fun _ => sendStep_status (latchArgs c a u s))
  | reset => exact absurd rfl hi
  | fifoReadDrain m cs => rw [effect]; split <;> exact .inl (.inl rfl)
  | logAppend d => exact .inl (logAppend_status d s)
  | peEdge l => exact .inl (edgeStep_status l s)
  | tmrTick => obtain ⟨_, _, _, _, e⟩ := tickStep_eq s; rw [effect, e]; exact .inl (.inl rfl)
  | fifoInit _ | fifoInsert _ | fifoAvail | fifoFree | fifoRead _ | fifoReset | indPulse _ | hostByte _ =>
    exact .inl (.inl rfl)

theorem getLsbD_setLogOverflow (v : BitVec 8) {k : Nat} (hk : 0 < k) : (v ||| 0x01).getLsbD k = v.getLsbD k := by
  simp [Nat.ne_of_gt hk]

theorem getLsbD_clearLogOverflow (v : BitVec 8) {k : Nat} (hk : 0 < k) : (v &&& 0xFE).getLsbD k = v.getLsbD k := by
  by_cases h8 : k < 8
  · have : (0xFE : BitVec 8).getLsbD k = true := by interval_cases k <;> rfl
    rw [BitVec.getLsbD_and, this, Bool.and_true]
  · rw [BitVec.getLsbD_of_ge _ _ (by omega), BitVec.getLsbD_of_ge _ _ (by omega)]

/-- Settles O55, from the three things an operation can do to `status`. -/
theorem overflowStickyReservedFixed : Obligations.OverflowStickyReservedFixed := by
  intro i s t h hi
  rw [exec_next h]
  rcases effect_status hi s with (e | e) | ⟨hd, hp, ha, e⟩ <;> rw [e]
  · exact ⟨fun _ _ => rfl, .inl⟩
  · exact ⟨fun k hk => getLsbD_setLogOverflow _ hk, fun _ => .inl (by simp)⟩
  · exact ⟨fun k hk => getLsbD_clearLogOverflow _ hk, fun _ => .inr ⟨hd, hp, ha⟩⟩

/-! ### The protocol engine -/

theorem sendcodeStep_engine {s : State} (h : s.seq.phase ≠ .scStart) : (sendcodeStep s).engine = s.engine :=
  sendcodeStep_induct (·.engine = s.engine)
    (fun q _ => receiveSeq_induct q (·.engine = s.engine) rfl fun _ _ => rfl)
    (fun _ => logAppend_engine _ s) (fun _ => sendStep_engine h)

/-- Outside EDGE, RESET and the send-start step an operation leaves the engine (R51). -/
theorem effect_engine {i : Instr} {s : State} (he : ∀ l, i ≠ .peEdge l) (hr : i ≠ .reset)
    (hs : s.seq.phase = .scStart → ∀ c h u, i ≠ .peSend c h u ∧ i ≠ .sendcode c h u) :
    (effect i s).engine = s.engine := by
  cases i with
  | ping | uptime | status | invalid _ | mainPoll => exact (effect_keeps_of_oneStep rfl s).engine
  | readlog | logDrain => exact held (·.engine = s.engine) rfl fun _ => by rw [drainStep_frame]
  | sendcode c a u =>
    exact held (·.engine = s.engine) rfl fun _ =>
      sendcodeStep_engine (s := latchArgs c a u s) fun hp => (hs hp c a u).2 rfl
  | peSend c a u =>
    exact held (·.engine = s.engine) rfl fun _ =>
      sendStep_engine (s := latchArgs c a u s) fun hp => (hs hp c a u).1 rfl
  | fifoReadDrain m cs => rw [effect]; split <;> rfl
  | reset => exact absurd rfl hr
  | logAppend d => exact logAppend_engine d s
  | peEdge l => exact absurd rfl (he l)
  | tmrTick => obtain ⟨_, _, _, _, e⟩ := tickStep_eq s; rw [effect, e]
  | fifoInit _ | fifoInsert _ | fifoAvail | fifoFree | fifoRead _ | fifoReset | indPulse _ | hostByte _ => rfl

/-- Settles O56, by the frame of the operations that R51 does not name. -/
theorem engineWritersAreEdgeAndSendStart : Obligations.EngineWritersAreEdgeAndSendStart := by
  intro i s t h hne
  rw [exec_next h] at hne
  by_contra hno
  push Not at hno
  obtain ⟨he, hr, hs⟩ := hno
  exact hne (effect_engine he hr hs)

end Sys2Proof.Machine
end

section
/-! Every buffered byte has been written (spec/10_state.md R33), and a chunk that is open and not spoiled is still
buffered (spec/41_event_log.md R196): what each FIFO operation keeps of it, and that every operation of the core does. -/

namespace Sys2Proof.Machine

/-! ### The FIFO's operations -/

/-- Every buffered byte of a FIFO has been written: the first half of `Written`. -/
def Fifo.BufferWritten (n : Nat) (f : Fifo) : Prop :=
  ∀ j < f.count n, f.store.read? ((f.tail.toNat + j) % n) ≠ none

theorem Written.buffer {s : State} (h : Written s) : s.fifo.BufferWritten s.size := h.1

theorem Written.chunk {s : State} (h : Written s) (ho : s.fifo.readOpen = true) (hs : s.fifo.spoiled = false) :
    s.seq.chunkLen.toNat ≤ s.fifo.count s.size := h.2 ho hs

theorem Fifo.BufferWritten.of_empty {n : Nat} {f : Fifo} (h : f.count n = 0) : f.BufferWritten n :=
  fun j hj => absurd hj (by omega)

/-- The bytes behind the buffered ones are written by the insert, and it leaves the buffered ones. -/
theorem Fifo.BufferWritten.insert {n : Nat} {f : Fifo} (h : f.BufferWritten n) (hf : FifoInv n f) (hn : n ≤ 65535)
    (data : List Byte) : (f.insert n data).BufferWritten n := by
  intro j hj
  have hw := f.writtenCount_le n data
  have hc := f.count_lt (n := n) hf.pos
  have hhead := Fifo.head_eq hf.head_lt hf.tail_lt
  rw [Fifo.count_insert data hn hf.head_lt hf.tail_lt] at hj
  rw [Fifo.insert_tail]
  by_cases hold : j < f.count n
  · rw [Fifo.read?_insert_old]
    · exact h j hold
    · intro k hk
      rw [hhead, Nat.mod_add_mod, Nat.add_assoc]
      exact wrap_ne hf.tail_lt (by omega) (by omega) (by omega)
  · have hnew := Fifo.read?_insert_new data f hf.head_lt (j := j - f.count n) (by omega) (by omega)
    rw [hhead, Nat.mod_add_mod, show f.tail.toNat + f.count n + (j - f.count n) = f.tail.toNat + j by omega] at hnew
    simp [hnew]

/-- What is left of the buffered bytes had been written before. -/
theorem Fifo.BufferWritten.advance {n k : Nat} {f : Fifo} (h : f.BufferWritten n) (hf : FifoInv n f) (hn : n ≤ 65535)
    (hk : k ≤ f.count n) : (f.advance n k).BufferWritten n := by
  intro j hj
  rw [Fifo.count_advance hn hf.head_lt hf.tail_lt hk] at hj
  rw [Fifo.advance_tail k f hn hf.pos, Nat.mod_add_mod, Nat.add_assoc]
  exact h (k + j) (by omega)

theorem Fifo.init_count (n : Nat) (f : Fifo) : f.init.count n = 0 := f.clear_count n

/-! ### What each update of the state keeps -/

/-- `Written` speaks of the storage size, the FIFO and `chunkLen` alone. -/
theorem Written.congr {s t : State} (h : Written s)
    (e : (t.size, t.fifo, t.seq.chunkLen) = (s.size, s.fifo, s.seq.chunkLen)) : Written t := by
  simp only [Prod.mk.injEq] at e
  obtain ⟨hn, hf, hl⟩ := e
  rw [Written, hn, hf, hl]
  exact h

/-- A FIFO with no chunk that must stay buffered. -/
theorem Written.setFifo {s : State} {f : Fifo} (hb : f.BufferWritten s.size)
    (ho : f.readOpen = true → f.spoiled = true) : Written (setFifo f s) :=
  ⟨hb, fun h hs => absurd (ho h) (by simpa using hs)⟩

/-- An insert lengthens the buffer, so an open chunk stays inside it. -/
theorem Written.insert {s : State} (h : Written s) (hi : CoreInv s) (data : List Byte) :
    Written (Machine.setFifo (s.fifo.insert s.size data) s) := by
  refine ⟨h.buffer.insert hi.fifo hi.size_le data, fun ho hs => ?_⟩
  have hchunk := h.chunk ho hs
  show _ ≤ (s.fifo.insert s.size data).count s.size
  rw [Fifo.count_insert data hi.size_le hi.fifo.head_lt hi.fifo.tail_lt]
  exact Nat.le_add_right_of_le hchunk

/-- Clearing the FIFO spoils an open chunk (R166, R191). -/
theorem Written.clear (s : State) (f : Fifo) : Written (Machine.setFifo f.clear s) :=
  .setFifo (.of_empty (Fifo.clear_count _ _)) fun h => by simpa using .inr h

theorem Written.logAppend {s : State} (h : Written s) (hi : CoreInv s) (record : List Byte) :
    Written (logAppend record s) := by
  rcases logAppend_cases record s with e | e <;> rw [e]
  · exact h.insert hi record
  · exact .clear _ _

/-- A drain of the FIFO with no chunk open (R164, R165). -/
theorem Written.readDrain {s : State} (h : Written s) (hi : CoreInv s) (ho : s.fifo.readOpen = false) (m : Limit)
    (consume : Nat → Nat → Nat) : Written (Machine.setFifo (s.fifo.readDrain s.size m consume).fifo s) := by
  obtain ⟨k, hk, -, -, e, -⟩ := Fifo.readDrain_takes m consume s.fifo hi.size_le hi.fifo.head_lt hi.fifo.tail_lt
  rw [e]
  exact .setFifo (h.buffer.advance hi.fifo hi.size_le hk) (by simp [ho])

/-! ### The steps of MAIN -/

/-- The chunk RL_EMIT opens is part of the buffered bytes (R196). -/
theorem chunkLength_le_count {s : State} (hi : CoreInv s) : chunkLength s ≤ s.fifo.count s.size :=
  le_trans (Nat.min_le_left ..) (Fifo.avail_le_count hi.fifo.head_lt hi.fifo.tail_lt)

theorem Written.emitChunk {s : State} (h : Written s) (hi : CoreInv s) : Written (emitChunk s) := by
  refine ⟨h.1, fun _ _ => ?_⟩
  show (BitVec.ofNat 8 (chunkLength s)).toNat ≤ s.fifo.count s.size
  rw [BitVec.toNat_ofNat]
  exact le_trans (Nat.mod_le ..) (chunkLength_le_count hi)

/-- RL_ADVANCE drops the chunk it sent, all of which was buffered (R198). -/
theorem Written.advanceChunk {s : State} (h : Written s) (hi : CoreInv s) (hp : s.seq.phase = .rlAdvance) :
    Written (advanceChunk s) := by
  rw [Machine.advanceChunk]
  split
  · exact .congr (Written.setFifo (s := s) (f := { s.fifo with readOpen := false }) h.buffer (by simp)) rfl
  · next hs =>
    have hchunk := h.chunk (hi.phase.chunk_open hp) (by simpa using hs)
    exact .congr (Written.setFifo (s := s) (f := { s.fifo.advance _ _ with readOpen := false })
      (h.buffer.advance hi.fifo hi.size_le hchunk) (by simp)) rfl

theorem Written.drainStep {s : State} (h : Written s) (hi : CoreInv s) : Written (drainStep s) := by
  rw [Machine.drainStep]
  split
  · exact h.advanceChunk hi ‹_›
  · split
    · exact h.congr rfl
    · exact h.emitChunk hi

theorem Written.invalidStep {s : State} (h : Written s) (hi : CoreInv s) : Written (invalidStep s) :=
  .congr (Written.logAppend (s := transmit [0xFF] s) (h.congr rfl) (hi.transmit _) _) rfl

theorem Written.sendStep {s : State} (h : Written s) : Written (sendStep s) := by
  rw [sendStep_frame]
  exact h.congr rfl

/-- A byte read into MAIN's registers leaves the chunk's length. -/
theorem Written.receiveSeq {s : State} (h : Written s) {q : Byte → Sequencer → Sequencer}
    (hq : ∀ b r, (q b r).chunkLen = r.chunkLen) : Written (receiveSeq q s) :=
  receiveSeq_induct q Written h fun b _ => h.congr (by simp [hq b])

theorem Written.sendcodeStep {s : State} (h : Written s) (hi : CoreInv s) : Written (sendcodeStep s) :=
  sendcodeStep_induct Written (fun _ hq => h.receiveSeq fun b r => ((argRead_rests hq).2 b r).2)
    (fun _ => (h.logAppend hi _).congr rfl) (fun _ => h.sendStep)

/-! ### The steps of the other agents -/

theorem Written.edgeStep {s : State} (h : Written s) (hi : CoreInv s) (l : Bool) : Written (edgeStep l s) := by
  obtain ⟨e, (hs | ⟨b, hs⟩ | ⟨r, hs⟩)⟩ := edgeStep_shape l s <;> rw [hs]
  · exact h.congr rfl
  · exact h.congr rfl
  · exact (h.logAppend hi r).congr rfl

theorem Written.tickStep {s : State} (h : Written s) : Written (tickStep s) := by
  obtain ⟨_, _, _, _, e⟩ := tickStep_eq s
  rw [e]
  exact h.congr rfl

theorem Written.bootStep {s : State} (hr : Ready s) : Written (bootStep s) := by
  rw [bootStep_eq_resetWith hr]
  exact resetWith_written hr.2

/-! ### Every operation -/

theorem Written.effect {s : State} (h : Written s) (hi : CoreInv s) (hf : s.faults = []) {i : Instr}
    (hm : s.fifo.readOpen = true → movesTail i = false) : Written (effect i s) := by
  have closed (ht : movesTail i = true) : s.fifo.readOpen = false := by
    by_contra ho
    simp [hm (by simpa using ho)] at ht
  cases i with
  | ping => exact held Written h fun _ => (h.logAppend hi _).congr rfl
  | uptime => exact held Written h fun _ => (h.logAppend hi _).congr rfl
  | status => exact held Written h fun _ => h.congr rfl
  | invalid b =>
    exact held Written h fun _ =>
      Written.invalidStep (s := { s with seq := { s.seq with cmdByte := b } }) (h.congr rfl) (hi.congr rfl)
  | mainPoll => exact held Written h fun _ => h.receiveSeq (q := pollRead) fun _ _ => rfl
  | readlog | logDrain => exact held Written h fun _ => h.drainStep hi
  | sendcode c a u => exact held Written h fun _ => .sendcodeStep (h.congr rfl) (hi.latchArgs c a u)
  | peSend c a u => exact held Written h fun _ => .sendStep (h.congr rfl)
  | reset => exact .bootStep (hi.ready hf)
  | fifoInit n => exact .setFifo (.of_empty (Fifo.init_count _ _)) fun ho => by simp_all [Fifo.init, movesTail]
  | fifoInsert d => exact (h.insert hi d).congr rfl
  | fifoReadDrain m cs =>
    rw [Machine.effect]
    split <;> exact (h.readDrain hi (closed rfl) m _).congr rfl
  | fifoRead m => exact (h.readDrain hi (closed rfl) m copyConsumer).congr rfl
  | fifoReset => exact .clear _ _
  | logAppend d => exact (h.logAppend hi d).congr rfl
  | peEdge l => exact h.edgeStep hi l
  | tmrTick => exact h.tickStep
  | fifoAvail | fifoFree | indPulse _ | hostByte _ => exact h.congr rfl

/-- Settles O50, from what each operation's effect keeps. -/
theorem stepKeepsBufferedBytesWritten : Obligations.StepKeepsBufferedBytesWritten :=
  fun _ _ _ hi h hm ht => exec_next ht ▸ h.effect hi (exec_next_noFault ht) hm

end Sys2Proof.Machine
end

section
/-! The unspecified contents of storage cannot be observed (spec/10_state.md R33): every operation commutes with a change
of what unwritten bytes read as. -/

namespace Sys2Proof.Machine

/-! ### What an operation answers -/

/-- Why an operation is refused in a configuration that is admitted (R160, R270, R333). -/
def requestRefusal (i : Instr) (s : State) : Option Refusal :=
  match i with
  | .fifoInit n => if n = s.size then none else some .wrongCapacity
  | .indPulse d => if 65535 < d then some .pulseTooLong else none
  | .ping | .uptime | .status | .readlog | .sendcode _ _ _ | .invalid _ | .reset | .fifoInsert _ | .fifoAvail
  | .fifoFree | .fifoReadDrain _ _ | .fifoRead _ | .fifoReset | .logAppend _ | .logDrain | .peEdge _ | .peSend _ _ _
  | .tmrTick | .mainPoll | .hostByte _ => none

/-- The configurations in which an operation runs (R9, R193). -/
def runsIn (i : Instr) (cfg : Config) : Bool := if fifoOnly i then Config.fifoOk cfg else Config.ok cfg

/-- The whole answer of an operation: guarded, and then its refusal or its effect. -/
theorem exec_eq (i : Instr) (s : State) :
    exec i s = guarded (runsIn i s.cfg) s ((requestRefusal i s).elim (.next (effect i s)) .refused) := by
  cases i with
  | fifoInit n => rw [exec, execFifoInit, fifoStep, requestRefusal]; split <;> rfl
  | indPulse d => rw [exec, execIndPulse, coreStep, requestRefusal]; split <;> rfl
  | _ => rfl

/-- The same answer with another next state. -/
def mapNext (f : State → State) : Result → Result
  | .next s => .next (f s)
  | .fault r => .fault r
  | .refused r => .refused r

/-- Where the effects correspond, so do the answers: the guards read the faults and the parameters alone. -/
theorem exec_mapNext {i : Instr} {s s' : State} (f : State → State) (hf : s'.faults = s.faults) (hc : s'.cfg = s.cfg)
    (he : effect i s' = f (effect i s)) : exec i s' = mapNext f (exec i s) := by
  have hr : requestRefusal i s' = requestRefusal i s := by cases i <;> simp only [requestRefusal, State.size, hc]
  rw [exec_eq, exec_eq, guarded, guarded, hf, hc, he, hr]
  split
  · rfl
  · split
    · cases requestRefusal i s <;> rfl
    · rfl

/-! ### The FIFO -/

/-- The same FIFO with another unspecified storage. -/
def Fifo.withEpoch (e : Nat) (f : Fifo) : Fifo := { f with epoch := e }

/-- A byte that has been written reads the same. -/
theorem Fifo.byteAt_withEpoch {f : Fifo} {i : Nat} (e : Nat) (h : f.store.read? i ≠ none) :
    (f.withEpoch e).byteAt i = f.byteAt i := by
  obtain ⟨b, hb⟩ := Option.ne_none_iff_exists'.mp h
  simp [Fifo.byteAt, Fifo.withEpoch, hb]

/-- A run of buffered bytes reads the same. -/
theorem Fifo.run_withEpoch {n len : Nat} {f : Fifo} (e : Nat) (h : f.BufferWritten n) (hl : len ≤ f.count n) :
    (f.withEpoch e).run n len = f.run n len := by
  refine List.map_congr_left fun j hj => Fifo.byteAt_withEpoch e (h j ?_)
  exact Nat.lt_of_lt_of_le (List.mem_range.mp hj) hl

/-- The same call with another unspecified storage. -/
def Drain.withEpoch (e : Nat) (d : Drain) : Drain := { d with fifo := d.fifo.withEpoch e }

/-- The drain loop offers buffered bytes only, so it does the same for every unspecified storage. -/
theorem drainLoop_withEpoch {n : Nat} (hn : n ≤ 65535) (e : Nat) (max : Limit) (consume : Nat → Nat → Nat)
    (passes call : Nat) {d : Drain} (hf : FifoInv n d.fifo) (hb : d.fifo.BufferWritten n) :
    drainLoop n max consume passes call (d.withEpoch e) = (drainLoop n max consume passes call d).withEpoch e := by
  induction passes generalizing call d with
  | zero => rfl
  | succ passes ih =>
    have hrun := Fifo.offered_le max d.total hf.head_lt hf.tail_lt
    have hoffer : (d.withEpoch e).fifo.run n (Limit.cap max d.total (d.fifo.avail n)) =
      d.fifo.run n (Limit.cap max d.total (d.fifo.avail n)) := Fifo.run_withEpoch e hb hrun
    have havail : Limit.cap max (d.withEpoch e).total ((d.withEpoch e).fifo.avail n) =
      Limit.cap max d.total (d.fifo.avail n) := rfl
    rw [drainLoop_succ, drainLoop_succ, havail]
    generalize Limit.cap max d.total (d.fifo.avail n) = run at *
    generalize consume call run = c
    split
    · rfl
    split
    · rw [hoffer]; rfl
    split
    · rw [hoffer]; rfl
    · have htake : (d.withEpoch e).take n run c = (d.take n run c).withEpoch e := by
        rw [Drain.take, hoffer]; rfl
      rw [htake]
      exact ih (call + 1) (hf.advance c hn) (hb.advance hf hn (by omega))

theorem Fifo.readDrain_withEpoch {n : Nat} (hn : n ≤ 65535) (e : Nat) (max : Limit) (consume : Nat → Nat → Nat)
    {f : Fifo} (hf : FifoInv n f) (hb : f.BufferWritten n) :
    (f.withEpoch e).readDrain n max consume = (f.readDrain n max consume).withEpoch e :=
  drainLoop_withEpoch hn e max consume n 0 (d := ⟨f, 0, [], [], false⟩) hf hb

/-! ### The steps -/

/-- A MAIN step under a condition that does not read storage. -/
theorem held_withEpoch {en : Bool} {s t t' : State} (e : Nat) (h : en = true → t' = t.withEpoch e) :
    (if en then t' else s.withEpoch e) = (if en then t else s).withEpoch e := by
  split
  · exact h ‹_›
  · rfl

theorem logAppend_withEpoch (e : Nat) (record : List Byte) (s : State) :
    logAppend record (s.withEpoch e) = (logAppend record s).withEpoch e := by
  rw [logAppend, logAppend, apply_ite (State.withEpoch e)]; rfl

theorem invalidStep_withEpoch (e : Nat) (s : State) : invalidStep (s.withEpoch e) = (invalidStep s).withEpoch e :=
  congrArg (setPhase .poll) (logAppend_withEpoch e _ (transmit [0xFF] s))

theorem receiveSeq_withEpoch (e : Nat) (q : Byte → Sequencer → Sequencer) (s : State) :
    receiveSeq q (s.withEpoch e) = (receiveSeq q s).withEpoch e := by
  obtain ⟨cfg, fifo, status, engine, ind, seq, ⟨rxq, txq, line, pulses⟩, faults, env⟩ := s
  cases rxq <;> rfl

theorem drainStep_withEpoch (e : Nat) {s : State} (hi : CoreInv s) (h : Written s) :
    drainStep (s.withEpoch e) = (drainStep s).withEpoch e := by
  have hemit : emitChunk (s.withEpoch e) = (emitChunk s).withEpoch e := by
    have hrun : (s.withEpoch e).fifo.run (s.withEpoch e).size (chunkLength (s.withEpoch e)) =
        s.fifo.run s.size (chunkLength s) := Fifo.run_withEpoch e h.buffer (chunkLength_le_count (s := s) hi)
    rw [emitChunk, hrun]; rfl
  have hadvance : advanceChunk (s.withEpoch e) = (advanceChunk s).withEpoch e := by
    rw [advanceChunk, advanceChunk, apply_ite (State.withEpoch e)]; rfl
  rw [drainStep, drainStep, hemit, hadvance, apply_ite (State.withEpoch e), apply_ite (State.withEpoch e)]
  rfl

theorem sendStart_withEpoch (e : Nat) (s : State) : sendStart (s.withEpoch e) = (sendStart s).withEpoch e := by
  have hsend : sendFields (s.withEpoch e).cfg (s.withEpoch e).seq.argCmd (s.withEpoch e).seq.argHouse
    (s.withEpoch e).seq.argUnit = sendFields s.cfg s.seq.argCmd s.seq.argHouse s.seq.argUnit := rfl
  rw [sendStart, sendStart, hsend]
  cases sendFields s.cfg s.seq.argCmd s.seq.argHouse s.seq.argUnit <;> rfl

theorem sendStep_withEpoch (e : Nat) (s : State) : sendStep (s.withEpoch e) = (sendStep s).withEpoch e := by
  have hp : (s.withEpoch e).seq.phase = s.seq.phase := rfl
  rw [sendStep, sendStep, hp, sendStart_withEpoch]
  cases s.seq.phase <;> rfl

theorem sendLogStep_withEpoch (e : Nat) (s : State) : sendLogStep (s.withEpoch e) = (sendLogStep s).withEpoch e :=
  congrArg (setPhase .scWaitIdle) (logAppend_withEpoch e _ s)

theorem sendcodeStep_withEpoch (e : Nat) (s : State) : sendcodeStep (s.withEpoch e) = (sendcodeStep s).withEpoch e := by
  have hp : (s.withEpoch e).seq.phase = s.seq.phase := rfl
  rw [sendcodeStep_eq, sendcodeStep_eq, hp]
  cases argRead s.seq.phase with
  | some q => exact receiveSeq_withEpoch e q s
  | none =>
    rw [sendLogStep_withEpoch, sendStep_withEpoch]
    exact (apply_ite (State.withEpoch e) ..).symm

theorem completeStep_withEpoch (e : Nat) (s : State) : completeStep (s.withEpoch e) = (completeStep s).withEpoch e := by
  cases hf : accFlag s.engine.acc
  · rw [completeStep_unit (s := s) hf, completeStep_unit (s := s.withEpoch e) hf]; rfl
  · rw [completeStep_command (s := s) hf, completeStep_command (s := s.withEpoch e) hf, logAppend_withEpoch]; rfl

theorem edgeStep_withEpoch (e : Nat) (l : Bool) (s : State) :
    edgeStep l (s.withEpoch e) = (edgeStep l s).withEpoch e := by
  rcases edgeStep_cases l s with
    ⟨hp, h⟩ | ⟨hp, hq, h⟩ | ⟨hp, hq, hb, h⟩ | ⟨hp, hq, hb, h⟩ | ⟨hp, hq, h0, h13, h⟩ <;> rw [h]
  · rw [edgeStep_tx (s := s.withEpoch e) l hp, txStep, txStep, apply_ite (State.withEpoch e)]; rfl
  · rw [edgeStep_quiet (s := s.withEpoch e) l hp hq]; rfl
  · rw [edgeStep_start (s := s.withEpoch e) l hp hq hb, startDetect, startDetect, apply_ite (State.withEpoch e)]; rfl
  · rw [edgeStep_complete (s := s.withEpoch e) l hp hq hb, completeStep_withEpoch]
  · rw [edgeStep_frame (s := s.withEpoch e) l hp hq h0 h13, frameEdge, frameEdge, apply_ite (State.withEpoch e)]; rfl

theorem tickStep_withEpoch (e : Nat) (s : State) : tickStep (s.withEpoch e) = (tickStep s).withEpoch e := by
  simp only [tickStep, apply_ite (State.withEpoch e)]; rfl

/-- RESET counts on from the storage it finds (log entry 3). -/
theorem bootStep_withEpoch (e : Nat) (s : State) : bootStep (s.withEpoch e) = (bootStep s).withEpoch (e + 1) := by
  rw [bootStep, bootStep, ← logAppend_withEpoch]; rfl

/-! ### Every operation -/

/-- The storage that the unspecified contents are named by after an operation: RESET's is a fresh one. -/
def epochAfter (i : Instr) (e : Nat) : Nat := if i = .reset then e + 1 else e

theorem effect_withEpoch (e : Nat) (i : Instr) {s : State} (hi : CoreInv s) (h : Written s) :
    effect i (s.withEpoch e) = (effect i s).withEpoch (epochAfter i e) := by
  have hdrain (m : Limit) (consume : Nat → Nat → Nat) :
      (s.withEpoch e).fifo.readDrain (s.withEpoch e).size m consume = (s.fifo.readDrain s.size m consume).withEpoch e :=
    Fifo.readDrain_withEpoch hi.size_le e m consume hi.fifo h.buffer
  cases i with
  | ping => exact held_withEpoch e fun _ => by rw [pingStep, logAppend_withEpoch]; rfl
  | uptime => exact held_withEpoch e fun _ => by rw [uptimeStep, logAppend_withEpoch]; rfl
  | status => exact held_withEpoch e fun _ => rfl
  | invalid b => exact held_withEpoch e fun _ => invalidStep_withEpoch e { s with seq := { s.seq with cmdByte := b } }
  | mainPoll => exact held_withEpoch e fun _ => receiveSeq_withEpoch e pollRead s
  | readlog | logDrain => exact held_withEpoch e fun _ => drainStep_withEpoch e hi h
  | sendcode c a u => exact held_withEpoch e fun _ => sendcodeStep_withEpoch e (latchArgs c a u s)
  | peSend c a u => exact held_withEpoch e fun _ => sendStep_withEpoch e (latchArgs c a u s)
  | reset => exact bootStep_withEpoch e s
  | fifoReadDrain m cs => rw [effect, effect, hdrain, apply_ite (State.withEpoch _)]; rfl
  | fifoRead m => rw [effect, effect, hdrain]; rfl
  | logAppend d => exact congrArg (giveResult _) (logAppend_withEpoch e d s)
  | peEdge l => exact edgeStep_withEpoch e l s
  | tmrTick => exact tickStep_withEpoch e s
  | fifoInit _ | fifoInsert _ | fifoAvail | fifoFree | fifoReset | indPulse _ | hostByte _ => rfl

/-- Settles O51: the operation answers the same of the two storages, and what it leaves differs in nothing else. -/
theorem unwrittenStorageUnobservable : Obligations.UnwrittenStorageUnobservable := by
  intro e i s hi h
  have hexec : exec i (s.withEpoch e) = mapNext (State.withEpoch (epochAfter i e)) (exec i s) :=
    exec_mapNext _ rfl rfl (effect_withEpoch e i hi h)
  refine ⟨fun t ht => ⟨epochAfter i e, ?_⟩, fun r hr => ?_, fun r hr => ?_⟩
  · rw [hexec, ht]; rfl
  · rw [hexec, hr]; rfl
  · rw [hexec, hr]; rfl

end Sys2Proof.Machine
end

section
/-! Encodings (spec/30_encoding.md R110 to R112, R135, R136): the decoder takes back the operand bytes that the encoder
writes, and a host command's first byte fixes the operation and MAIN's phase. -/

namespace Sys2Proof

/-! ### The operands of an operation -/

theorem lt_of_fitsWord {n : Nat} (h : fitsWord n = true) : n < 4294967296 := of_decide_eq_true h

theorem lt_of_fitsHalf {n : Nat} (h : fitsHalf n = true) : n < 65536 := of_decide_eq_true h

theorem takeArgs_cons (mk : Byte → Byte → Byte → Instr) (c h u : Byte) (rest : List Byte) :
    takeArgs mk (c :: h :: u :: rest) = .ok (mk c h u, rest) := rfl

/-- The operand bytes of FIFO_READ_DRAIN: the limit, then the consumer's counts behind their number (log entry 9). -/
theorem decodeOperands_fifoReadDrain {m : Limit} {cs : List Nat} (hm : m.wf = true) (hn : fitsHalf cs.length = true)
    (hcs : ∀ c ∈ cs, fitsHalf c = true) (lead : Byte) (rest : List Byte) :
    decodeOperands .fifoReadDrain lead ((Instr.fifoReadDrain m cs).operandBytes ++ rest) =
      .ok (.fifoReadDrain m cs, rest) := by
  simp only [decodeOperands, Instr.operandBytes, List.append_assoc, takeLimit_putLimit hm,
    takeHalf_putHalf (lt_of_fitsHalf hn), takeHalves_putHalves cs rest fun c hc => lt_of_fitsHalf (hcs c hc),
    Parsed.andThen_ok]

/-- A well-formed operation's operand bytes are read back, and the bytes after them are left. -/
theorem decodeOperands_operandBytes {i : Instr} (h : i.wf = true) (rest : List Byte) :
    decodeOperands i.opcode i.lead (i.operandBytes ++ rest) = .ok (i, rest) := by
  cases i with
  | fifoInit n | indPulse n =>
    simp only [Instr.opcode, decodeOperands, Instr.operandBytes, takeWord_putWord (lt_of_fitsWord h), Parsed.andThen_ok]
  | fifoInsert d | logAppend d =>
    simp only [Instr.opcode, decodeOperands, Instr.operandBytes, takeBlock_putBlock (lt_of_fitsHalf h), Parsed.andThen_ok]
  | fifoReadDrain m cs =>
    simp only [Instr.wf, Bool.and_eq_true, List.all_eq_true] at h
    obtain ⟨⟨hm, hn⟩, hcs⟩ := h
    exact decodeOperands_fifoReadDrain hm hn hcs _ rest
  | fifoRead m =>
    have hm : m.wf = true := h
    simp only [Instr.opcode, decodeOperands, Instr.operandBytes, takeLimit_putLimit hm, Parsed.andThen_ok]
  | peEdge l => cases l <;> rfl
  | sendcode c a u | peSend c a u => exact takeArgs_cons _ c a u rest
  | ping | uptime | status | readlog | invalid _ | reset | fifoAvail | fifoFree | fifoReset | logDrain | tmrTick
  | mainPoll | hostByte _ => rfl

/-- Settles O1: the first byte selects the operation's own row, and that row's operands are read back. -/
theorem decodeEncodeRoundTrip : Obligations.DecodeEncodeRoundTrip :=
  fun _ rest h => (Laws.LeadByte.decode_lead h rest).trans (decodeOperands_operandBytes h rest)

/-! ### The command byte -/

theorem decodeHost_cons_of_not_command {b : Byte} (h : isCommandByte b = false) (rest : List Byte) :
    decodeHost (b :: rest) = .ok (.invalid b, rest) := by
  rw [decodeHost, Laws.LeadByte.hostOpcode_of_not_command h]; rfl

theorem commandPhase_of_not_command {b : Byte} (h : isCommandByte b = false) : Machine.commandPhase b = .invalid := by
  rw [Machine.commandPhase, Laws.LeadByte.hostOpcode_of_not_command h]; rfl

/-- Settles O3: row by row of R111, where a byte of no exact row falls to INVALID. -/
theorem commandByteTable : Obligations.CommandByteTable := by
  intro b rest
  refine ⟨?ping, ?uptime, ?status, ?readlog, ?sendcode, ?invalid⟩
  case ping | uptime | status | readlog => rintro rfl; exact ⟨rfl, rfl⟩
  case sendcode => rintro rfl; exact ⟨rfl, fun _ _ _ => rfl⟩
  case invalid =>
    intro h1 h2 h3 h4 h5
    have hb : isCommandByte b = false := by
      simp only [isCommandByte, Bool.or_eq_false_iff, beq_eq_false_iff_ne]
      exact ⟨⟨⟨⟨h1, h2⟩, h3⟩, h4⟩, h5⟩
    exact ⟨decodeHost_cons_of_not_command hb rest, commandPhase_of_not_command hb⟩

end Sys2Proof
end

section
/-! The lookup tables and the frame (spec/30_encoding.md R126 to R133). -/

namespace Sys2Proof.Machine

/-! ### The reverse lookup -/

theorem mem_indices (i : BitVec 4) : i ∈ (List.range 16).map (BitVec.ofNat 4) :=
  List.mem_map.mpr ⟨i.toNat, List.mem_range.mpr i.isLt, by simp⟩

theorem reverseLookup_eq_none_iff {table : BitVec 4 → Byte} {x : Byte} :
    reverseLookup table x = none ↔ ∀ i, table i ≠ x := by
  rw [reverseLookup, List.find?_eq_none]
  exact ⟨fun h i => by simpa using h i (mem_indices i), fun h i _ => by simpa using h i⟩

theorem table_of_reverseLookup {table : BitVec 4 → Byte} {x : Byte} {i : BitVec 4}
    (h : reverseLookup table x = some i) : table i = x := by
  simpa using List.find?_some h

/-- In a table of distinct values, the index found is the only one (R133). -/
theorem reverseLookup_eq_some_iff {table : BitVec 4 → Byte} (hinj : Function.Injective table) {x : Byte} {i : BitVec 4} :
    reverseLookup table x = some i ↔ table i = x := by
  refine ⟨table_of_reverseLookup, ?_⟩
  rintro rfl
  cases hj : reverseLookup table (table i) with
  | none => exact absurd rfl (reverseLookup_eq_none_iff.mp hj i)
  | some j => rw [hinj (table_of_reverseLookup hj)]

/-- When the values of a table are just the bytes of an interval, the bytes with no index are those outside it (R133). -/
theorem reverseLookup_eq_none_iff_outside {table : BitVec 4 → Byte} {lo hi : Nat}
    (hrange : ∀ i, lo ≤ (table i).toNat ∧ (table i).toNat ≤ hi)
    (honto : ∀ x : Byte, lo ≤ x.toNat → x.toNat ≤ hi → ∃ i, table i = x) {x : Byte} :
    reverseLookup table x = none ↔ x.toNat < lo ∨ hi < x.toNat := by
  rw [reverseLookup_eq_none_iff]
  constructor
  · intro hne
    by_contra hx
    obtain ⟨i, hix⟩ := honto x (by omega) (by omega)
    exact hne i hix
  · rintro hx i rfl
    have := hrange i
    omega

/-! ### The two tables (R131, R132) -/

theorem houseLetter_injective : Function.Injective houseLetter := by
  unfold Function.Injective; decide

theorem unitNumber_injective : Function.Injective unitNumber := by
  unfold Function.Injective; decide

theorem houseLetter_range : ∀ i, 0x41 ≤ (houseLetter i).toNat ∧ (houseLetter i).toNat ≤ 0x50 := by decide

theorem houseLetter_onto : ∀ x : Byte, 0x41 ≤ x.toNat → x.toNat ≤ 0x50 → ∃ i, houseLetter i = x := by decide

theorem unitNumber_range : ∀ i, 1 ≤ (unitNumber i).toNat ∧ (unitNumber i).toNat ≤ 16 := by decide

theorem unitNumber_onto : ∀ x : Byte, 1 ≤ x.toNat → x.toNat ≤ 16 → ∃ i, unitNumber i = x := by decide

/-- Settles O5: each table holds 16 distinct values, the bytes of one interval, so its reverse lookup is exact. -/
theorem lookupTables : Obligations.LookupTables :=
  ⟨by decide, by decide, fun x _ =>
    ⟨reverseLookup_eq_some_iff houseLetter_injective, reverseLookup_eq_some_iff unitNumber_injective,
      reverseLookup_eq_none_iff_outside houseLetter_range houseLetter_onto,
      reverseLookup_eq_none_iff_outside unitNumber_range unitNumber_onto⟩⟩

/-! ### The slots of a send -/

theorem frameSlots_length (h k : BitVec 4) (f : Bool) : (frameSlots h k f).length = 22 := rfl

section
variable (cfg : Config) (h u c : BitVec 4) (i : Nat)

theorem txSlots_getElem?_unitFrame (hi : i < 22) : (txSlots cfg h u c)[i]? = (frameSlots h u false)[i]? := by
  rw [txSlots, List.append_assoc, List.getElem?_append_left (by rwa [frameSlots_length])]

theorem txSlots_getElem?_gap (hi : i < cfg.txGapSlots) : (txSlots cfg h u c)[22 + i]? = some false := by
  rw [txSlots, List.append_assoc, List.getElem?_append_right (by rw [frameSlots_length]; omega), frameSlots_length,
    Nat.add_sub_cancel_left, List.getElem?_append_left (by rwa [List.length_replicate]),
    List.getElem?_replicate_of_lt hi]

theorem txSlots_getElem?_commandFrame : (txSlots cfg h u c)[22 + cfg.txGapSlots + i]? = (frameSlots h c true)[i]? := by
  have hlen : (frameSlots h u false ++ List.replicate cfg.txGapSlots false).length = 22 + cfg.txGapSlots := by
    rw [List.length_append, frameSlots_length, List.length_replicate]
  rw [txSlots, ← hlen, List.getElem?_append_right (Nat.le_add_right ..), Nat.add_sub_cancel_left]

end

/-- Settles O6: a send is the unit frame, the gap and the command frame, one after the other. -/
theorem frameSlotLayout : Obligations.FrameSlotLayout := fun h k f =>
  ⟨rfl, frameSlots_length h k f, fun cfg c =>
    ⟨txSlots_length cfg h k c, txSlots_getElem?_unitFrame cfg h k c, txSlots_getElem?_gap cfg h k c,
      fun i _ => txSlots_getElem?_commandFrame cfg h k c i⟩⟩

end Sys2Proof.Machine
end

section
/-! The FIFO's operations one by one (spec/40_fifo.md R160 to R163, R165, R166): what each answers where the FIFO is
ready, and what it leaves. -/

namespace Sys2Proof.Machine

/-! ### The indices -/

theorem indexAdd_zero {n : Nat} {i : BitVec 16} (hn : n ≤ 65535) (hi : i.toNat < n) : indexAdd n i 0 = i := by
  apply BitVec.eq_of_toNat_eq
  rw [indexAdd_toNat _ _ hn (by omega), Nat.add_zero, Nat.mod_eq_of_lt hi]

theorem FifoLegal.size_pos {s : State} (h : FifoLegal s) : 0 < s.size := Nat.lt_of_le_of_lt (Nat.zero_le _) h.1

theorem Fifo.contents_eq_nil {n : Nat} {f : Fifo} (h : f.count n = 0) : f.contents n = [] :=
  List.eq_nil_of_length_eq_zero (by rw [Fifo.contents_length, h])

theorem logBytes_length (s : State) : s.logBytes.length = s.fifo.count s.size := Fifo.contents_length s.size s.fifo

/-! ### FIFO_INIT and FIFO_RESET (R160, R166) -/

theorem exec_fifoInit {s : State} (capacity : Nat) (h : FifoReady s) :
    exec (.fifoInit capacity) s =
      if capacity = s.size then .next (setFifo s.fifo.init s) else .refused .wrongCapacity := fifoStep_of_ready _ h

/-- Settles O9: the capacity test decides between the two answers. -/
theorem fifoInitClearsIndices : Obligations.FifoInitClearsIndices := by
  intro capacity s hr
  rw [exec_fifoInit capacity hr]
  exact ⟨fun h => if_pos h, fun h => if_neg h⟩

/-- A second FIFO_RESET finds nothing to do. -/
@[simp] theorem Fifo.clear_clear (f : Fifo) : f.clear.clear = f.clear := by simp [Fifo.clear]

@[simp] theorem Fifo.clear_contents (n : Nat) (f : Fifo) : f.clear.contents n = [] :=
  Fifo.contents_eq_nil (Fifo.clear_count n f)

@[simp] theorem Fifo.init_contents (n : Nat) (f : Fifo) : f.init.contents n = [] :=
  Fifo.contents_eq_nil (Fifo.init_count n f)

/-- Settles O16: FIFO_RESET is `Fifo.clear`, which empties the queue and is idempotent. -/
theorem fifoResetEmpties : Obligations.FifoResetEmpties := by
  intro s hr
  have hspoil : (s.fifo.spoiled || s.fifo.readOpen) = if s.fifo.readOpen then true else s.fifo.spoiled := by
    cases s.fifo.readOpen <;> simp
  have hclear : FifoReady (setFifo s.fifo.clear s) := hr
  refine ⟨setFifo s.fifo.clear s, exec_fifoReset hr, ?_, Fifo.clear_contents .., rfl, ?_⟩
  · rw [← hspoil]; rfl
  · rw [exec_fifoReset hclear, setFifo_fifo, Fifo.clear_clear]; rfl

/-! ### FIFO_INSERT (R161) -/

/-- An insert for which there is no room, or no data, leaves the FIFO as it is. -/
theorem Fifo.insert_of_writtenCount_eq_zero {n : Nat} {data : List Byte} {f : Fifo} (hn : n ≤ 65535)
    (hh : f.head.toNat < n) (hw : f.writtenCount n data = 0) : f.insert n data = f := by
  simp [Fifo.insert, hw, writeRun, indexAdd_zero hn hh]

/-- Settles O10, from the bytes an insert writes, the bytes it leaves and the queue it makes. -/
theorem fifoInsertWritesLeadingBytes : Obligations.FifoInsertWritesLeadingBytes := by
  intro data s hr hl
  obtain ⟨hh, ht⟩ := hl
  have hn := hr.size_le
  exact ⟨s.fifo.writtenCount s.size data, s.fifo.insert s.size data, rfl, exec_fifoInsert data hr,
    Fifo.insert_head data s.fifo hn (by omega), fun j hj hw => Fifo.byteAt_insert_new data s.fifo hh hw hj,
    fun a ha => Fifo.byteAt_insert_old data s.fifo ha, rfl, rfl, rfl, rfl, Fifo.contents_insert data hn hh ht,
    Fifo.insert_of_writtenCount_eq_zero hn hh⟩

/-! ### FIFO_AVAIL and FIFO_FREE (R162, R163) -/

/-- Data that wraps with `head > 0` is undercounted by FIFO_AVAIL. -/
theorem Fifo.avail_lt_count {n : Nat} {f : Fifo} (ht : f.tail.toNat < n) (hwrap : f.head.toNat < f.tail.toNat)
    (h0 : 0 < f.head.toNat) : f.avail n < f.count n := by
  rw [Fifo.count_eq (by omega) ht, Fifo.avail, if_neg (by omega), if_neg (by omega)]
  omega

/-- Settles O11, by the two layouts of the buffered data. -/
theorem fifoAvailIsContiguous : Obligations.FifoAvailIsContiguous := by
  intro s hr hl
  refine ⟨s.fifo.avail s.size, exec_fifoAvail hr, fun h => if_pos h, fun h => if_neg (by omega),
    Fifo.avail_eq_zero hl.2, fun hwrap h0 => ?_⟩
  rw [logBytes_length]
  exact Fifo.avail_lt_count hl.2 hwrap h0

theorem Fifo.free_of_tail_eq_zero {n : Nat} {f : Fifo} (h : f.tail.toNat = 0) : f.free n = n - 1 - f.head.toNat := by
  have h0 : f.tail = 0 := BitVec.eq_of_toNat_eq h
  simp [Fifo.free, h0]

theorem Fifo.free_of_tail_le_head {n : Nat} {f : Fifo} (h : f.tail.toNat ≤ f.head.toNat) (h0 : f.tail.toNat ≠ 0) :
    f.free n = n - f.head.toNat := by
  have h0 : f.tail ≠ 0 := fun e => h0 (by rw [e]; rfl)
  rw [Fifo.free, if_pos h, if_neg h0]

theorem Fifo.free_of_head_lt_tail {n : Nat} {f : Fifo} (h : f.head.toNat < f.tail.toNat) :
    f.free n = f.tail.toNat - f.head.toNat - 1 := if_neg (by omega)

/-- All of the free space: what lies before the physical end, and the `tail - 1` bytes that follow it when it wraps. -/
theorem Fifo.freeTotal_eq {n : Nat} {f : Fifo} (hh : f.head.toNat < n) (ht : f.tail.toNat < n) :
    f.freeTotal n = f.free n + if f.tail.toNat ≤ f.head.toNat then f.tail.toNat - 1 else 0 := by
  rw [Fifo.freeTotal, Fifo.count_eq hh ht]
  rcases lt_or_ge f.head.toNat f.tail.toNat with h | h
  · rw [Fifo.free_of_head_lt_tail h, if_neg (by omega), if_neg (by omega)]; omega
  · rw [if_pos h, if_pos h]
    by_cases h0 : f.tail.toNat = 0
    · rw [Fifo.free_of_tail_eq_zero h0]; omega
    · rw [Fifo.free_of_tail_le_head h h0]; omega

/-- Settles O12: the three cases of the formula, each measured against all of the free space. -/
theorem fifoFreeIsContiguous : Obligations.FifoFreeIsContiguous := by
  intro s hr hl
  obtain ⟨hh, ht⟩ := hl
  have htotal := Fifo.freeTotal_eq hh ht
  refine ⟨s.fifo.free s.size, exec_fifoFree hr, fun _ => Fifo.free_of_tail_eq_zero, Fifo.free_of_tail_le_head,
    Fifo.free_of_head_lt_tail, by omega, fun hnoWrap => ?_, fun hfull => ?_⟩
  · split at htotal <;> omega
  · rw [logBytes_length] at hfull
    rw [Fifo.freeTotal] at htotal
    omega

/-! ### FIFO_READ (R165) -/

/-- Advancing `tail` by no more than what is buffered: where it comes to stand, and which bytes are left. -/
theorem FifoLegal.advance_tail_and_contents {s : State} {k : Nat} (hl : FifoLegal s) (hn : s.size ≤ 65535)
    (hk : k ≤ s.logBytes.length) :
    (s.fifo.advance s.size k).tail.toNat = (s.fifo.tail.toNat + k) % s.size ∧
    (s.fifo.advance s.size k).contents s.size = s.logBytes.drop k :=
  ⟨Fifo.advance_tail k s.fifo hn hl.size_pos,
    Fifo.contents_advance hn hl.1 hl.2 (by rwa [logBytes_length] at hk)⟩

/-- Settles O15: FIFO_READ takes as many of the oldest bytes as its limit allows. -/
theorem fifoReadReturnsOldest : Obligations.FifoReadReturnsOldest := by
  intro max s hr hl
  obtain ⟨htail, hcontents⟩ := hl.advance_tail_and_contents hr.size_le (Limit.cap_le max 0 s.logBytes.length)
  exact ⟨_, htail, exec_fifoRead max hr hl, hcontents⟩

end Sys2Proof.Machine
end

section
/-! FIFO_READ_DRAIN (spec/40_fifo.md R164): the call by its first pass, and all that it can take. -/

namespace Sys2Proof.Machine

/-! ### What a call answers -/

/-- A call whose consumer kept to the runs it was offered returns what it took. -/
theorem exec_fifoReadDrain_completed {s : State} {m : Limit} {counts : List Nat} {d : Drain} (hr : FifoReady s)
    (hd : s.fifo.readDrain s.size m (listedConsumer counts) = d) (h : d.overconsumed = false) :
    exec (.fifoReadDrain m counts) s =
      .next { s with fifo := d.fifo, env := { s.env with result := .drained d.total d.runs } } := by
  rw [exec_fifoReadDrain m counts hr, hd, h]; rfl

/-- A call whose consumer reported more than it was offered raises `DRAIN_OVERCONSUME`. -/
theorem exec_fifoReadDrain_overconsumed {s : State} {m : Limit} {counts : List Nat} {d : Drain} (hr : FifoReady s)
    (hd : s.fifo.readDrain s.size m (listedConsumer counts) = d) (h : d.overconsumed = true) :
    exec (.fifoReadDrain m counts) s = .next { s with
      fifo := d.fifo, faults := [.drainOverconsume], seq := { s.seq with phase := .haltedByFault } } := by
  rw [exec_fifoReadDrain m counts hr, hd, if_pos h, raiseFault, setFifo_faults, hr.1]; rfl

/-! ### The first pass -/

/-- A listed consumer's first report. -/
theorem listedConsumer_zero (counts : List Nat) (run : Nat) : listedConsumer counts 0 run = counts.getD 0 0 := rfl

/-- After its first report a listed consumer is the one that lists the others. -/
theorem listedConsumer_succ (counts : List Nat) (call run : Nat) :
    listedConsumer counts (call + 1) run = listedConsumer counts.tail call run := by
  cases counts <;> simp [listedConsumer]

/-- After a first pass that takes `c` bytes, the loop is the call on what is left, with that pass put before it. -/
theorem drainLoop_after_first {n c passes : Nat} (max : Limit) (counts : List Nat) (run : Nat) {f : Fifo}
    (hn : n ≤ 65535) (hh : f.head.toNat < n) (ht : f.tail.toNat < n) (hc : c ≤ f.count n)
    (hp : f.count n - c < passes) :
    drainLoop n max (listedConsumer counts) passes 1 (Drain.take n run c ⟨f, 0, [], [], false⟩) =
      let r := (f.advance n c).readDrain n (Limit.less max c) (listedConsumer counts.tail)
      { r with total := c + r.total, runs := f.run n run :: r.runs, taken := (f.run n run).take c ++ r.taken } := by
  have hcount : (f.advance n c).count n = f.count n - c := Fifo.count_advance hn hh ht hc
  have hfirst : Drain.take n run c ⟨f, 0, [], [], false⟩ =
      ⟨f.advance n c, c + 0, [f.run n run] ++ [], (f.run n run).take c ++ [], false⟩ := by simp [Drain.take]
  have hshift := drainLoop_shift (n := n) max (listedConsumer counts) c [f.run n run] ((f.run n run).take c) n 0
    ⟨f.advance n c, 0, [], [], false⟩
  simp only [listedConsumer_succ] at hshift
  rw [hfirst, drainLoop_passes max (listedConsumer counts) hn passes n 1 _ hh (Fifo.advance_tail_lt c f hn (by omega))
    (by simpa only [hcount]) (Fifo.count_lt _ (by omega))]
  exact hshift

/-- FIFO_READ_DRAIN by its first pass: it ends there in three ways, or it is the call on what that pass leaves, with the
pass put before it. -/
theorem Fifo.readDrain_pass {n : Nat} (max : Limit) (counts : List Nat) (f : Fifo) (hn : n ≤ 65535)
    (hh : f.head.toNat < n) (ht : f.tail.toNat < n) :
    f.readDrain n max (listedConsumer counts) =
      let run := Limit.cap max 0 (f.avail n)
      let c := counts.getD 0 0
      if run = 0 then ⟨f, 0, [], [], false⟩
      else if run < c then ⟨f, 0, [f.run n run], [], true⟩
      else if c = 0 then ⟨f, 0, [f.run n run], [], false⟩
      else
        let r := (f.advance n c).readDrain n (Limit.less max c) (listedConsumer counts.tail)
        { r with total := c + r.total, runs := f.run n run :: r.runs, taken := (f.run n run).take c ++ r.taken } := by
  have hrun := Fifo.offered_le max 0 hh ht
  have hlt := f.count_lt (n := n) (by omega)
  obtain ⟨p, hp⟩ : ∃ p, n = p + 1 := ⟨n - 1, by omega⟩
  have hfirst : f.readDrain n max (listedConsumer counts) =
    drainLoop n max (listedConsumer counts) (p + 1) 0 ⟨f, 0, [], [], false⟩ := by rw [← hp]; rfl
  rw [hfirst, drainLoop_succ, listedConsumer_zero]
  dsimp only
  generalize Limit.cap max 0 (f.avail n) = run at *
  generalize counts.getD 0 0 = c
  split; · rfl
  split; · rfl
  split; · rfl
  exact drainLoop_after_first max counts run hn hh ht (by omega) (by omega)

/-- Settles O13: the four ways the first pass goes, each with what the call then answers. -/
theorem fifoReadDrainPass : Obligations.FifoReadDrainPass := by
  intro max counts s hr hl
  dsimp only
  have hpass := Fifo.readDrain_pass max counts s.fifo hr.size_le hl.1 hl.2
  dsimp only at hpass
  generalize Limit.cap max 0 (s.fifo.avail s.size) = run at *
  generalize counts.getD 0 0 = c at *
  refine ⟨fun hrun => ?_, fun hrun hc => ?_, fun hrun hc => ?_, fun hrun hpos hc => ?_⟩
  · rw [if_pos hrun] at hpass
    exact exec_fifoReadDrain_completed hr hpass rfl
  · rw [if_neg hrun, if_pos hc] at hpass
    rw [exec_fifoReadDrain_overconsumed hr hpass rfl]
  · rw [if_neg hrun, if_neg (by omega), if_pos hc] at hpass
    exact exec_fifoReadDrain_completed hr hpass rfl
  · rw [if_neg hrun, if_neg (by omega), if_neg (by omega)] at hpass
    have hr' : FifoReady { s with fifo := s.fifo.advance s.size c } := hr
    generalize hd : (s.fifo.advance s.size c).readDrain s.size (Limit.less max c) (listedConsumer counts.tail) = d
      at hpass
    cases hover : d.overconsumed with
    | true =>
      exact ⟨_, exec_fifoReadDrain_overconsumed hr' hd hover,
        .inl ⟨rfl, by rw [exec_fifoReadDrain_overconsumed hr hpass hover]⟩⟩
    | false =>
      exact ⟨_, exec_fifoReadDrain_completed hr' hd hover,
        .inr ⟨hr.1, d.total, d.runs, rfl, exec_fifoReadDrain_completed hr hpass hover⟩⟩

/-! ### The whole call -/

/-- Settles O14: whatever the consumer reports, the loop has advanced `tail` over the oldest bytes, and the call either
returns or raises the fault. -/
theorem fifoReadDrainTakesOldest : Obligations.FifoReadDrainTakesOldest := by
  intro max counts s hr hl
  obtain ⟨k, hk, hcap, htotal, hfifo, -⟩ :=
    Fifo.readDrain_takes max (listedConsumer counts) s.fifo hr.size_le hl.1 hl.2
  generalize hd : s.fifo.readDrain s.size max (listedConsumer counts) = d at htotal hfifo
  have hlen : k ≤ s.logBytes.length := by rwa [logBytes_length]
  obtain ⟨htail, hcontents⟩ := hl.advance_tail_and_contents hr.size_le hlen
  refine ⟨_, k, hlen, hcap, htail, hcontents, ?_⟩
  cases hover : d.overconsumed with
  | true =>
    have h := exec_fifoReadDrain_overconsumed hr hd hover
    rw [hfifo] at h
    exact .inr h
  | false =>
    have h := exec_fifoReadDrain_completed hr hd hover
    rw [hfifo, htotal] at h
    exact .inl ⟨d.runs, h⟩

end Sys2Proof.Machine
end

section
/-! The FIFO as a bounded queue (spec/40_fifo.md R167): each of the five operations that change the FIFO is an operation
on the queue of buffered bytes, and so is every sequence of them. -/

namespace Sys2Proof.Machine

/-! ### One operation -/

/-- `t` answers a queue operation on `s`: it is again a legal state of the same core without a fault, and its buffered
bytes and result are what the queue makes of them. -/
structure QueueOp.Refines (op : QueueOp) (s t : State) : Prop where
  faults : t.faults = []
  cfg : t.cfg = s.cfg
  legal : FifoLegal t
  takes : op.takes (s.size - 1) (s.logBytes, s.env.result) (t.logBytes, t.env.result)

theorem FifoLegal.setFifo_advance {s : State} (hl : FifoLegal s) (hn : s.size ≤ 65535) (k : Nat) :
    FifoLegal (setFifo (s.fifo.advance s.size k) s) :=
  ⟨hl.1, Fifo.advance_tail_lt k s.fifo hn hl.size_pos⟩

theorem QueueOp.init_refines {s : State} (hr : FifoReady s) (hl : FifoLegal s) :
    QueueOp.init.Refines s (setFifo s.fifo.init s) where
  faults := hr.1
  cfg := rfl
  legal := ⟨hl.size_pos, hl.size_pos⟩
  takes := congrArg (·, s.env.result) (Fifo.init_contents s.size s.fifo)

theorem QueueOp.reset_refines {s : State} (hr : FifoReady s) (hl : FifoLegal s) :
    QueueOp.reset.Refines s (setFifo s.fifo.clear s) where
  faults := hr.1
  cfg := rfl
  legal := ⟨hl.size_pos, hl.size_pos⟩
  takes := congrArg (·, s.env.result) (Fifo.clear_contents s.size s.fifo)

/-- An insert writes all of its data that finds room. -/
theorem Fifo.take_writtenCount (n : Nat) (data : List Byte) (f : Fifo) :
    data.take (f.writtenCount n data) = data.take (f.freeTotal n) := by
  rw [Fifo.writtenCount, Nat.min_comm, ← List.take_eq_take_min]

theorem QueueOp.insert_refines {s : State} (data : List Byte) (hr : FifoReady s) (hl : FifoLegal s) :
    (QueueOp.insert data).Refines s (giveResult (.count (s.fifo.writtenCount s.size data))
      (setFifo (s.fifo.insert s.size data) s)) where
  faults := hr.1
  cfg := rfl
  legal := ⟨Fifo.insert_head data s.fifo hr.size_le hl.size_pos ▸ Nat.mod_lt _ hl.size_pos, hl.2⟩
  takes := by
    have hroom : s.size - 1 - s.logBytes.length = s.fifo.freeTotal s.size := by rw [logBytes_length, Fifo.freeTotal]
    have hcontents := Fifo.contents_insert data hr.size_le hl.1 hl.2
    rw [Fifo.take_writtenCount] at hcontents
    rw [QueueOp.takes, hroom]
    exact congrArg (·, PortResult.count (s.fifo.writtenCount s.size data)) hcontents

theorem QueueOp.read_refines {s : State} (max : Limit) (hr : FifoReady s) (hl : FifoLegal s) :
    (QueueOp.read max).Refines s (giveResult (.bytes (s.logBytes.take (Limit.cap max 0 s.logBytes.length)))
      (setFifo (s.fifo.advance s.size (Limit.cap max 0 s.logBytes.length)) s)) where
  faults := hr.1
  cfg := rfl
  legal := hl.setFifo_advance hr.size_le _
  takes := congrArg (·, PortResult.bytes (s.logBytes.take (Limit.cap max 0 s.logBytes.length)))
    (hl.advance_tail_and_contents hr.size_le (Limit.cap_le max 0 s.logBytes.length)).2

theorem QueueOp.drain_refines {s : State} {max : Limit} {counts : List Nat} {d : Drain} (hr : FifoReady s)
    (hl : FifoLegal s) (hd : s.fifo.readDrain s.size max (listedConsumer counts) = d) (h : d.overconsumed = false) :
    (QueueOp.drain max counts).Refines s (giveResult (.drained d.total d.runs) (setFifo d.fifo s)) := by
  subst hd
  obtain ⟨hle, hcap, hfifo, htaken⟩ := Fifo.readDrain_listed max counts s.fifo hr.size_le hl.1 hl.2 h
  generalize s.fifo.readDrain s.size max (listedConsumer counts) = d at *
  have hlen : d.total ≤ s.logBytes.length := by rwa [logBytes_length]
  rw [hfifo]
  exact {
    faults := hr.1
    cfg := rfl
    legal := hl.setFifo_advance hr.size_le _
    takes := ⟨d.total, d.runs, hlen, hcap, htaken,
      congrArg (·, PortResult.drained d.total d.runs) (hl.advance_tail_and_contents hr.size_le hlen).2⟩ }

/-- An operation is answered as the queue answers it, but for a drain whose consumer over-consumes. -/
theorem exec_queueOp (op : QueueOp) {s : State} (hr : FifoReady s) (hl : FifoLegal s) :
    (∃ t, exec (op.instr s.size) s = .next t ∧ op.Refines s t) ∨
    ∃ max counts u, op = .drain max counts ∧ exec (op.instr s.size) s = .next u ∧
      u.faults = [.drainOverconsume] := by
  cases op with
  | init => exact .inl ⟨_, (exec_fifoInit s.size hr).trans (if_pos rfl), QueueOp.init_refines hr hl⟩
  | insert data => exact .inl ⟨_, exec_fifoInsert data hr, QueueOp.insert_refines data hr hl⟩
  | read max => exact .inl ⟨_, exec_fifoRead max hr hl, QueueOp.read_refines max hr hl⟩
  | reset => exact .inl ⟨_, exec_fifoReset hr, QueueOp.reset_refines hr hl⟩
  | drain max counts =>
    cases hover : (s.fifo.readDrain s.size max (listedConsumer counts)).overconsumed with
    | false => exact .inl ⟨_, exec_fifoReadDrain_completed hr rfl hover, QueueOp.drain_refines hr hl rfl hover⟩
    | true => exact .inr ⟨max, counts, _, rfl, exec_fifoReadDrain_overconsumed hr rfl hover, rfl⟩

/-! ### Every sequence -/

theorem execAll_cons_next {i : Instr} {is : List Instr} {s t : State} (h : exec i s = .next t) :
    execAll (i :: is) s = execAll is t := by rw [execAll, h]

/-- The FIFO holds at most `N - 1` bytes (R36). -/
theorem FifoLegal.logBytes_length_le {s : State} (hl : FifoLegal s) : s.logBytes.length ≤ s.size - 1 := by
  have := Fifo.count_lt s.fifo hl.size_pos
  rw [logBytes_length]
  omega

/-- Settles O17, by induction on the sequence: each operation refines the queue's and leaves a state from which the rest
is run, or the sequence ends at it. -/
theorem fifoRefinesQueue : Obligations.FifoRefinesQueue := by
  intro ops
  induction ops with
  | nil => exact fun s hr hl => .inl ⟨s, rfl, hr.1, hl, rfl, hl.logBytes_length_le⟩
  | cons op ops ih =>
    intro s hr hl
    rcases exec_queueOp op hr hl with ⟨t, ht, href⟩ | ⟨max, counts, u, rfl, hu, hfault⟩
    · have hsize : t.size = s.size := congrArg Config.capacity href.cfg
      have hready : FifoReady t := ⟨href.faults, href.cfg ▸ hr.2⟩
      have hrest := ih t hready href.legal
      rw [hsize] at hrest
      rcases hrest with ⟨v, hv, hclean, hlegal, hqueue, hlen⟩ | ⟨before, max, counts, after, u, rfl, hu, hfault⟩
      · exact .inl ⟨v, (execAll_cons_next ht).trans hv, hclean, hlegal, ⟨_, href.takes, hqueue⟩, hlen⟩
      · exact .inr ⟨op :: before, max, counts, after, u, rfl, (execAll_cons_next ht).trans hu, hfault⟩
    · exact .inr ⟨[], max, counts, ops, u, rfl, execAll_cons_next hu, hfault⟩

end Sys2Proof.Machine
end

section
/-! The event log (spec/41_event_log.md R190 to R199): LOG_APPEND where its record fits and where it overflows, the
steps of LOG_DRAIN, and the stream that a whole drain sends, with or without appends between its steps. -/

namespace Sys2Proof.Machine

/-! ### LOG_APPEND (R190, R191, R194) -/

/-- The free space of the LOG (R36). -/
theorem freeTotal_eq_logBytes (s : State) : s.fifo.freeTotal s.size = s.size - 1 - s.logBytes.length := by
  rw [logBytes_length, Fifo.freeTotal]

/-- Settles O18: the step is `logAppend`, which has the effect `Appended` and changes the FIFO and `status` alone. -/
theorem logAppendOrOverflow : Obligations.LogAppendOrOverflow := by
  intro record s hr hl
  refine ⟨_, exec_logAppend record hr, (logAppend_appended hr.size_le hl).congr rfl rfl rfl rfl rfl rfl, ?_⟩
  rw [giveResult, logAppend_env, Fifo.writtenCount, freeTotal_eq_logBytes]
  conv_lhs => rw [logAppend_frame]

/-- A record that fits is added behind the buffered bytes, and the FIFO is all of the core that changes. -/
theorem exec_logAppend_fits {s : State} {record : List Byte} (hr : Ready s) (hl : FifoLegal s)
    (hfit : s.logBytes.length + record.length ≤ s.size - 1) :
    ∃ (f : Fifo) (e : Environment), exec (.logAppend record) s = .next { s with fifo := f, env := e } ∧
      FifoLegal (setFifo f s) ∧ f.spoiled = s.fifo.spoiled ∧ f.contents s.size = s.logBytes ++ record := by
  have hfree : record.length ≤ s.fifo.freeTotal s.size := by rw [freeTotal_eq_logBytes]; omega
  have hlegal := logAppend_legal (record := record) hr.size_le hl
  obtain ⟨-, -, -, -, happend⟩ := logAppend_appended (record := record) hr.size_le hl
  rw [if_pos hfree] at happend
  rw [logAppend_fits hfree] at hlegal happend
  obtain ⟨hbytes, -, hspoiled, -⟩ := happend
  have hexec := exec_logAppend record hr
  rw [logAppend_fits hfree] at hexec
  exact ⟨_, _, hexec, hlegal, hspoiled, hbytes⟩

/-- Records that fit together are all kept, in order. -/
theorem execAll_logAppend_fits (records : List (List Byte)) {s : State} (hr : Ready s) (hl : FifoLegal s)
    (hfit : s.logBytes.length + records.flatten.length ≤ s.size - 1) :
    ∃ (f : Fifo) (e : Environment),
      execAll (records.map Instr.logAppend) s = .next { s with fifo := f, env := e } ∧
      FifoLegal (setFifo f s) ∧ f.contents s.size = s.logBytes ++ records.flatten := by
  induction records generalizing s with
  | nil => exact ⟨s.fifo, s.env, rfl, hl, by simp [State.logBytes]⟩
  | cons record records ih =>
    simp only [List.flatten_cons, List.length_append] at hfit
    obtain ⟨f, e, hexec, hlegal, -, hbytes⟩ := exec_logAppend_fits (record := record) hr hl (by omega)
    have hlog : State.logBytes { s with fifo := f, env := e } = s.logBytes ++ record := hbytes
    obtain ⟨g, e', hrest, hlegal', hbytes'⟩ := ih (s := { s with fifo := f, env := e }) hr hlegal
      (by rw [hlog, List.length_append]; show _ ≤ s.size - 1; omega)
    rw [hlog, List.append_assoc] at hbytes'
    exact ⟨g, e', (execAll_cons_next hexec).trans hrest, hlegal', hbytes'⟩

/-- The LOG is empty exactly when its two indices agree (R162). -/
theorem FifoLegal.logBytes_eq_nil {s : State} (hl : FifoLegal s) : s.logBytes = [] ↔ s.fifo.head = s.fifo.tail := by
  rw [← List.length_eq_zero_iff, logBytes_length, Fifo.count_eq_zero hl.1 hl.2]

/-- Settles O19: the records all fit, and behind them there is no room for the last. -/
theorem logOverflowsAboveCapacity : Obligations.LogOverflowsAboveCapacity := by
  intro records last s hr hl hempty hfit hover
  have hnil : s.logBytes = [] := hl.logBytes_eq_nil.mpr hempty
  obtain ⟨f, e, hrun, hlegal, hbytes⟩ := execAll_logAppend_fits records hr hl (by simpa [hnil] using hfit)
  rw [hnil, List.nil_append] at hbytes
  obtain ⟨u, hu, ⟨-, -, -, -, happend⟩, -⟩ := logAppendOrOverflow last { s with fifo := f, env := e } hr hlegal
  have hroom : ¬ last.length ≤ f.freeTotal s.size := by
    rw [Fifo.freeTotal, ← Fifo.contents_length, hbytes]; omega
  rw [if_neg hroom] at happend
  obtain ⟨hhead, htail, hlog, -, hstatus⟩ := happend
  exact ⟨_, u, hrun, hbytes, rfl, hu, hlog, hhead, htail, hstatus⟩

/-! ### The steps of LOG_DRAIN (R196 to R198) -/

section
variable {i : Instr} {s : State}

theorem exec_drain_emit (hi : i = .readlog ∨ i = .logDrain) (hr : Ready s) (hl : FifoLegal s)
    (hp : s.seq.phase = .rlEmit) (hne : s.fifo.head ≠ s.fifo.tail) : exec i s = .next (emitChunk s) := by
  have ha := (Fifo.avail_eq_zero hl.2).not.mpr hne
  rw [exec_drain hi hr]; simp [drainEnabled, drainStep, hp, ha]

theorem exec_drain_terminate (hi : i = .readlog ∨ i = .logDrain) (hr : Ready s) (hl : FifoLegal s)
    (hp : s.seq.phase = .rlEmit) (hempty : s.fifo.head = s.fifo.tail) : exec i s = .next (emitTerminator s) := by
  have ha := (Fifo.avail_eq_zero hl.2).mpr hempty
  rw [exec_drain hi hr]; simp [drainEnabled, drainStep, hp, ha]

theorem exec_drain_advance (hi : i = .readlog ∨ i = .logDrain) (hr : Ready s) (hp : s.seq.phase = .rlAdvance) :
    exec i s = .next (advanceChunk s) := by
  rw [exec_drain hi hr]; simp [drainEnabled, drainStep, hp]

end

/-- The length of a chunk fits its length byte (R196). -/
theorem chunkLength_toNat (s : State) : (BitVec.ofNat 8 (chunkLength s)).toNat = chunkLength s :=
  Nat.mod_eq_of_lt (by rw [chunkLength_eq]; omega)

/-- The chunk is part of the buffered bytes (R162, R196). -/
theorem FifoLegal.chunkLength_le {s : State} (hl : FifoLegal s) : chunkLength s ≤ s.logBytes.length := by
  rw [logBytes_length]
  exact le_trans (Nat.min_le_left ..) (Fifo.avail_le_count hl.1 hl.2)

/-- With data available the chunk has at least one byte, and at most what the LOG and the length byte can hold. -/
theorem FifoLegal.chunkLength_bounds {s : State} (hl : FifoLegal s) (hne : s.fifo.head ≠ s.fifo.tail) :
    1 ≤ chunkLength s ∧ chunkLength s ≤ min (s.size - 1) 255 := by
  have havail := (Fifo.avail_eq_zero hl.2).not.mpr hne
  have hle := hl.chunkLength_le
  have hcap := hl.logBytes_length_le
  rw [chunkLength_eq] at *; omega

/-- The whole effect of RL_EMIT on a LOG with data: the chunk is the oldest part of the buffered bytes. -/
theorem FifoLegal.emitChunk_eq {s : State} (hl : FifoLegal s) : emitChunk s = { s with
    ports := { s.ports with txq :=
      s.ports.txq ++ BitVec.ofNat 8 (chunkLength s) :: s.logBytes.take (chunkLength s) }
    seq := { s.seq with chunkLen := BitVec.ofNat 8 (chunkLength s), phase := .rlAdvance }
    fifo := { s.fifo with readOpen := true } } := by
  have hrun := Fifo.run_eq_take s.fifo (logBytes_length s ▸ hl.chunkLength_le)
  rw [emitChunk, hrun]; rfl

/-- Settles O20: the chunk is `chunkLength` bytes, cut by the physical end and by the length byte. -/
theorem drainEmitsChunk : Obligations.DrainEmitsChunk := by
  intro i s hi hr hl hp hne
  obtain ⟨hpos, hcap⟩ := hl.chunkLength_bounds hne
  have hend := Fifo.tail_add_avail_le hl.1 hl.2
  refine ⟨BitVec.ofNat 8 (chunkLength s), ?_⟩
  rw [chunkLength_toNat, ← hl.emitChunk_eq]
  refine ⟨rfl, hpos, by omega, ?_, exec_drain_emit hi hr hl hp hne⟩
  rw [chunkLength_eq]; omega

/-- Settles O21: with nothing available the step is `emitTerminator`. -/
theorem drainTerminatorClearsOverflow : Obligations.DrainTerminatorClearsOverflow := by
  intro i s hi hr hl hp hempty
  exact ⟨_, exec_drain_terminate hi hr hl hp hempty, rfl, by simp [emitTerminator],
    fun _ hk => getLsbD_clearLogOverflow s.status hk⟩

/-- Settles O22: the step is `advanceChunk`, in its two cases. -/
theorem drainAdvanceOrFault : Obligations.DrainAdvanceOrFault := by
  intro i s hi hr hp
  rw [exec_drain_advance hi hr hp, advanceChunk]
  refine ⟨fun hs => ?_, fun hs => ?_⟩
  · rw [if_neg (by simp [hs])]; rfl
  · rw [if_pos hs, raiseFault, setFifo_faults, hr.1]; rfl

/-! ### The stream of a drain (R195, R199) -/

/-- MAIN stands at RL_EMIT of a drain that no reset has spoiled. -/
structure AtEmit (s : State) : Prop where
  ready : Ready s
  legal : FifoLegal s
  phase : s.seq.phase = .rlEmit
  unspoiled : s.fifo.spoiled = false

/-- From one RL_EMIT to a later one a drain has sent `chunks`, while `added` was appended to the LOG. -/
structure Sent (chunks : List (List Byte)) (added : List Byte) (s t : State) : Prop where
  atEmit : AtEmit t
  cfg : t.cfg = s.cfg
  engine : t.engine = s.engine
  ind : t.ind = s.ind
  bytes : chunks.flatten ++ t.logBytes = s.logBytes ++ added
  lengths : ∀ c ∈ chunks, 1 ≤ c.length ∧ c.length ≤ min (s.size - 1) 255
  txq : t.ports.txq = s.ports.txq ++ chunks.flatMap (fun c => BitVec.ofNat 8 c.length :: c)

theorem Sent.refl {s : State} (h : AtEmit s) : Sent [] [] s s where
  atEmit := h
  cfg := rfl
  engine := rfl
  ind := rfl
  bytes := by simp
  lengths := by simp
  txq := by simp

theorem Sent.trans {cs ds : List (List Byte)} {a b : List Byte} {s t u : State} (h : Sent cs a s t)
    (h' : Sent ds b t u) : Sent (cs ++ ds) (a ++ b) s u where
  atEmit := h'.atEmit
  cfg := h'.cfg.trans h.cfg
  engine := h'.engine.trans h.engine
  ind := h'.ind.trans h.ind
  bytes := by
    rw [List.flatten_append, List.append_assoc, h'.bytes, ← List.append_assoc, h.bytes, List.append_assoc]
  lengths c hc := (List.mem_append.mp hc).elim (h.lengths c) fun hd => by
    simpa only [State.size, h.cfg] using h'.lengths c hd
  txq := by rw [h'.txq, h.txq, List.flatMap_append, List.append_assoc]

/-- One chunk: RL_EMIT, then whatever lengthens the LOG by `added` and leaves the chunk unspoiled, then RL_ADVANCE. The
state between is RL_EMIT's with the FIFO `f`. -/
theorem AtEmit.sent_chunk {s : State} (h : AtEmit s) (hne : s.logBytes ≠ []) {added : List Byte} (f : Fifo)
    (e : Environment) (hlegal : FifoLegal (setFifo f s)) (hspoiled : f.spoiled = false)
    (hbytes : f.contents s.size = s.logBytes ++ added) :
    ∃ u, exec .readlog { emitChunk s with fifo := f, env := e } = .next u ∧
      Sent [s.logBytes.take (chunkLength s)] added s u := by
  have hbounds := h.legal.chunkLength_bounds (h.legal.logBytes_eq_nil.not.mp hne)
  have hle := h.legal.chunkLength_le
  have hlen : (s.logBytes.take (chunkLength s)).length = chunkLength s := List.length_take_of_le hle
  have hlog : (setFifo f s).logBytes = s.logBytes ++ added := hbytes
  obtain ⟨-, hdrop⟩ := hlegal.advance_tail_and_contents (k := chunkLength s) h.ready.size_le
    (by rw [hlog, List.length_append]; omega)
  rw [hlog] at hdrop
  obtain ⟨hadvance, -⟩ :=
    drainAdvanceOrFault .readlog { emitChunk s with fifo := f, env := e } (.inl rfl) h.ready rfl
  refine ⟨_, hadvance hspoiled, ?_⟩
  rw [h.legal.emitChunk_eq, chunkLength_toNat]
  exact {
    atEmit := ⟨h.ready, hlegal.setFifo_advance h.ready.size_le _, rfl, hspoiled⟩
    cfg := rfl
    engine := rfl
    ind := rfl
    bytes := by
      rw [List.flatten_singleton, ← List.take_append_of_le_length (l₂ := added) hle]
      exact (congrArg (_ ++ ·) hdrop).trans (List.take_append_drop ..)
    lengths := by simpa only [List.mem_singleton, forall_eq, hlen] using hbounds
    txq := by rw [List.flatMap_singleton, hlen] }

/-- The bytes of the LOG and of one chunk, counted. -/
theorem Sent.length_eq {c added : List Byte} {s t : State} (h : Sent [c] added s t) :
    1 ≤ c.length ∧ c.length + t.logBytes.length = s.logBytes.length + added.length :=
  ⟨(h.lengths c (List.mem_singleton_self c)).1, by simpa using congrArg List.length h.bytes⟩

theorem AtEmit.exec_emit {s : State} (h : AtEmit s) (hne : s.logBytes ≠ []) : exec .readlog s = .next (emitChunk s) :=
  exec_drain_emit (.inl rfl) h.ready h.legal h.phase (h.legal.logBytes_eq_nil.not.mp hne)

/-- An uninterrupted chunk: two steps of READLOG. -/
theorem AtEmit.drain_chunk {s : State} (h : AtEmit s) (hne : s.logBytes ≠ []) :
    ∃ u, (∀ is, execAll (.readlog :: .readlog :: is) s = execAll is u) ∧
      Sent [s.logBytes.take (chunkLength s)] [] s u := by
  obtain ⟨u, hu, hsent⟩ := h.sent_chunk hne (added := []) { s.fifo with readOpen := true } s.env h.legal h.unspoiled
    (List.append_nil _).symm
  refine ⟨u, fun is => ?_, hsent⟩
  rw [execAll_cons_next (h.exec_emit hne)]
  exact execAll_cons_next hu

/-- A chunk with one append between its two steps, for which the LOG has room. -/
theorem AtEmit.drain_chunk_with_append {s : State} (h : AtEmit s) (hne : s.logBytes ≠ []) (record : List Byte)
    (hfit : s.logBytes.length + record.length ≤ s.size - 1) :
    ∃ u, (∀ is, execAll (.readlog :: .logAppend record :: .readlog :: is) s = execAll is u) ∧
      Sent [s.logBytes.take (chunkLength s)] record s u := by
  obtain ⟨f, e, happend, hlegal, hspoiled, hbytes⟩ :=
    exec_logAppend_fits (s := emitChunk s) (record := record) h.ready h.legal hfit
  obtain ⟨u, hu, hsent⟩ := h.sent_chunk hne f e hlegal (hspoiled.trans h.unspoiled) hbytes
  refine ⟨u, fun is => ?_, hsent⟩
  rw [execAll_cons_next (h.exec_emit hne), execAll_cons_next happend, execAll_cons_next hu]

/-- Chunk by chunk an uninterrupted drain empties the LOG: each one leaves fewer bytes. -/
theorem AtEmit.drain_all {s : State} (h : AtEmit s) : ∃ (chunks : List (List Byte)) (t : State),
    execAll (List.replicate (2 * chunks.length) .readlog) s = .next t ∧ Sent chunks [] s t ∧ t.logBytes = [] := by
  induction hk : s.logBytes.length using Nat.strong_induction_on generalizing s with
  | _ k ih =>
    by_cases hne : s.logBytes = []
    · exact ⟨[], s, rfl, .refl h, hne⟩
    · obtain ⟨u, hrun, hsent⟩ := h.drain_chunk hne
      obtain ⟨hpos, hlen⟩ := hsent.length_eq
      rw [List.length_nil] at hlen
      obtain ⟨chunks, t, hrest, hsent', hempty⟩ := ih u.logBytes.length (by omega) hsent.atEmit rfl
      exact ⟨_ :: chunks, t, (hrun _).trans hrest, hsent.trans hsent', hempty⟩

/-- One append of a byte for every chunk keeps the drain going: the LOG grows no longer and does not run empty. -/
theorem AtEmit.drain_with_appends (bs : List Byte) {s : State} (h : AtEmit s) (hne : s.logBytes ≠ [])
    (hroom : s.logBytes.length < s.size - 1) : ∃ (chunks : List (List Byte)) (t : State),
    execAll (bs.flatMap fun b => [.readlog, .logAppend [b], .readlog]) s = .next t ∧ chunks.length = bs.length ∧
      Sent chunks bs s t ∧ t.logBytes ≠ [] := by
  induction bs generalizing s with
  | nil => exact ⟨[], s, rfl, rfl, .refl h, hne⟩
  | cons b bs ih =>
    obtain ⟨u, hrun, hsent⟩ := h.drain_chunk_with_append hne [b] hroom
    obtain ⟨hpos, hlen⟩ := hsent.length_eq
    have hle := List.length_take_le' (chunkLength s) s.logBytes
    rw [List.length_singleton] at hlen
    have hne' : u.logBytes ≠ [] := List.ne_nil_of_length_pos (by omega)
    have hsize : u.size = s.size := congrArg Config.capacity hsent.cfg
    obtain ⟨chunks, t, hrest, hcount, hsent', hdata⟩ := ih hsent.atEmit hne' (by omega)
    exact ⟨_ :: chunks, t, (hrun _).trans hrest, congrArg (· + 1) hcount, hsent.trans hsent', hdata⟩

/-- Settles O23: chunk by chunk until the LOG is empty and the terminator is sent, or with an append for every chunk. -/
theorem drainStreamsWholeLog : Obligations.DrainStreamsWholeLog := by
  refine ⟨fun s hr hl hp hs => ?_, fun bs s hr hl hp hs hne hroom => ?_⟩
  · obtain ⟨chunks, t, hrun, hsent, hempty⟩ := AtEmit.drain_all ⟨hr, hl, hp, hs⟩
    have hat := hsent.atEmit
    obtain ⟨u, hu, hframe, hclear, -⟩ := drainTerminatorClearsOverflow .readlog t (.inl rfl) hat.ready hat.legal
      hat.phase (hat.legal.logBytes_eq_nil.mp hempty)
    have hbytes := hsent.bytes
    rw [hempty, List.append_nil, List.append_nil] at hbytes
    refine ⟨chunks, u, ?_, hbytes, hsent.lengths, ?_, ?_, ?_, hclear, ?_, ?_, ?_⟩
    · rw [List.replicate_succ']
      exact execAll_append_next hrun ((execAll_cons_next hu).trans rfl)
    all_goals rw [hframe]
    · exact congrArg (· ++ [0x00]) hsent.txq
    · exact hempty
    · exact hat.ready.1
    · exact hsent.engine
    · exact hsent.ind
  · obtain ⟨chunks, t, hrun, hcount, hsent, hdata⟩ := AtEmit.drain_with_appends bs ⟨hr, hl, hp, hs⟩ hne hroom
    exact ⟨chunks, t, hrun, hcount, hsent.bytes, hsent.txq, hsent.atEmit.phase, hdata, hsent.atEmit.ready.1⟩

end Sys2Proof.Machine
end

section
/-! The edge step by its branches (spec/42_protocol_engine.md R222 to R229): the next state each branch answers. -/

namespace Sys2Proof.Machine

/-! ### Sending (R222) -/

/-- The slots of the send that the frame registers hold (R130). -/
def State.sendSlots (s : State) : List Bool := txSlots s.cfg s.engine.houseReg s.engine.unitReg s.engine.cmdReg

theorem sendSlots_length (s : State) : s.sendSlots.length = 44 + s.cfg.txGapSlots := txSlots_length ..

/-- The engine after a transmitted slot. -/
def Engine.afterSlot (cfg : Config) (e : Engine) : Engine :=
  if e.txSlot.toNat = 44 + cfg.txGapSlots - 1 then { e with pending := false, txSlot := 0 }
  else { e with txSlot := e.txSlot + 1 }

theorem txStep_eq {s : State} {b : Bool} (hb : s.sendSlots[s.engine.txSlot.toNat]? = some b) :
    txStep s = setEngine (s.engine.afterSlot s.cfg) (emitSlot b s) := by
  have hbit : txBit s.cfg s.engine s.engine.txSlot.toNat = b := by
    rw [txBit, List.getD_eq_getElem?_getD, ← State.sendSlots, hb, Option.getD_some]
  rw [txStep, hbit, Engine.afterSlot, txLen]
  split <;> rfl

/-- Settles O24: the slot transmitted is the one `txSlot` names among the slots of the send. -/
theorem edgeTransmitsSlot : Obligations.EdgeTransmitsSlot := by
  intro rxLow s hr hp hlt
  have hb := List.getElem?_eq_getElem (l := s.sendSlots) (i := s.engine.txSlot.toNat) (by rwa [sendSlots_length])
  exact ⟨_, hb, by rw [exec_peEdge rxLow hr, edgeStep_tx rxLow hp, txStep_eq hb]; rfl⟩

/-! ### The quiet window and a start (R223, R224) -/

theorem startDetect_high (s : State) : startDetect false s = s := rfl

/-- Settles O25, branch by branch. -/
theorem edgeQuietOrStart : Obligations.EdgeQuietOrStart := by
  intro rxLow s hr hp
  refine ⟨fun hq => ?_, fun hq h0 => ⟨?_, ?_⟩⟩
  · rw [exec_peEdge rxLow hr, edgeStep_quiet rxLow hp hq]; rfl
  · rw [exec_peEdge false hr, edgeStep_start false hp hq h0, startDetect_high]
  · rw [exec_peEdge true hr, edgeStep_start true hp hq h0]; rfl

/-! ### Inside a frame (R225, R226) -/

/-- `mask` walks down from `acc[11]` at `bitCount = 1` to `acc[0]` at `bitCount = 12`. -/
theorem startMask_shiftRight : ∀ k : BitVec 4, 1 ≤ k.toNat → k.toNat ≤ 12 →
    startMask >>> (k.toNat - 1) = 1#16 <<< (12 - k.toNat) := by decide

/-- In a legal state the sample taken at `bitCount = k` lands in `acc[12 - k]` (R225). -/
theorem EngineInv.mask_eq {cfg : Config} {e : Engine} (h : EngineInv cfg e) (h1 : 1 ≤ e.bitCount.toNat)
    (h12 : e.bitCount.toNat ≤ 12) : e.mask = 1#16 <<< (12 - e.bitCount.toNat) := by
  have h0 : e.bitCount ≠ 0 := by rintro h0; simp [h0] at h1
  rw [h.mask_at, if_neg h0, startMask_shiftRight _ h1 h12]

/-- The 8-bit edge counter keeps the parity of the count when it wraps. -/
theorem edgeCount_succ_parity (v : BitVec 8) : (v + 1).toNat % 2 = (v.toNat + 1) % 2 := by bv_omega

/-- Settles O26: the branch by `bitCount` and the parity of the edge, the bit's place by the engine's invariant. -/
theorem edgeSamplesOrSkips : Obligations.EdgeSamplesOrSkips := by
  intro rxLow s hr hinv hp hq h1 h12
  have h0 : s.engine.bitCount ≠ 0 := by rintro h0; simp [h0] at h1
  have h13 : s.engine.bitCount ≠ 13 := by rintro h13; simp [h13] at h12
  rw [exec_peEdge rxLow hr, edgeStep_frame rxLow hp hq h0 h13, frameEdge, edgeCount_succ_parity]
  constructor
  · intro hsample
    rw [if_pos hsample, sampleStep, hinv.mask_eq h1 h12]; rfl
  · intro hk hodd
    rw [if_neg (by omega)]; rfl

/-! ### The completing edge (R227 to R229) -/

theorem accHouse_eq (acc : BitVec 16) : accHouse acc = BitVec.ofNat 4 (acc.toNat / 32) := by
  apply BitVec.eq_of_toNat_eq
  rw [accHouse, BitVec.extractLsb'_toNat, Nat.shiftRight_eq_div_pow, BitVec.toNat_ofNat]

theorem accKey_eq (acc : BitVec 16) : accKey acc = BitVec.ofNat 4 (acc.toNat / 2) := rfl

theorem accKey_setWidth (acc : BitVec 16) : (accKey acc).setWidth 8 = BitVec.ofNat 8 (acc.toNat / 2 % 16) := by
  apply BitVec.eq_of_toNat_eq
  rw [accKey_eq, BitVec.toNat_setWidth, BitVec.toNat_ofNat, BitVec.toNat_ofNat]

/-- Settles O27: the completing edge of a frame whose flag is clear. -/
theorem edgeCompletesUnitFrame : Obligations.EdgeCompletesUnitFrame := by
  intro rxLow s hr hp hq h13 hflag
  rw [exec_peEdge rxLow hr, edgeStep_complete rxLow hp hq h13, completeStep_unit hflag, accHouse_eq, accKey_eq]; rfl

/-- A record appended and new engine registers: the effect of one append. -/
theorem setEngine_logAppend_appended {s : State} (e : Engine) (record : List Byte) (hr : Ready s) (hl : FifoLegal s) :
    Appended record s (setEngine e (logAppend record s)) :=
  (logAppend_appended hr.size_le hl).congr rfl rfl rfl rfl rfl rfl

theorem setEngine_logAppend_frame (e : Engine) (record : List Byte) (s : State) :
    setEngine e (logAppend record s) =
      { s with fifo := (logAppend record s).fifo, status := (logAppend record s).status, engine := e } := by
  conv_lhs => rw [logAppend_frame]
  rfl

/-- Settles O28: the completing edge of a frame whose flag is set is one append. -/
theorem edgeCompletesCommandFrame : Obligations.EdgeCompletesCommandFrame := by
  intro rxLow s hr hl hp hq h13 hflag
  rw [exec_peEdge rxLow hr, edgeStep_complete rxLow hp hq h13, completeStep_command hflag, recvRecord,
    accKey_setWidth, accHouse_eq]
  exact ⟨_, rfl, setEngine_logAppend_appended _ _ hr hl, setEngine_logAppend_frame _ _ s⟩

end Sys2Proof.Machine
end

section
/-! Runs of edges: a whole send transmitted (spec/42_protocol_engine.md R221), and a frame or a send received
(R230, R234). -/

namespace Sys2Proof.Machine

/-! ### A send transmitted -/

/-- From any slot on, an edge for each slot that is left transmits those slots and ends the transmission. -/
theorem edgeSteps_sending (levels : List Bool) {s : State} (hp : s.engine.pending = true)
    (hlt : s.engine.txSlot.toNat < 44 + s.cfg.txGapSlots) (hgap : s.cfg.txGapSlots ≤ 200)
    (hlen : s.engine.txSlot.toNat + levels.length = 44 + s.cfg.txGapSlots) :
    edgeSteps levels s = { s with
      ports := { s.ports with lineTrace := s.ports.lineTrace ++ s.sendSlots.drop s.engine.txSlot.toNat }
      engine := { s.engine with pending := false, txSlot := 0 } } := by
  induction levels generalizing s with
  | nil => rw [List.length_nil] at hlen; omega
  | cons l ls ih =>
    rw [List.length_cons] at hlen
    have hin : s.engine.txSlot.toNat < s.sendSlots.length := by rwa [sendSlots_length]
    have hstep := (edgeStep_tx l hp).trans (txStep_eq (List.getElem?_eq_getElem hin))
    rw [edgeSteps_cons, hstep, Engine.afterSlot, List.drop_eq_getElem_cons hin]
    split
    · next hlast =>
      obtain rfl : ls = [] := List.eq_nil_of_length_eq_zero (by omega)
      rw [List.drop_eq_nil_of_le (by rw [sendSlots_length]; omega)]; rfl
    · next hmore =>
      have hsucc : (s.engine.txSlot + 1).toNat = s.engine.txSlot.toNat + 1 := by bv_omega
      rw [ih (by exact hp) (by simp only [setEngine_engine, hsucc, setEngine_cfg, emitSlot_cfg]; omega) (by exact hgap)
        (by simp only [setEngine_engine, hsucc, setEngine_cfg, emitSlot_cfg]; omega)]
      simp only [setEngine_engine, hsucc, setEngine_ports, emitSlot_ports, List.append_assoc, List.singleton_append]
      rfl

/-- Settles O29: the run from slot 0 on. -/
theorem sendTransmitsAllSlots : Obligations.SendTransmitsAllSlots := by
  intro levels s hr hp h0 hlen
  have hcfg := (Config.ok_iff _).mp hr.2
  have hslot : s.engine.txSlot.toNat = 0 := congrArg BitVec.toNat h0
  rw [execAll_edges levels hr, edgeSteps_sending levels hp (by omega) (by omega) (by omega), hslot,
    List.drop_zero, ← h0]
  rfl

/-! ### A frame received -/

@[simp] theorem setEngine_setEngine (e e' : Engine) (s : State) : setEngine e (setEngine e' s) = setEngine e s := rfl

/-- An append does not look at the engine. -/
theorem logAppend_setEngine (r : List Byte) (e : Engine) (s : State) :
    logAppend r (setEngine e s) = setEngine e (logAppend r s) := by
  by_cases hfit : r.length ≤ s.fifo.freeTotal s.size
  · rw [logAppend_fits hfit, logAppend_fits (s := setEngine e s) hfit]; rfl
  · rw [logAppend_overflows hfit, logAppend_overflows (s := setEngine e s) hfit]; rfl

/-- The engine once a frame's edges have been received, with the registers the frame leaves (R227). -/
def Engine.afterFrame (cfg : Config) (acc : BitVec 16) (hr ur cr : BitVec 4) (e : Engine) : Engine :=
  { e with houseReg := hr, unitReg := ur, cmdReg := cr, bitCount := 0, edgeCount := 0, acc := acc, mask := 0,
           rxQuiet := BitVec.ofNat 8 cfg.rxQuietEdges }

section
variable (h k : BitVec 4) {s : State} (hp : s.engine.pending = false) (hq : s.engine.rxQuiet = 0)
  (hb : s.engine.bitCount = 0)
include hp hq hb

/-- A unit frame received (R229, R230). -/
theorem edgeSteps_unitFrame : edgeSteps (frameSlots h k false) s =
    setEngine (s.engine.afterFrame s.cfg (frameAcc h k false) h k s.engine.cmdReg) s := by
  obtain ⟨hhouse, hkey, hflag⟩ := frameAcc_fields h k false
  rw [edgeSteps_frameSlots h k false hp hq hb, completeStep_unit (by exact hflag)]
  simp only [setEngine_engine, hhouse, hkey]; rfl

/-- A command frame received (R228, R230). -/
theorem edgeSteps_commandFrame : edgeSteps (frameSlots h k true) s =
    setEngine (s.engine.afterFrame s.cfg (frameAcc h k true) 0 0 0)
      (logAppend (recvRecord k h s.engine.unitReg) s) := by
  obtain ⟨hhouse, hkey, hflag⟩ := frameAcc_fields h k true
  rw [edgeSteps_frameSlots h k true hp hq hb, completeStep_command (by exact hflag), logAppend_setEngine]
  simp only [setEngine_engine, hhouse, hkey]; rfl

end

theorem rxQuietEdges_toNat {s : State} (hr : Ready s) :
    (BitVec.ofNat 8 s.cfg.rxQuietEdges).toNat = s.cfg.rxQuietEdges := by
  have hcfg := (Config.ok_iff _).mp hr.2
  rw [BitVec.toNat_ofNat, Nat.mod_eq_of_lt (by omega)]

/-- Settles O30, for each of the two kinds of frame. -/
theorem receivedFrameIsDecoded : Obligations.ReceivedFrameIsDecoded := by
  intro h k f s hr hl hp hq hb
  refine ⟨_, execAll_edges _ hr, ?_⟩
  cases f with
  | false =>
    rw [edgeSteps_unitFrame h k hp hq hb]
    exact ⟨rfl, hp, rfl, rfl, rfl, rxQuietEdges_toNat hr, fun _ => ⟨rfl, rfl, rfl, rfl, rfl⟩, nofun⟩
  | true =>
    rw [edgeSteps_commandFrame h k hp hq hb]
    exact ⟨setEngine_logAppend_frame _ _ s, hp, rfl, rfl, rfl, rxQuietEdges_toNat hr, nofun,
      fun _ => ⟨setEngine_logAppend_appended _ _ hr hl, rfl, rfl, rfl⟩⟩

/-! ### A send received -/

/-- The gap outlasts the quiet window and leaves the receiver at rest (R223, R224, R234). -/
theorem edgeSteps_gap (n : Nat) {s : State} (hp : s.engine.pending = false) (hb : s.engine.bitCount = 0)
    (hn : s.engine.rxQuiet.toNat ≤ n) :
    edgeSteps (List.replicate n false) s = setEngine { s.engine with rxQuiet := 0 } s := by
  induction n generalizing s with
  | zero =>
    have hq : s.engine.rxQuiet = 0 := BitVec.eq_of_toNat_eq (by simpa using hn)
    rw [← hq]; rfl
  | succ n ih =>
    rw [List.replicate_succ, edgeSteps_cons]
    by_cases hq : s.engine.rxQuiet = 0
    · rw [edgeStep_start false hp hq hb, startDetect_high, ih hp hb (by simp [hq])]
    · rw [edgeStep_quiet false hp hq, quietStep,
        ih (by exact hp) (by exact hb) (by simp only [setEngine_engine]; bv_omega)]
      rfl

/-- A send received: the unit frame leaves the unit pending, the gap outlasts the quiet window, and the command frame
appends the record. -/
theorem edgeSteps_txSlots (h u c : BitVec 4) {s : State} (hr : Ready s) (hp : s.engine.pending = false)
    (hq : s.engine.rxQuiet = 0) (hb : s.engine.bitCount = 0) : edgeSteps (txSlots s.cfg h u c) s =
      setEngine (s.engine.afterFrame s.cfg (frameAcc h c true) 0 0 0) (logAppend (recvRecord c h u) s) := by
  obtain ⟨-, -, hquiet, -⟩ := (Config.ok_iff _).mp hr.2
  rw [txSlots, edgeSteps_append, edgeSteps_append, edgeSteps_unitFrame h u hp hq hb,
    edgeSteps_gap _ (by exact hp) rfl ((rxQuietEdges_toNat hr).trans_le hquiet),
    edgeSteps_commandFrame h c (by exact hp) rfl rfl]
  simp only [setEngine_setEngine, setEngine_engine, setEngine_cfg, logAppend_setEngine, Engine.afterFrame]

/-- Settles O31: the record that the command frame appends is the only change beside the engine's. -/
theorem transmissionIsReceived : Obligations.TransmissionIsReceived := fun h u c s hr hl hp hq hb =>
  ⟨_, (execAll_edges _ hr).trans (congrArg _ (edgeSteps_txSlots h u c hr hp hq hb)),
    setEngine_logAppend_appended _ _ hr hl, setEngine_logAppend_frame _ _ s⟩

end Sys2Proof.Machine
end

section
/-! The send operation (spec/42_protocol_engine.md R244 to R248, spec/44_commands.md R305 to R308): MAIN's step in each
of its three phases, and the hold while a transmission is in progress. -/

namespace Sys2Proof.Machine

/-! ### One step of the send -/

/-- In the phases of the send PE_SEND and SENDCODE take the same step (R303; log entry 15). -/
theorem exec_send {i : Instr} {c h u : Byte} {s : State} (hi : i = .peSend c h u ∨ i = .sendcode c h u) (hr : Ready s)
    (hread : argRead s.seq.phase = none) (hlog : s.seq.phase ≠ .scLog) :
    exec i s = .next (if sendEnabled s then sendStep (latchArgs c h u s) else s) := by
  rcases hi with rfl | rfl
  · exact exec_peSend c h u hr
  · rw [exec_sendcode c h u hr, sendcodeEnabled_of_send hread hlog, sendcodeStep_eq]
    simp [hread, hlog]

theorem sendEnabled_waitIdle {s : State} (hp : s.seq.phase = .scWaitIdle) : sendEnabled s = s.engine.idle := by
  simp [sendEnabled, hp]

theorem sendEnabled_start {s : State} (hp : s.seq.phase = .scStart) : sendEnabled s = true := by
  simp [sendEnabled, hp]

theorem sendEnabled_waitDone {s : State} (hp : s.seq.phase = .scWaitDone) : sendEnabled s = !s.engine.pending := by
  simp [sendEnabled, hp]

theorem sendStep_waitIdle {s : State} (hp : s.seq.phase = .scWaitIdle) : sendStep s = setPhase .scStart s := by
  simp [sendStep, hp]

theorem sendStep_start {s : State} (hp : s.seq.phase = .scStart) : sendStep s = sendStart s := by
  simp [sendStep, hp]

theorem sendStep_waitDone {s : State} (hp : s.seq.phase = .scWaitDone) : sendStep s = sendDone s := by
  simp [sendStep, hp]

theorem idle_iff (e : Engine) : e.idle = true ↔ e.pending = false ∧ e.bitCount = 0 := by
  simp [Engine.idle]

/-- Settles O32: `Idle` alone lifts the hold. -/
theorem sendWaitsForIdle : Obligations.SendWaitsForIdle := by
  intro i c h u s hi hr hp
  rw [exec_send hi hr (by rw [hp]; rfl) (by rw [hp]; decide), sendEnabled_waitIdle hp]
  refine ⟨fun hpend hb => ?_, fun hbusy => ?_⟩
  · rw [if_pos ((idle_iff _).mpr ⟨hpend, hb⟩), sendStep_waitIdle (s := latchArgs c h u s) hp]; rfl
  · rw [if_neg]
    rw [idle_iff]
    rintro ⟨hpend, hb⟩
    exact hbusy.elim (by simp [hpend]) (· hb)

/-- Settles O35: `pending = 0` alone lifts the hold. -/
theorem sendDoneReplies : Obligations.SendDoneReplies := by
  intro i c h u s hi hr hp
  rw [exec_send hi hr (by rw [hp]; rfl) (by rw [hp]; decide), sendEnabled_waitDone hp]
  refine ⟨fun hpend => ?_, fun hpend => ?_⟩
  · rw [if_pos (by rw [hpend]; rfl), sendStep_waitDone (s := latchArgs c h u s) hp]; rfl
  · rw [if_neg (by simp [hpend])]

/-! ### The send-start step (R245) -/

theorem exec_sendStart {i : Instr} {c h u : Byte} {s : State} (hi : i = .peSend c h u ∨ i = .sendcode c h u)
    (hr : Ready s) (hp : s.seq.phase = .scStart) : exec i s = .next (sendStart (latchArgs c h u s)) := by
  rw [exec_send hi hr (by rw [hp]; rfl) (by rw [hp]; decide), if_pos (sendEnabled_start hp),
    sendStep_start (s := latchArgs c h u s) hp]

/-- A command code of 16 or more is accepted where it is truncated (R113). -/
theorem commandAccepted_iff (cfg : Config) (c : Byte) :
    commandAccepted cfg c = true ↔ c.toNat ≤ 15 ∨ cfg.cmdHighPolicy = .truncate := by
  simp [commandAccepted]

/-- A valid send has the fields of its two table entries and the low bits of its command (R113, R133). -/
theorem sendFields_eq_some {cfg : Config} {c : Byte} (hi ui : BitVec 4)
    (hc : c.toNat ≤ 15 ∨ cfg.cmdHighPolicy = .truncate) :
    sendFields cfg c (houseLetter hi) (unitNumber ui) = some (hi, ui, BitVec.ofNat 4 c.toNat) := by
  have hhouse : houseIndex (houseLetter hi) = some hi := (reverseLookup_eq_some_iff houseLetter_injective).mpr rfl
  have hunit : unitIndex (unitNumber ui) = some ui := (reverseLookup_eq_some_iff unitNumber_injective).mpr rfl
  simp only [sendFields, hhouse, hunit]
  exact if_pos ((commandAccepted_iff cfg c).mpr hc)

/-- The three ways a send can fail (R113, R245). -/
theorem sendFields_eq_none {cfg : Config} {c h u : Byte}
    (hbad : (∀ hi, houseLetter hi ≠ h) ∨ (∀ ui, unitNumber ui ≠ u) ∨ (15 < c.toNat ∧ cfg.cmdHighPolicy = .reject)) :
    sendFields cfg c h u = none := by
  rcases hbad with hhouse | hunit | ⟨hhigh, hpol⟩
  · have hnone : houseIndex h = none := reverseLookup_eq_none_iff.mpr hhouse
    simp [sendFields, hnone]
  · have hnone : unitIndex u = none := reverseLookup_eq_none_iff.mpr hunit
    simp [sendFields, hnone]
  · have hrej : ¬ commandAccepted cfg c = true := by
      rw [commandAccepted_iff, hpol]; simp only [reduceCtorEq, or_false]; omega
    simp only [sendFields]
    split
    · exact if_neg hrej
    · rfl

/-- Settles O33: the send has fields, and they are loaded. -/
theorem sendStartLoadsFrame : Obligations.SendStartLoadsFrame := by
  rintro i c _ _ hi ui s hinstr hr hp rfl rfl hc
  rw [exec_sendStart hinstr hr hp, sendStart]
  simp only [latchArgs_cfg, latchArgs_seq, sendFields_eq_some hi ui hc]; rfl

/-- Settles O34: the send has no fields. -/
theorem sendStartFailureReplies : Obligations.SendStartFailureReplies := by
  intro i c h u s hinstr hr hp hbad
  rw [exec_sendStart hinstr hr hp, sendStart]
  simp only [latchArgs_cfg, latchArgs_seq, sendFields_eq_none hbad]; rfl

/-! ### A transmission in progress (R247, R386) -/

/-- MAIN waits for a transmission to end. -/
def AwaitsEnd (s : State) : Prop := s.seq.phase = .scWaitDone ∧ s.engine.pending = true

/-- Nothing has moved the send on: MAIN's phase, the engine, `txq` and the line are as they were. -/
def SendUnmoved (s t : State) : Prop :=
  t.seq.phase = s.seq.phase ∧ t.engine = s.engine ∧ t.ports.txq = s.ports.txq ∧ t.ports.lineTrace = s.ports.lineTrace

theorem SendUnmoved.trans {s t u : State} (h : SendUnmoved s t) (h' : SendUnmoved t u) : SendUnmoved s u := by
  obtain ⟨hp, he, ht, hl⟩ := h
  obtain ⟨hp', he', ht', hl'⟩ := h'
  exact ⟨hp'.trans hp, he'.trans he, ht'.trans ht, hl'.trans hl⟩

theorem AwaitsEnd.of_unmoved {s t : State} (h : AwaitsEnd s) (hu : SendUnmoved s t) : AwaitsEnd t := by
  obtain ⟨hp, he, -, -⟩ := hu
  exact ⟨hp.trans h.1, (congrArg Engine.pending he).trans h.2⟩

/-- No step of MAIN is enabled (R247), and of the other agents' steps only EDGE, RESET and a raised fault touch the
send. -/
theorem AwaitsEnd.effect {i : Instr} {s : State} (h : AwaitsEnd s) (he : ∀ l, i ≠ .peEdge l) (hr : i ≠ .reset)
    (hf : (effect i s).faults = []) : SendUnmoved s (effect i s) := by
  obtain ⟨hp, hsend⟩ := h
  have hold : SendUnmoved s s := ⟨rfl, rfl, rfl, rfl⟩
  have hwait : sendEnabled s = false := by rw [sendEnabled_waitDone hp, hsend]; rfl
  cases i with
  | ping | uptime | status | invalid _ | mainPoll => simpa [Machine.effect, hp] using hold
  | readlog | logDrain => simpa [Machine.effect, drainEnabled, hp] using hold
  | peSend c a u => simpa [Machine.effect, hwait] using hold
  | sendcode c a u =>
    have hcode : sendcodeEnabled s = false :=
      (sendcodeEnabled_of_send (by rw [hp]; rfl) (by rw [hp]; decide)).trans hwait
    simpa [Machine.effect, hcode] using hold
  | reset => exact absurd rfl hr
  | peEdge l => exact absurd rfl (he l)
  | fifoReadDrain m cs =>
    rw [Machine.effect] at hf ⊢
    split at hf
    · exact absurd hf (addFault_ne_nil _ _)
    · rw [if_neg ‹_›]; exact ⟨rfl, rfl, rfl, rfl⟩
  | logAppend d => simp [Machine.effect, SendUnmoved]
  | tmrTick => obtain ⟨_, _, _, _, e⟩ := tickStep_eq s; rw [Machine.effect, e]; exact ⟨rfl, rfl, rfl, rfl⟩
  | fifoInit _ | fifoInsert _ | fifoAvail | fifoFree | fifoRead _ | fifoReset | indPulse _ | hostByte _ =>
    exact ⟨rfl, rfl, rfl, rfl⟩

/-- A run that ends without a fault began without one. -/
theorem execAll_next_noFault {is : List Instr} {s t : State} (h : execAll is s = .next t) (hf : t.faults = []) :
    s.faults = [] := by
  cases is with
  | nil => cases h; exact hf
  | cons i is =>
    rw [execAll] at h
    split at h
    · exact exec_next_noFault ‹_›
    · cases h
    · cases h

/-- Operations other than PE_EDGE and RESET do not move the send on, however many there are. -/
theorem AwaitsEnd.execAll {is : List Instr} {s t : State} (h : AwaitsEnd s)
    (his : ∀ i ∈ is, i ≠ .reset ∧ ∀ l, i ≠ .peEdge l) (hrun : execAll is s = .next t) (hf : t.faults = []) :
    SendUnmoved s t := by
  induction is generalizing s with
  | nil => cases hrun; exact ⟨rfl, rfl, rfl, rfl⟩
  | cons i is ih =>
    obtain ⟨⟨hreset, hedge⟩, hrest⟩ := List.forall_mem_cons.mp his
    rw [Machine.execAll] at hrun
    split at hrun
    · next u hu =>
      obtain rfl := exec_next hu
      have hstep := h.effect hedge hreset (execAll_next_noFault hrun hf)
      exact hstep.trans (ih (h.of_unmoved hstep) hrest hrun)
    · cases hrun
    · cases hrun

/-- Settles O59: MAIN is still in the hold after every such run. -/
theorem sendHangsWithoutEdges : Obligations.SendHangsWithoutEdges := by
  intro is s t hp hsend his hrun hf
  obtain ⟨hphase, hrest⟩ := AwaitsEnd.execAll ⟨hp, hsend⟩ his hrun hf
  exact ⟨hphase.trans hp, hrest⟩

end Sys2Proof.Machine
end

section
/-! The status indicator (spec/43_status_indicator.md R270 to R273): what a request leaves, and the pulse train of a run of
ticks. -/

namespace Sys2Proof.Machine

/-- Settles O36: the bound on the duration is the width of `remaining`. -/
theorem pulseRequestOverwrites : Obligations.PulseRequestOverwrites := by
  intro d s hr
  rw [exec_indPulse d hr]
  refine ⟨fun hd => ⟨BitVec.ofNat 16 d, ?_, if_neg (by omega)⟩, fun hd => if_pos hd⟩
  exact (BitVec.toNat_ofNat ..).trans (Nat.mod_eq_of_lt (by omega))

/-- Settles O37: the step is `tickStep`. -/
theorem tickCountsAndPulses : Obligations.TickCountsAndPulses := by
  intro s hr
  obtain ⟨v, r, huptime, hremaining, htick⟩ := tickStep_eq s
  exact ⟨v, r, huptime, hremaining, (exec_tmrTick hr).trans (congrArg _ htick)⟩

/-! ### Runs of ticks -/

/-- The values of `uptime` that pulse among the first `n` ticks, when `remaining = d` and `uptime = u` before them (R273). -/
def pulseTimes (u d n : Nat) : List Nat :=
  ((List.range n).filter fun j => j + 1 ≤ d ∧ (u + (j + 1)) % 8 = 0).map fun j => (u + (j + 1)) % 2 ^ 32

/-- The last of `n + 1` ticks pulses when ticks are still requested and its `uptime`, wrapped or not, is a multiple of 8. -/
theorem pulseTimes_succ (u d n : Nat) : pulseTimes u d (n + 1) = pulseTimes u d n ++
    if 0 < d - n ∧ (u + (n + 1)) % 2 ^ 32 % 8 = 0 then [(u + (n + 1)) % 2 ^ 32] else [] := by
  have hmod : (u + (n + 1)) % 2 ^ 32 % 8 = (u + (n + 1)) % 8 := Nat.mod_mod_of_dvd _ (by decide)
  rw [pulseTimes, List.range_succ, List.filter_append, List.map_append, ← pulseTimes, hmod]
  by_cases h : 0 < d - n ∧ (u + (n + 1)) % 8 = 0
  · have hlast : n + 1 ≤ d ∧ (u + (n + 1)) % 8 = 0 := ⟨by omega, h.2⟩
    rw [if_pos h, List.filter_singleton, decide_eq_true hlast]; rfl
  · have hlast : ¬ (n + 1 ≤ d ∧ (u + (n + 1)) % 8 = 0) := fun e => h ⟨by omega, e.2⟩
    rw [if_neg h, List.filter_singleton, decide_eq_false hlast]; rfl

/-- The state `t` is `n` ticks after `s`, as far as the indicator goes. -/
structure Ticked (n : Nat) (s t : State) : Prop where
  remaining : t.ind.remaining.toNat = s.ind.remaining.toNat - n
  uptime : t.ind.uptime.toNat = (s.ind.uptime.toNat + n) % 2 ^ 32
  pulses : t.ports.indTrace.map BitVec.toNat =
    s.ports.indTrace.map BitVec.toNat ++ pulseTimes s.ind.uptime.toNat s.ind.remaining.toNat n

theorem Ticked.refl (s : State) : Ticked 0 s s :=
  ⟨rfl, (Nat.mod_eq_of_lt s.ind.uptime.isLt).symm, (List.append_nil _).symm⟩

/-- One more tick. -/
theorem Ticked.tickStep {n : Nat} {s t : State} (h : Ticked n s t) : Ticked (n + 1) s (tickStep t) := by
  obtain ⟨v, r, hv, hrem, e⟩ := tickStep_eq t
  have huptime : v.toNat = (s.ind.uptime.toNat + (n + 1)) % 2 ^ 32 := by
    rw [hv, h.uptime, Nat.mod_add_mod, Nat.add_assoc]
  rw [e]
  refine ⟨?_, huptime, ?_⟩
  · rw [hrem, h.remaining]; omega
  · rw [pulseTimes_succ, ← List.append_assoc, ← h.pulses, ← h.remaining, ← huptime]
    by_cases hp : 0 < t.ind.remaining.toNat ∧ v.toNat % 8 = 0
    · rw [if_pos hp]; simp [hp]
    · rw [if_neg hp]; simp [hp]

theorem tickStep_ready {s : State} (h : Ready s) : Ready (tickStep s) := by
  obtain ⟨_, _, _, _, e⟩ := tickStep_eq s
  exact e ▸ h

/-- A run of ticks answers next. -/
theorem execAll_ticks (n : Nat) {s : State} (h : Ready s) :
    ∃ t, execAll (List.replicate n .tmrTick) s = .next t ∧ Ready t ∧ Ticked n s t := by
  induction n with
  | zero => exact ⟨s, rfl, h, .refl s⟩
  | succ n ih =>
    obtain ⟨t, hrun, hready, hticked⟩ := ih
    refine ⟨tickStep t, ?_, tickStep_ready hready, hticked.tickStep⟩
    rw [List.replicate_succ']
    exact execAll_append_next hrun (execAll_cons_next (exec_tmrTick hready))

/-- Settles O38: the request sets `remaining` to `d`, and the run of ticks starts from there. -/
theorem pulseTrainOfRequest : Obligations.PulseTrainOfRequest := by
  intro d n s hr hd
  obtain ⟨r, rfl, hreq⟩ := (pulseRequestOverwrites d s hr).1 hd
  obtain ⟨t, hrun, -, hticked⟩ := execAll_ticks n (s := { s with ind := { s.ind with remaining := r } }) hr
  exact ⟨t, (execAll_cons_next hreq).trans hrun, hticked.remaining, hticked.uptime, hticked.pulses⟩

end Sys2Proof.Machine
end

section
/-! The host command interface (spec/44_commands.md R290 to R302): the byte from the host, MAIN_POLL, the one-step
commands, SENDCODE's reads and its record, and MAIN's holds outside their phases. -/

namespace Sys2Proof.Machine

/-! ### Reads from the host queue (R290, R292, R299 to R301) -/

/-- Settles O39: the step is `arrive`. -/
theorem hostByteArrives : Obligations.HostByteArrives := fun b _ hr => exec_hostByte b hr

/-- A read takes the oldest byte of `rxq` (R12, R58). -/
theorem receiveSeq_cons {s : State} {b : Byte} {rest : List Byte} (q : Byte → Sequencer → Sequencer)
    (hq : s.ports.rxq = b :: rest) :
    receiveSeq q s = { s with ports := { s.ports with rxq := rest }, seq := q b s.seq } := by
  simp [receiveSeq, receive, hq]

/-- MAIN_POLL holds while no host byte has arrived (R292). -/
theorem exec_mainPoll_empty {s : State} (hr : Ready s) (hq : s.ports.rxq = []) : exec .mainPoll s = .next s := by
  rw [exec_mainPoll hr, if_neg (by simp [hasPendingData, hq])]

/-- `Decode(b)` as the chain of R295, from the command table. -/
theorem commandPhase_eq (b : Byte) : commandPhase b =
    if b = 0x01 then .ping else if b = 0x02 then .uptime else if b = 0x03 then .status
    else if b = 0x04 then .rlEmit else if b = 0x05 then .scArg1 else .invalid := by
  obtain ⟨hping, huptime, hstatus, hreadlog, hsendcode, hinvalid⟩ := commandByteTable b []
  split_ifs with h1 h2 h3 h4 h5
  · exact (hping h1).2
  · exact (huptime h2).2
  · exact (hstatus h3).2
  · exact (hreadlog h4).2
  · exact (hsendcode h5).1
  · exact (hinvalid h1 h2 h3 h4 h5).2

/-- Settles O40: the step is the read `pollRead`, or a hold. -/
theorem mainPollReadsCommand : Obligations.MainPollReadsCommand := by
  intro s hr hp
  refine ⟨fun b rest hq => ?_, exec_mainPoll_empty hr⟩
  rw [exec_mainPoll hr, if_pos (by simp [hp, hasPendingData, hq]), pollStep_eq, receiveSeq_cons _ hq, pollRead,
    commandPhase_eq]

/-- The parameter reads wait for a host byte. -/
theorem sendcodeEnabled_of_read {s : State} (h : (argRead s.seq.phase).isSome) :
    sendcodeEnabled s = hasPendingData s := by
  cases hp : s.seq.phase <;> simp_all [sendcodeEnabled, argRead]

/-- With a host byte there, SENDCODE takes the read its phase gives, on the latched registers. -/
theorem exec_sendcode_read {s : State} {q : Byte → Sequencer → Sequencer} {b : Byte} {rest : List Byte} (c h u : Byte)
    (hr : Ready s) (hq : s.ports.rxq = b :: rest) (hread : argRead s.seq.phase = some q) :
    exec (.sendcode c h u) s = .next { s with
      ports := { s.ports with rxq := rest }, seq := q b { s.seq with argCmd := c, argHouse := h, argUnit := u } } := by
  have hen : sendcodeEnabled s = true := by
    rw [sendcodeEnabled_of_read (by simp [hread])]; simp [hasPendingData, hq]
  have hstep : sendcodeStep (latchArgs c h u s) = receiveSeq q (latchArgs c h u s) := by
    rw [sendcodeStep_eq]; simp [hread]
  rw [exec_sendcode c h u hr, if_pos hen, hstep, receiveSeq_cons (s := latchArgs c h u s) q hq]; rfl

/-- SENDCODE holds at a parameter read while no host byte has arrived. -/
theorem exec_sendcode_read_empty {s : State} (c h u : Byte) (hr : Ready s) (hq : s.ports.rxq = [])
    (hread : (argRead s.seq.phase).isSome) : exec (.sendcode c h u) s = .next s := by
  rw [exec_sendcode c h u hr, if_neg (by simp [sendcodeEnabled_of_read hread, hasPendingData, hq])]

/-- Settles O45: each phase of a read names its register, and the three hold alike. -/
theorem sendcodeReadsParameters : Obligations.SendcodeReadsParameters := by
  intro c h u s hr
  refine ⟨fun b rest hq => ⟨fun hp => ?_, fun hp => ?_, fun hp => ?_⟩, fun hq hp => ?_⟩
  · exact exec_sendcode_read c h u hr hq (congrArg argRead hp)
  · exact exec_sendcode_read c h u hr hq (congrArg argRead hp)
  · exact exec_sendcode_read c h u hr hq (congrArg argRead hp)
  · refine exec_sendcode_read_empty c h u hr hq ?_
    rcases hp with hp | hp | hp <;> rw [hp] <;> rfl

/-! ### The commands of one step (R293 to R298) and SC_LOG (R302) -/

section
variable {record : List Byte} {s t : State}

/-- What an append did is read past the reply, MAIN's registers and the next phase, which leave the LOG. -/
theorem Appended.transmit (bs : List Byte) (h : Appended record s t) : Appended record s (transmit bs t) :=
  h.congr rfl rfl rfl rfl rfl rfl

theorem Appended.setPhase (p : Phase) (h : Appended record s t) : Appended record s (setPhase p t) :=
  h.congr rfl rfl rfl rfl rfl rfl

theorem Appended.of_transmit (bs : List Byte) (h : Appended record (Machine.transmit bs s) t) : Appended record s t :=
  h.congr rfl rfl rfl rfl rfl rfl

theorem Appended.of_seq (r : Sequencer) (h : Appended record { s with seq := r } t) : Appended record s t :=
  h.congr rfl rfl rfl rfl rfl rfl

theorem pingStep_appended (hr : Ready s) (hl : FifoLegal s) : Appended pingRecord s (pingStep s) :=
  .setPhase .poll (.transmit pongBytes (logAppend_appended hr.size_le hl))

theorem uptimeStep_appended (hr : Ready s) (hl : FifoLegal s) : Appended uptimeRecord s (uptimeStep s) :=
  .setPhase .poll (.transmit (uptimeBytes s.ind.uptime) (logAppend_appended hr.size_le hl))

/-- INVALID appends after its reply (R335). -/
theorem invalidStep_appended (hr : Ready s) (hl : FifoLegal s) :
    Appended (invalidRecord s.seq.cmdByte) s (invalidStep s) :=
  .setPhase .poll (.of_transmit [0xFF] (logAppend_appended hr.size_le hl))

theorem sendLogStep_appended (hr : Ready s) (hl : FifoLegal s) :
    Appended (sendRecord s.seq.argCmd s.seq.argHouse s.seq.argUnit) s (sendLogStep s) :=
  .setPhase .scWaitIdle (logAppend_appended hr.size_le hl)

end

/-- Settles O41: the step is `pingStep`, an append with a reply. -/
theorem pingReplies : Obligations.PingReplies := by
  intro s hr hl hp
  refine ⟨pingStep s, ?_, pingStep_appended hr hl, pingStep_keeps s, ?_, ?_⟩
  · rw [exec_ping hr, if_pos (by simp [hp])]
  · simp [pingStep]
  · simp [pingStep, pongBytes]

/-- The Uptime reply is `uptime` in base 256, least significant digit first (R84). -/
theorem uptimeBytes_sum (v : BitVec 32) :
    (v.extractLsb' 0 8).toNat + 256 * (v.extractLsb' 8 8).toNat + 65536 * (v.extractLsb' 16 8).toNat +
      16777216 * (v.extractLsb' 24 8).toNat = v.toNat := by
  have hv := v.isLt
  simp only [BitVec.extractLsb'_toNat, Nat.shiftRight_eq_div_pow]
  omega

/-- Settles O42: the step is `uptimeStep`, an append with a reply. -/
theorem uptimeReplies : Obligations.UptimeReplies := by
  intro s hr hl hp
  refine ⟨uptimeStep s, _, _, _, _, ?_, uptimeStep_appended hr hl, uptimeStep_keeps s,
    uptimeBytes_sum s.ind.uptime, ?_, ?_⟩
  · rw [exec_uptime hr, if_pos (by simp [hp])]
  · simp [uptimeStep]
  · simp [uptimeStep, uptimeBytes]

/-- With the reserved bits clear, only `LOG_OVERFLOW` can be set (R39 to R41). -/
theorem status_of_reserved : ∀ v : BitVec 8, v &&& 0xFE = 0 → v = 0x00 ∨ v = 0x01 := by decide

/-- Settles O43: the step is `statusStep`, and the invariant clears the reserved bits. -/
theorem statusReplies : Obligations.StatusReplies := by
  intro s hr hp
  refine ⟨?_, fun hinv => status_of_reserved s.status hinv.status_reserved⟩
  rw [exec_status hr, if_pos (by simp [hp])]; rfl

/-- In its phase INVALID replies and appends with the operand latched (R298; log entry 5). -/
theorem exec_invalid_enabled {s : State} (b : Byte) (hr : Ready s) (hp : s.seq.phase = .invalid) :
    exec (.invalid b) s = .next (invalidStep { s with seq := { s.seq with cmdByte := b } }) := by
  rw [exec_invalid b hr, if_pos (by simp [hp])]

/-- Settles O44: the step is `invalidStep`, a reply with an append. -/
theorem invalidReplies : Obligations.InvalidReplies := by
  intro b s hr hl hp
  refine ⟨_, exec_invalid_enabled b hr hp,
    .of_seq { s.seq with cmdByte := b } (invalidStep_appended hr hl), invalidStep_keeps _, ?_, ?_⟩
  · simp [invalidStep]
  · simp [invalidStep]

/-- SC_LOG waits for nothing (R302). -/
theorem exec_sendcode_log {s : State} (c h u : Byte) (hr : Ready s) (hp : s.seq.phase = .scLog) :
    exec (.sendcode c h u) s = .next (sendLogStep (latchArgs c h u s)) := by
  rw [exec_sendcode c h u hr, if_pos (by simp [sendcodeEnabled, hp]), sendcodeStep_eq]
  simp [hp, argRead]

/-- Settles O46: the step is `sendLogStep` with the operands latched, and it validates none of them. -/
theorem sendcodeLogsRequest : Obligations.SendcodeLogsRequest := by
  intro c h u s hr hl hp
  refine ⟨_, exec_sendcode_log c h u hr hp,
    .of_seq { s.seq with argCmd := c, argHouse := h, argUnit := u } (sendLogStep_appended hr hl), ?_, ?_, ?_⟩
  · simp [KeepsEngineAndInd, sendLogStep]
  · simp [sendLogStep]
  · simp [sendLogStep]

/-! ### MAIN outside the phases of an operation (R291, R375) -/

/-- The send has steps in its three phases only. -/
theorem sendEnabled_phase {s : State} (h : sendEnabled s = true) :
    s.seq.phase ∈ [.scWaitIdle, .scStart, .scWaitDone] := by
  cases hp : s.seq.phase <;> simp_all [sendEnabled]

/-- SENDCODE has steps in its reads, in SC_LOG and in the phases of the send only. -/
theorem sendcodeEnabled_phase {s : State} (h : sendcodeEnabled s = true) :
    s.seq.phase ∈ [.scArg1, .scArg2, .scArg3, .scLog, .scWaitIdle, .scStart, .scWaitDone] := by
  cases hp : s.seq.phase <;> simp_all [sendcodeEnabled]

/-- The end of a run leaves MAIN a poll of an empty queue. -/
theorem exec_mainInstr_of_runEnded {s : State} (hr : Ready s) (h : RunEnded s) :
    exec (mainInstr s) s = .next s := by
  obtain ⟨-, hp, hq, -⟩ := h
  have hinstr : mainInstr s = .mainPoll := by simp [mainInstr, hp]
  rw [hinstr, exec_mainPoll_empty hr hq]

/-- Settles O60: operation by operation, the phase is what enables MAIN. -/
theorem mainStepsOnlyInTheirPhase : Obligations.MainStepsOnlyInTheirPhase := by
  refine ⟨fun i s hr h => ?_, fun s hr hend => exec_mainInstr_of_runEnded hr hend⟩
  rcases h with ⟨rfl, hp⟩ | ⟨rfl, hp⟩ | ⟨rfl, hp⟩ | ⟨rfl, hp⟩ | ⟨⟨b, rfl⟩, hp⟩ | ⟨hi, hemit, hadvance⟩ |
    ⟨⟨c, a, u, rfl⟩, hp⟩ | ⟨⟨c, a, u, rfl⟩, hp⟩
  · rw [exec_mainPoll hr, if_neg (by simp [hp])]
  · rw [exec_ping hr, if_neg (by simp [hp])]
  · rw [exec_uptime hr, if_neg (by simp [hp])]
  · rw [exec_status hr, if_neg (by simp [hp])]
  · rw [exec_invalid b hr, if_neg (by simp [hp])]
  · rw [exec_drain hi hr, if_neg (by simp [drainEnabled, hemit, hadvance])]
  · rw [exec_peSend c a u hr, if_neg (mt sendEnabled_phase hp)]
  · rw [exec_sendcode c a u hr, if_neg (mt sendcodeEnabled_phase hp)]

end Sys2Proof.Machine
end

section
/-! Faults, refusals and interrupts (spec/60_exceptions.md R333, R334, R343, R344): each operation answers through the one
guard of `exec_eq`, and the two interrupt handlers touch different parts of the state. -/

namespace Sys2Proof.Machine

/-! ### After a fault (R334) -/

theorem exec_of_faulted (i : Instr) {s : State} (h : s.faults ≠ []) : exec i s = .fault .noStepAfterFault := by
  rw [exec_eq, guarded_of_faulted _ h]

/-- Settles O52: `step` tests the faults itself, and every operation's guard does. -/
theorem noStepAfterFault : Obligations.NoStepAfterFault :=
  fun _ h => ⟨if_pos h, fun i => exec_of_faulted i h⟩

/-! ### What is refused (R9, R193, R333) -/

/-- Either bound on `N` contains the FIFO's. -/
theorem fifoOk_of_runsIn {i : Instr} {cfg : Config} (h : runsIn i cfg = true) : Config.fifoOk cfg = true := by
  rw [runsIn] at h
  split at h
  · exact h
  · exact (Bool.and_eq_true_iff.mp h).2

theorem ok_of_runsIn {i : Instr} {cfg : Config} (hi : fifoOnly i = false) (h : runsIn i cfg = true) :
    Config.ok cfg = true := by
  simpa [runsIn, hi] using h

theorem runsIn_of_ready {i : Instr} {s : State} (h : Ready s ∨ (fifoOnly i = true ∧ FifoReady s)) :
    runsIn i s.cfg = true := by
  rw [runsIn]
  rcases h with hr | ⟨hi, hr⟩
  · split
    · exact hr.fifo.2
    · exact hr.2
  · rw [if_pos hi]; exact hr.2

theorem exec_badConfiguration {i : Instr} {s : State} (hf : s.faults = []) (h : ¬ runsIn i s.cfg = true) :
    exec i s = .refused .badConfiguration := by
  rw [exec_eq, guarded, if_neg (not_not_intro hf), if_neg h]

theorem exec_of_runsIn {i : Instr} {s : State} (hf : s.faults = []) (h : runsIn i s.cfg = true) :
    exec i s = (requestRefusal i s).elim (.next (effect i s)) .refused := by
  rw [exec_eq, guarded_of_ready hf h]

/-- The two requests that an admitted configuration refuses (R160, R270). -/
theorem requestRefusal_cases (i : Instr) (s : State) : requestRefusal i s = none ∨
    (∃ n, i = .fifoInit n ∧ n ≠ s.size ∧ requestRefusal i s = some .wrongCapacity) ∨
    (∃ d, i = .indPulse d ∧ 65535 < d ∧ requestRefusal i s = some .pulseTooLong) := by
  cases i with
  | fifoInit n =>
    by_cases hn : n = s.size
    · exact .inl (if_pos hn)
    · exact .inr (.inl ⟨n, rfl, hn, if_neg hn⟩)
  | indPulse d =>
    by_cases hd : 65535 < d
    · exact .inr (.inr ⟨d, rfl, hd, if_pos hd⟩)
    · exact .inl (if_neg hd)
  | _ => exact .inl rfl

/-- Settles O53: the configuration decides whether an operation runs, and then the request whether it is refused. -/
theorem onlySpecifiedRefusals : Obligations.OnlySpecifiedRefusals := by
  intro i s hf
  refine ⟨fun hcfg => ?_, fun hi hn => ?_, fun hready => ?_⟩
  · exact exec_badConfiguration hf fun h => hcfg ((Config.fifoOk_iff _).mp (fifoOk_of_runsIn h))
  · have hsmall : ¬ 5 ≤ s.size := Nat.not_le_of_lt hn
    exact exec_badConfiguration hf fun h => hsmall ((Config.ok_iff _).mp (ok_of_runsIn hi h)).1
  · have hexec := exec_of_runsIn hf (runsIn_of_ready hready)
    rcases requestRefusal_cases i s with h | ⟨n, hi, hn, h⟩ | ⟨d, hi, hd, h⟩ <;> rw [h] at hexec
    · exact .inl ⟨_, hexec⟩
    · exact .inr (.inl ⟨n, hi, hn, hexec⟩)
    · exact .inr (.inr ⟨d, hi, hd, hexec⟩)

/-! ### The interrupt handlers (R343, R344) -/

/-- The same state with another indicator and another trace of its pulses: all that the timer's handler writes (R277). -/
def State.withIndicator (ind : Indicator) (trace : List (BitVec 32)) (s : State) : State :=
  { s with ind := ind, ports := { s.ports with indTrace := trace } }

/-- A tick reads the indicator and its trace alone, and writes nothing else (R271, R277). -/
theorem tickStep_eq_withIndicator {s t : State} (hind : t.ind = s.ind) (htrace : t.ports.indTrace = s.ports.indTrace) :
    tickStep t = t.withIndicator (tickStep s).ind (tickStep s).ports.indTrace := by
  simp only [tickStep, hind]
  split
  · rw [← htrace]; rfl
  · split
    · simp only [pulse, htrace]; rfl
    · rw [← htrace]; rfl

/-- An edge leaves every queue and trace but the line's. -/
theorem edgeStep_ports (l : Bool) (s : State) :
    (edgeStep l s).ports = { s.ports with lineTrace := (edgeStep l s).ports.lineTrace } :=
  congrArg State.ports (edgeStep_frame_of l s)

/-- Settles O57: the frames of the two handlers. -/
theorem interruptsLeaveMain : Obligations.InterruptsLeaveMain := by
  refine fun l s t => ⟨fun h => ?edge, fun h => ?tick⟩
  case edge =>
    obtain rfl : t = edgeStep l s := exec_next h
    rw [edgeStep_ports]
    exact ⟨edgeStep_seq l s, rfl, rfl, rfl, edgeStep_ind l s, edgeStep_env l s, edgeStep_faults l s⟩
  case tick =>
    obtain rfl : t = tickStep s := exec_next h
    exact tickStep_eq_withIndicator rfl rfl

section
variable (ind : Indicator) (trace : List (BitVec 32))

theorem logAppend_withIndicator (record : List Byte) (s : State) :
    logAppend record (s.withIndicator ind trace) = (logAppend record s).withIndicator ind trace := by
  simp only [logAppend, apply_ite (State.withIndicator ind trace)]; rfl

theorem completeStep_withIndicator (s : State) :
    completeStep (s.withIndicator ind trace) = (completeStep s).withIndicator ind trace := by
  cases hf : accFlag s.engine.acc
  · rw [completeStep_unit (s := s) hf, completeStep_unit (s := s.withIndicator ind trace) hf]; rfl
  · rw [completeStep_command (s := s) hf, completeStep_command (s := s.withIndicator ind trace) hf,
      logAppend_withIndicator]; rfl

/-- An edge reads neither the indicator nor its trace: branch by branch of R220. -/
theorem edgeStep_withIndicator (l : Bool) (s : State) :
    edgeStep l (s.withIndicator ind trace) = (edgeStep l s).withIndicator ind trace := by
  simp only [edgeStep, completeStep_withIndicator, txStep, startDetect, frameEdge,
    apply_ite (State.withIndicator ind trace)]
  rfl

end

/-- The two handlers commute (R343). -/
theorem edgeStep_tickStep (l : Bool) (s : State) : edgeStep l (tickStep s) = tickStep (edgeStep l s) := by
  have hind : (edgeStep l s).ind = s.ind := edgeStep_ind l s
  have htrace : (edgeStep l s).ports.indTrace = s.ports.indTrace := by rw [edgeStep_ports]
  calc edgeStep l (tickStep s)
    _ = edgeStep l (s.withIndicator (tickStep s).ind (tickStep s).ports.indTrace) :=
        congrArg (edgeStep l) (tickStep_eq_withIndicator rfl rfl)
    _ = (edgeStep l s).withIndicator (tickStep s).ind (tickStep s).ports.indTrace := edgeStep_withIndicator ..
    _ = tickStep (edgeStep l s) := (tickStep_eq_withIndicator hind htrace).symm

/-- Settles O58: both orders run, and the handlers commute. -/
theorem edgeAndTickCommute : Obligations.EdgeAndTickCommute := by
  intro l s hr
  refine ⟨tickStep (edgeStep l s), ?_, ?_⟩
  · rw [execAll_cons_next (exec_peEdge l hr), execAll_cons_next (exec_tmrTick (edgeStep_ready l hr))]; rfl
  · rw [execAll_cons_next (exec_tmrTick hr), execAll_cons_next (exec_peEdge l (tickStep_ready hr)), edgeStep_tickStep]; rfl

end Sys2Proof.Machine
end

section
/-! RESET reaches R66's values from every state (spec/70_reset_and_hazards.md R370, R371). -/

namespace Sys2Proof.Machine

/-- R66's values hold whatever unwritten storage reads as and whatever the environment is: the one byte they speak of is
the Startup record's, which has been written. -/
theorem resetValues_of_resetWith (cfg : Config) (e : Nat) (v : Environment) :
    ResetValues { (State.resetWith cfg).withEpoch e with env := v } where
  head := rfl
  tail := rfl
  startup := by simp [Fifo.byteAt, State.withEpoch, State.resetWith, Memory.read?_cons]
  readOpen := rfl
  spoiled := rfl
  status := rfl
  engine := rfl
  ind := rfl
  seq := rfl
  ports := rfl
  faults := rfl

/-- Settles O47: the boot steps end in the state after reset, with fresh storage and the environment kept. -/
theorem resetReachesResetValues : Obligations.ResetReachesResetValues := by
  refine ⟨fun s hr => ⟨bootStep s, exec_reset hr, ?_⟩, fun cfg => ⟨resetValues_of_resetWith cfg 0 _, rfl⟩⟩
  rw [bootStep_eq_resetWith hr]
  exact ⟨resetValues_of_resetWith s.cfg (s.fifo.epoch + 1) _, rfl, rfl, rfl⟩

end Sys2Proof.Machine
end

section
/-! Which operation a step runs (spec/30_encoding.md R111, R135, spec/44_commands.md R291, spec/60_exceptions.md R333, R342):
what `fetch` answers for each front of the script, and the step that follows from it. -/

namespace Sys2Proof

/-- Settles O2: closed words, read by evaluation. -/
theorem specWordsDecode : Obligations.SpecWordsDecode := by
  unfold Obligations.SpecWordsDecode; decide

/-! ### The port selectors (R135) -/

/-- No row of the table takes a selector whose bit 4 is set. -/
theorem portOpcode_of_reserved : ∀ b : Byte, 0x10 ≤ b.toNat → b.toNat < 0x20 →
    portOpcode b = .error (.reservedSelector b) := by decide

theorem decodePort_of_portOpcode_error {b : Byte} {e : DecodeError} (h : portOpcode b = .error e) (rest : List Byte) :
    decodePort (b :: rest) = .error e := by
  rw [decodePort, h]

namespace Machine

/-- The byte of MAIN's turn is no port word, so it stands in the way of no operation (log entry 2). -/
theorem decodePort_mainTurn (rest : List Byte) : decodePort (mainTurn :: rest) = .error (.notPortWord mainTurn) :=
  decodePort_of_portOpcode_error rfl rest

/-! ### The next operation -/

theorem fetch_of_script_empty {s : State} (h : s.env.script = []) :
    fetch s = .ok (agentInstr s (Config.freeAgentStep s.env.turn), nextTurn s) := by
  rw [fetch, h]

theorem fetch_of_mainTurn {s : State} {rest : List Byte} (h : s.env.script = mainTurn :: rest) :
    fetch s = .ok (mainInstr s, setScript rest s) := by
  rw [fetch, h]; exact if_pos rfl

theorem fetch_of_port {s : State} {b : Byte} {rest : List Byte} (h : s.env.script = b :: rest) (hb : b ≠ mainTurn) :
    fetch s = (decodePort s.env.script).map fun p => (p.1, setScript p.2 s) := by
  rw [fetch, h]
  dsimp only
  rw [if_neg hb]
  cases decodePort (b :: rest) <;> rfl

/-- A script that decodes to a port operation is not empty and does not give MAIN the turn. -/
theorem fetch_of_decodePort {s : State} {i : Instr} {rest : List Byte} (h : decodePort s.env.script = .ok (i, rest)) :
    fetch s = .ok (i, setScript rest s) := by
  cases hs : s.env.script with
  | nil => rw [hs] at h; cases h
  | cons b bs =>
    have hb : b ≠ mainTurn := by
      rintro rfl
      rw [hs, decodePort_mainTurn] at h; cases h
    rw [fetch_of_port hs hb, h]; rfl

/-! ### The step -/

section
variable {s : State} (hf : s.faults = [])
include hf

theorem step_of_fetch {i : Instr} {t : State} (h : fetch s = .ok (i, t)) : step s = exec i t := by
  rw [step, if_neg (not_not_intro hf), h]

theorem step_of_fetch_error {e : DecodeError} (h : fetch s = .error e) : step s = .refused (.badRequest e) := by
  rw [step, if_neg (not_not_intro hf), h]

end

/-- Settles O4: the two halves of the table by evaluation; a reserved selector is refused by the decoder, and a step
passes the refusal on. -/
theorem portSelectorTable : Obligations.PortSelectorTable := by
  refine ⟨by decide, by decide, fun b rest s hlo hhi => ?_⟩
  have hdecode := decodePort_of_portOpcode_error (portOpcode_of_reserved b hlo hhi) rest
  refine ⟨hdecode, fun hf hs => step_of_fetch_error hf ?_⟩
  have hb : b ≠ mainTurn := by rintro rfl; exact absurd hhi (by decide)
  rw [fetch_of_port hs hb, hs, hdecode]; rfl

/-- Settles O7: the operation decoded is the one fetched. -/
theorem stepRunsScriptedOperation : Obligations.StepRunsScriptedOperation :=
  fun _ _ _ hf h => step_of_fetch hf (fetch_of_decodePort h)

/-! ### MAIN's operation (R291) -/

theorem mainInstr_of_readlog {s : State} (h : s.seq.phase = .rlEmit ∨ s.seq.phase = .rlAdvance) :
    mainInstr s = .readlog := by
  rcases h with h | h <;> rw [mainInstr, h]

theorem mainInstr_of_sendcode {s : State}
    (h : s.seq.phase ∈ [.scArg1, .scArg2, .scArg3, .scLog, .scWaitIdle, .scStart, .scWaitDone]) :
    mainInstr s = .sendcode s.seq.argCmd s.seq.argHouse s.seq.argUnit := by
  cases hp : s.seq.phase <;> simp_all [mainInstr]

/-- Settles O8: MAIN's turn and the empty script by what they fetch, then the operation phase by phase. -/
theorem stepRunsMainPhase : Obligations.StepRunsMainPhase := by
  intro s hf
  refine ⟨fun rest h => step_of_fetch hf (fetch_of_mainTurn h), fun h => step_of_fetch hf (fetch_of_script_empty h),
    ⟨rfl, fun _ => rfl, rfl, fun _ => rfl, fun _ => rfl, rfl⟩, ?poll, ?ping, ?uptime, ?status, ?invalid,
    mainInstr_of_readlog, mainInstr_of_sendcode⟩
  case poll | ping | uptime | status | invalid => intro h; rw [mainInstr, h]

end Machine
end Sys2Proof
end
